-- ==== Sys2Proof/Word.lean ====
section
/-! DEFINITION. The value types of 00_scope.md R9: u8, u16, and the 12-bit host word of 30_encoding.md R61. -/

namespace Sys2Proof

/-- u8 (R9): a host register, a wire byte, a scratchpad byte. -/
abbrev Byte := BitVec 8

/-- u16 (R9): the raw temperature, TEMP, CDLY. -/
abbrev Half := BitVec 16

/-- One host transaction word `W AAA DDDDDDDD` (30_encoding.md R61). -/
abbrev HostWord := BitVec 12

end Sys2Proof
end

