-- ==== Sys2Proof/Syntax.lean ====
section
/-! DEFINITION. One constructor for each row of spec/opcode_table.json. Bits a row ignores are operands too, so that
every word has a term of its own (30_encoding.md R66). -/

namespace Sys2Proof

/-- The instructions: the host transaction words (format HOST12, 30_encoding.md R61 to R65) and the command bytes the
sequencer sends (format WIRE8, R70). `ign` is the ignored field D[7:4] of a CTRL write, `d` is D[7:0]. -/
inductive Instr where
  | nop (ign : BitVec 4)
  | init (ign : BitVec 4)
  | reset (ign : BitVec 4)
  | writeBit (ign : BitVec 4)
  | readBit (ign : BitVec 4)
  | writeByte (ign : BitVec 4)
  | readByte (ign : BitVec 4)
  | startConv (ign : BitVec 4)
  | readTemp (ign : BitVec 4)
  /-- OP = 0x9. -/
  | reservedOp9 (ign : BitVec 4)
  /-- OP = 0xA or 0xB: `lo` is OP[0]. -/
  | reservedOpAB (ign : BitVec 4) (lo : BitVec 1)
  /-- OP = 0xC to 0xF: `lo` is OP[1:0]. -/
  | reservedOpCF (ign : BitVec 4) (lo : BitVec 2)
  | wrData (d : Byte)
  | wrConfig (d : Byte)
  | wrStatus (d : Byte)
  | wrTempL (d : Byte)
  | wrTempH (d : Byte)
  | wrCdlyL (d : Byte)
  | wrCdlyH (d : Byte)
  | rdCtrl (d : Byte)
  | rdStatus (d : Byte)
  | rdData (d : Byte)
  | rdConfig (d : Byte)
  | rdTempL (d : Byte)
  | rdTempH (d : Byte)
  | rdCdlyL (d : Byte)
  | rdCdlyH (d : Byte)
  | skipRom
  | convertT
  | readScratchpad
  deriving DecidableEq, Repr

end Sys2Proof
end

