-- ==== Sys2Proof/Decode.lean ====
section
/-! DEFINITION. From words to instructions, rejecting by name, and back (30_encoding.md R60 to R65, R70). -/

namespace Sys2Proof

/-- The two word formats of spec/opcode_table.json. -/
inductive Code where
  /-- HOST12: a host transaction word (R61). -/
  | host (w : HostWord)
  /-- WIRE8: a command byte the sequencer sends (R70). -/
  | wire (b : Byte)
  deriving DecidableEq, Repr

/-- Why bytes are no instruction. -/
inductive DecodeError where
  /-- R70, R107: a byte on the sequencer's command path that is none of the three command bytes. -/
  | notACommandByte (b : Byte)
  /-- R77: a host word has twelve bits; the second byte has more than four. -/
  | moreThanTwelveBits (hi : Byte)
  /-- R77: lengths are fixed, one byte (WIRE8) or two (HOST12). -/
  | badLength (n : Nat)
  deriving DecidableEq, Repr

/-- The host registers (10_state.md R19). -/
inductive Reg where
  | ctrl | status | data | config | tempL | tempH | cdlyL | cdlyH
  deriving DecidableEq, Repr

/-- R19, R44: every offset is mapped. -/
def Reg.ofOffset (a : BitVec 3) : Reg :=
  match a.toNat with
  | 0 => .ctrl
  | 1 => .status
  | 2 => .data
  | 3 => .config
  | 4 => .tempL
  | 5 => .tempH
  | 6 => .cdlyL
  | _ => .cdlyH

/-- R19: a register's offset. -/
def Reg.offset : Reg → BitVec 3
  | .ctrl => 0
  | .status => 1
  | .data => 2
  | .config => 3
  | .tempL => 4
  | .tempH => 5
  | .cdlyL => 6
  | .cdlyH => 7

/-- R63 to R65: a CTRL write's operation code; `ign` is D[7:4], `op` is D[3:0]. -/
def decodeOp (ign op : BitVec 4) : Instr :=
  match op.toNat with
  | 0 => .nop ign
  | 1 => .init ign
  | 2 => .reset ign
  | 3 => .writeBit ign
  | 4 => .readBit ign
  | 5 => .writeByte ign
  | 6 => .readByte ign
  | 7 => .startConv ign
  | 8 => .readTemp ign
  | 9 => .reservedOp9 ign
  | 10 => .reservedOpAB ign 0
  | 11 => .reservedOpAB ign 1
  | 12 => .reservedOpCF ign 0
  | 13 => .reservedOpCF ign 1
  | 14 => .reservedOpCF ign 2
  | _ => .reservedOpCF ign 3

/-- R62: a write word, by its register. -/
def decodeWrite (r : Reg) (d : Byte) : Instr :=
  match r with
  | .ctrl => decodeOp (d.extractLsb' 4 4) (d.extractLsb' 0 4)
  | .status => .wrStatus d
  | .data => .wrData d
  | .config => .wrConfig d
  | .tempL => .wrTempL d
  | .tempH => .wrTempH d
  | .cdlyL => .wrCdlyL d
  | .cdlyH => .wrCdlyH d

/-- R62: a read word, by its register. -/
def decodeRead (r : Reg) (d : Byte) : Instr :=
  match r with
  | .ctrl => .rdCtrl d
  | .status => .rdStatus d
  | .data => .rdData d
  | .config => .rdConfig d
  | .tempL => .rdTempL d
  | .tempH => .rdTempH d
  | .cdlyL => .rdCdlyL d
  | .cdlyH => .rdCdlyH d

/-- R61: bit 11 of a host word, 1 for a write. -/
def HostWord.isWrite (w : HostWord) : Bool := w.getLsbD 11

/-- R61, R62: total on all 4096 host words. -/
def decodeHost (w : HostWord) : Instr :=
  let r := Reg.ofOffset (w.extractLsb' 8 3)
  let d := w.extractLsb' 0 8
  if HostWord.isWrite w then decodeWrite r d else decodeRead r d

/-- R70: the three command bytes; R107: no other is sent as a command. -/
def decodeWire (b : Byte) : Except DecodeError Instr :=
  match b.toNat with
  | 0xCC => .ok .skipRom
  | 0x44 => .ok .convertT
  | 0xBE => .ok .readScratchpad
  | _ => .error (.notACommandByte b)

/-- R60: the decoder. -/
def decode : Code → Except DecodeError Instr
  | .host w => .ok (decodeHost w)
  | .wire b => decodeWire b

/-- The word a list of bytes holds, low byte first (log 10): one byte is a command byte, two are a host word. -/
def Code.ofBytes : List Byte → Except DecodeError Code
  | [b] => .ok (.wire b)
  | [lo, hi] =>
    if hi.extractLsb' 4 4 = 0 then .ok (.host (hi.extractLsb' 0 4 ++ lo))
    else .error (.moreThanTwelveBits hi)
  | bs => .error (.badLength bs.length)

/-- The decoder on bytes: total, rejecting by name. -/
def decodeBytes (bs : List Byte) : Except DecodeError Instr :=
  match Code.ofBytes bs with
  | .ok c => decode c
  | .error e => .error e

/-! The encoder, from the same tables. -/

/-- R61: the word `W AAA DDDDDDDD`. -/
def hostWord (write : BitVec 1) (r : Reg) (d : Byte) : HostWord := write ++ r.offset ++ d

/-- R63: the CTRL write `1 000 rrrr OOOO`. -/
def ctrlWord (ign op : BitVec 4) : HostWord := hostWord 1 .ctrl (ign ++ op)

/-- R61 to R65, R70: an instruction's word. -/
def encode : Instr → Code
  | .nop ign => .host (ctrlWord ign 0x0)
  | .init ign => .host (ctrlWord ign 0x1)
  | .reset ign => .host (ctrlWord ign 0x2)
  | .writeBit ign => .host (ctrlWord ign 0x3)
  | .readBit ign => .host (ctrlWord ign 0x4)
  | .writeByte ign => .host (ctrlWord ign 0x5)
  | .readByte ign => .host (ctrlWord ign 0x6)
  | .startConv ign => .host (ctrlWord ign 0x7)
  | .readTemp ign => .host (ctrlWord ign 0x8)
  | .reservedOp9 ign => .host (ctrlWord ign 0x9)
  | .reservedOpAB ign lo => .host (ctrlWord ign ((0b101 : BitVec 3) ++ lo))
  | .reservedOpCF ign lo => .host (ctrlWord ign ((0b11 : BitVec 2) ++ lo))
  | .wrData d => .host (hostWord 1 .data d)
  | .wrConfig d => .host (hostWord 1 .config d)
  | .wrStatus d => .host (hostWord 1 .status d)
  | .wrTempL d => .host (hostWord 1 .tempL d)
  | .wrTempH d => .host (hostWord 1 .tempH d)
  | .wrCdlyL d => .host (hostWord 1 .cdlyL d)
  | .wrCdlyH d => .host (hostWord 1 .cdlyH d)
  | .rdCtrl d => .host (hostWord 0 .ctrl d)
  | .rdStatus d => .host (hostWord 0 .status d)
  | .rdData d => .host (hostWord 0 .data d)
  | .rdConfig d => .host (hostWord 0 .config d)
  | .rdTempL d => .host (hostWord 0 .tempL d)
  | .rdTempH d => .host (hostWord 0 .tempH d)
  | .rdCdlyL d => .host (hostWord 0 .cdlyL d)
  | .rdCdlyH d => .host (hostWord 0 .cdlyH d)
  | .skipRom => .wire 0xCC
  | .convertT => .wire 0x44
  | .readScratchpad => .wire 0xBE

/-- The bytes of a word, low byte first (log 10). -/
def Code.toBytes : Code → List Byte
  | .host w => [w.extractLsb' 0 8, (w.extractLsb' 8 4).setWidth 8]
  | .wire b => [b]

/-- The bytes of a table word of `nbits` bits: up to 8 bits is one byte (WIRE8), else two (HOST12). None where the
number has bits above those. -/
def tableBytes (nbits w : Nat) : Option (List Byte) :=
  if nbits ≤ 8 then
    if w < 2 ^ 8 then some [BitVec.ofNat 8 w] else none
  else if w < 2 ^ 16 then some [BitVec.ofNat 8 w, BitVec.ofNat 8 (w / 2 ^ 8)]
  else none

/-- The instruction the decoder reads from a word numbered as spec/opcode_table.json numbers it. -/
def decodeTableWord (nbits w : Nat) : Option Instr :=
  match tableBytes nbits w with
  | some bs => (decodeBytes bs).toOption
  | none => none

end Sys2Proof
end

