-- ==== Sys2Proof/Config.lean ====
section
/-! DEFINITION. What an implementation fixes (00_scope.md R6, R7) and the free values (R5, R38, R41). -/

namespace Sys2Proof

/-- The parameters of R6, durations in whole microseconds. The defaults are `Machine.defaultConfig`. -/
structure Config where
  /-- T_RSTL: reset pulse low time. -/
  tRstl : Nat
  /-- T_PDS: presence sample offset after release. -/
  tPds : Nat
  /-- T_RSTH: initialization window after release. -/
  tRsth : Nat
  /-- T_SLOT: bit slot length. -/
  tSlot : Nat
  /-- T_LOW1: write-1 low time. -/
  tLow1 : Nat
  /-- T_LOWR: read-slot low time. -/
  tLowr : Nat
  /-- T_RDS: read sample offset after release. -/
  tRds : Nat
  /-- T_REC: recovery time after a slot. -/
  tRec : Nat
  /-- CONV_DELAY_MS: the constant CDLY (10_state.md R33). -/
  convDelayMs : Half
  /-- SP_LEN: bytes READ_TEMP receives (30_encoding.md R72). -/
  spLen : Nat
  /-- CRC_TABLE (40_crc.md R79). -/
  crcTable : Vector Byte 256
  /-- REG_WIDTH: bits of a host register (10_state.md R19). -/
  regWidth : Nat
  /-- ADDR_WIDTH: bits of a host register's address (20_memory.md R44). -/
  addrWidth : Nat
  /-- CLKS_PER_US, OPEN: clock cycles a tick (10_state.md R36). -/
  clksPerUs : Nat
  deriving DecidableEq, Repr

/-- R7: the legal parameter sets, clause by clause. -/
def Config.legal (c : Config) : Bool :=
  decide (1000 ≤ c.tRstl ∧ 480 ≤ c.tRsth
    ∧ 15 ≤ c.tPds ∧ c.tPds ≤ 240 ∧ c.tPds < c.tRsth
    ∧ 1 ≤ c.tLow1 ∧ c.tLow1 < c.tSlot
    ∧ 1 ≤ c.tLowr ∧ 1 ≤ c.tRds ∧ c.tLowr + c.tRds < 15
    ∧ c.tLowr + c.tRds < c.tSlot ∧ 1 ≤ c.tRec)

/-- The widths the spec's rules are written for: eight 8-bit registers at 3-bit offsets (20_memory.md R44, 30_encoding.md
R61) and nine scratchpad bytes (10_state.md R38, 30_encoding.md R72, 44_scratchpad_decoder.md R109). The types of the
register map, the host word and the scratchpad have them (log 9). -/
def Config.widthsCovered (c : Config) : Bool :=
  decide (c.regWidth = 8 ∧ c.addrWidth = 3 ∧ c.spLen = 9)

/-- The parameter sets the model runs: legal by R7 (log 8), with the widths the rules give (log 9). -/
def Config.admitted (c : Config) : Bool := c.legal && c.widthsCovered

/-- R5, R13, D29: the line level the bus environment answers at a tick, a free value (log 7). -/
opaque Config.line : Nat → Bool

/-- R38: SR outside an operation, a free value (log 1). -/
opaque Config.freeSr : Nat → Byte

/-- R38: SP[0..8] outside an operation, a free value (log 1). -/
opaque Config.freeSp : Nat → Vector Byte 9

/-- R38: PRES outside an operation, a free value (log 1). -/
opaque Config.freePres : Nat → Bool

/-- R38: the last sampled bit outside an operation, a free value (log 1). -/
opaque Config.freeSmp : Nat → Bool

/-- R41: the tick divider's phase after a hardware reset, a free value (log 4). -/
opaque Config.freeDivPhase : Nat → Nat

end Sys2Proof
end

