-- ==== Sys2Proof/Machine/Parameters.lean ====
section
/-! DEFINITION. The parameter values this hardware takes (the defaults of 00_scope.md R6). -/

namespace Sys2Proof.Machine

/-- R6's defaults. CLKS_PER_US is OPEN: 1 is a DESIGN CHOICE (log 4). -/
def defaultConfig : Config where
  tRstl := 1000
  tPds := 60
  tRsth := 480
  tSlot := 90
  tLow1 := 2
  tLowr := 2
  tRds := 5
  tRec := 5
  convDelayMs := 1000
  spLen := 9
  crcTable := crcTableDefault
  regWidth := 8
  addrWidth := 3
  clksPerUs := 1

end Sys2Proof.Machine
end

