-- ==== Sys2Proof/Machine/State.lean ====
section
/-! DEFINITION. The machine's state as plain data, its reset value, and the reasons a step can stop. -/

namespace Sys2Proof.Machine

/-- The controller's drive state (10_state.md R34). -/
inductive Drive where
  /-- REL: released, floating input. -/
  | rel
  /-- LOW: driven low. -/
  | low
  /-- HIGH: driven high, the strong pull-up. -/
  | high
  deriving DecidableEq, Repr

/-- The operations a CTRL write can start (30_encoding.md R64 without NOP, which is never accepted, 45_host_control.md R121). -/
inductive Op where
  | init | reset | writeBit | readBit | writeByte | readByte | startConv | readTemp
  deriving DecidableEq, Repr

/-- The three command bytes the sequencer sends (30_encoding.md R70; no other, 43_command_sequencer.md R107). -/
inductive WireCmd where
  | skipRom | convertT | readScratchpad
  deriving DecidableEq, Repr

/-- One item of an operation's procedure: the bus primitives of 00_scope.md R13 and the bookkeeping the pseudocode of
41_transport.md, 42_reset_presence.md and 43_command_sequencer.md puts between them. -/
inductive Prim where
  /-- `Drive(d, n)`: n ticks, none if n = 0. -/
  | drive (d : Drive) (n : Nat)
  /-- `Hold(d)`: no time. -/
  | hold (d : Drive)
  /-- R103: `if x[CONFIG].PARASITE == 1: Hold(HIGH)`. -/
  | holdIfParasite
  /-- `Sample()`: no time; the bit is kept in `smp`. -/
  | sample
  /-- R97: `PRES <- p`. -/
  | storePres
  /-- R90: `SR[k] <- SlotRead()`. -/
  | storeSr (k : Nat)
  /-- R106: `SP[i] <- ByteRead()`. -/
  | storeSp (i : Nat)
  /-- R102: `if p == 1: raise DeviceAbsent()`. -/
  | failIfAbsent
  /-- R103, R106: `ByteWrite` of a command byte, fetched and run as an instruction of format WIRE8. -/
  | send (c : WireCmd)
  deriving DecidableEq, Repr

/-- What the outside world does to the block (10_state.md R35, R36, 20_memory.md R55, 70_reset_and_hazards.md R147). -/
inductive Event where
  /-- A tick event of the microsecond timebase. -/
  | tick
  /-- One cycle of `clk`; the divider makes a tick event of every CLKS_PER_US of them (R36). -/
  | clk
  /-- One host transaction, as its word (30_encoding.md R61). -/
  | txn (w : HostWord)
  /-- The hardware reset as one atomic event (R147). -/
  | reset
  /-- `rst` asserted and held (R147). -/
  | rstHold
  /-- `rst` released. -/
  | rstRelease
  deriving DecidableEq, Repr

/-- Everything the spec gives the machine (INVENTORY.md, State), with the outside world's inputs. BUSY, SPU and the
pins are computed (`Machine/Flags.lean`), each from the one field that determines it. -/
structure State where
  /-- The parameters of 00_scope.md R6; no step changes them. -/
  cfg : Config
  /-- Number of the next tick event, the global tick τ of 10_state.md R39. -/
  tick : Nat
  /-- The environment's answers known in advance, (tick, level), true = high (00_scope.md R5; log 7). -/
  levels : List (Nat × Bool)
  /-- Pending events, the next first; when none is pending the next event is a tick (log 6). -/
  agenda : List Event
  /-- Level of the reset input (R36, R147). -/
  rst : Bool
  /-- Phase of the tick divider (R36, R41); it restarts with each operation (60_exceptions.md R143). -/
  divPhase : Nat
  /-- `h_rdata`: what the last host read returned (R35). -/
  rdata : Byte
  /-- STATUS.PRESENT (R23). -/
  present : Bool
  /-- STATUS.ERR_ABSENT (R24). -/
  errAbsent : Bool
  /-- STATUS.ERR_CRC (R25). -/
  errCrc : Bool
  /-- STATUS.CMD_ERR (R26). -/
  cmdErr : Bool
  /-- STATUS.DONE (R28). -/
  done : Bool
  /-- DATA (R30). -/
  data : Byte
  /-- CONFIG.PARASITE (R31). -/
  parasite : Bool
  /-- TEMP (R32). -/
  temp : Half
  /-- The operation in progress; none is IDLE (R37). -/
  cur : Option Op
  /-- The procedure from the current primitive on (R37). -/
  seq : List Prim
  /-- Ticks elapsed of the current primitive (R37). -/
  elapsed : Nat
  /-- The drive state (R34). -/
  drive : Drive
  /-- The bit sampled and not yet stored: `b` of 41_transport.md R88, `p` of 42_reset_presence.md R97. -/
  smp : Bool
  /-- PRES (R38): true = the line was high. -/
  pres : Bool
  /-- SR (R38). -/
  sr : Byte
  /-- SP[0..8] (R38). -/
  sp : Vector Byte 9
  /-- The model's own: how many times the values R38 and R41 leave unspecified have been drawn (log 1). -/
  draws : Nat
  deriving DecidableEq, Repr

/-- The machine right after a hardware reset (10_state.md R41). Values R41 does not give: smp, pres, sr, sp, draws
(log 1), rdata (log 2), rst (log 3), cfg.clksPerUs and divPhase (log 4), tick (log 5), agenda (log 6), levels (log 7). -/
def State.reset : State where
  cfg := defaultConfig
  tick := 0
  levels := []
  agenda := []
  rst := false
  divPhase := 0
  rdata := 0
  present := false
  errAbsent := false
  errCrc := false
  cmdErr := false
  done := false
  data := 0
  parasite := false
  temp := 0
  cur := none
  seq := []
  elapsed := 0
  drive := .rel
  smp := false
  pres := false
  sr := 0
  sp := Vector.replicate 9 0
  draws := 0

/-- Faults: none. 93_implementation_defined.md: "No behaviour of the block is `fault`: the block never stops." Safe. -/
inductive Fault where
  deriving DecidableEq, Repr

/-- Why a step has no next state. -/
inductive Refusal where
  /-- Raised by an arm of `exec` whose instruction has no meaning yet; no arm of this model. Safe. -/
  | notModelled (mnemonic : String)
  /-- Raised by `step` on a parameter set that 00_scope.md R7 does not allow, as R7 and 93_implementation_defined.md
  row 2 let a model do (log 8). No meaning raises it. Safe. -/
  | illegalParameters
  /-- Raised by `step` on a legal parameter set with a REG_WIDTH, ADDR_WIDTH or SP_LEN that no rule covers (log 9). No
  meaning raises it. Safe. -/
  | widthNotCovered
  /-- Raised by `step` if a fetched word does not decode; no state has one (R62, R107). Safe. -/
  | undecodable
  deriving DecidableEq, Repr

end Sys2Proof.Machine
end

