-- ==== Sys2Proof/Machine/Flags.lean ====
section
/-! DEFINITION. STATUS and the output pins: what is computed from the state, and every change of a flag. -/

namespace Sys2Proof.Machine

/-- STATUS.BUSY (10_state.md R22, R37): an operation is in progress. -/
def State.busy (s : State) : Bool := s.cur.isSome

/-- STATUS.SPU (R27): the drive state is HIGH. -/
def State.spu (s : State) : Bool := s.drive == .high

/-- Output pin dq_oe (R34). -/
def State.dqOe (s : State) : Bool := s.drive != .rel

/-- Output pin dq_o (R34). -/
def State.dqO (s : State) : Bool := s.drive == .high

/-- One flag as one bit. -/
def bit (b : Bool) : BitVec 1 := BitVec.ofBool b

/-- STATUS as read (45_host_control.md R128): {0, DONE, SPU, CMD_ERR, ERR_CRC, ERR_ABSENT, PRESENT, BUSY}. -/
def State.status (s : State) : Byte :=
  (0 : BitVec 1) ++ bit s.done ++ bit s.spu ++ bit s.cmdErr ++ bit s.errCrc ++ bit s.errAbsent
    ++ bit s.present ++ bit s.busy

/-- The errors (60_exceptions.md R131 to R133). -/
inductive ErrorKind where
  | deviceAbsent | integrityFailure | commandError
  deriving DecidableEq, Repr

/-- R131 to R134: an error sets its STATUS bit, and does nothing else to the registers. -/
def setErrorFlag (e : ErrorKind) (s : State) : State :=
  match e with
  | .deviceAbsent => { s with errAbsent := true }
  | .integrityFailure => { s with errCrc := true }
  | .commandError => { s with cmdErr := true }

/-- R138, 45_host_control.md R120: what acceptance clears; the nearest the block has to a return from an error. -/
def clearResults (s : State) : State :=
  { s with errAbsent := false, errCrc := false, cmdErr := false, done := false }

/-- R23: PRESENT takes the presence indicator, 1 if the sample PRES was 0. -/
def setPresentFromSample (s : State) : State := { s with present := !s.pres }

end Sys2Proof.Machine
end

