-- ==== Sys2Proof/Machine/Operands.lean ====
section
/-! DEFINITION. Every operand the instructions take, and the bit and byte order of what they move. -/

namespace Sys2Proof.Machine

/-- 41_transport.md R91: WRITE_BIT's operand, DATA[0]. -/
def State.dataBit (s : State) : Bool := s.data.getLsbD 0

/-- 45_host_control.md R126: the PARASITE bit of a value written to CONFIG; bits 7:1 are ignored. -/
def parasiteOf (d : Byte) : Bool := d.getLsbD 0

/-- 20_memory.md R47: the bits of a byte in the order they are sent, bit 0 first. -/
def bitsLsbFirst (v : Byte) : List Bool := (List.range 8).map v.getLsbD

/-- R90: one bit of the shift register replaced. -/
def setBit (v : Byte) (k : Nat) (b : Bool) : Byte :=
  if b then v ||| (1#8 <<< k) else v &&& ~~~(1#8 <<< k)

/-- R92: zext_8 of a bit. -/
def zextBit (b : Bool) : Byte := (bit b).setWidth 8

/-- 20_memory.md R46, R48: a 16-bit value from its low and high byte. -/
def halfOf (lo hi : Byte) : Half := hi ++ lo

/-- R48: the low byte of a 16-bit value. -/
def lowByte (v : Half) : Byte := v.extractLsb' 0 8

/-- R48: the high byte of a 16-bit value. -/
def highByte (v : Half) : Byte := v.extractLsb' 8 8

/-- 10_state.md R31, 45_host_control.md R128: CONFIG as read, {0b0000000, PARASITE}. -/
def State.config (s : State) : Byte := (0 : BitVec 7) ++ bit s.parasite

/-- 30_encoding.md R70: the command bytes. -/
def WireCmd.byte : WireCmd → Byte
  | .skipRom => 0xCC
  | .convertT => 0x44
  | .readScratchpad => 0xBE

end Sys2Proof.Machine
end

