-- ==== Sys2Proof/Machine/Procedures.lean ====
section
/-! DEFINITION. The procedures: bit slots, bytes, reset and presence, and each operation's sequence of primitives. -/

namespace Sys2Proof.Machine

/-- 41_transport.md R86: SlotWrite(0). -/
def slotWrite0 (c : Config) : List Prim :=
  [.drive .low c.tSlot, .drive .rel c.tRec]

/-- R87: SlotWrite(1). -/
def slotWrite1 (c : Config) : List Prim :=
  [.drive .low c.tLow1, .drive .rel (c.tSlot - c.tLow1), .drive .rel c.tRec]

/-- R86, R87: SlotWrite(v). -/
def slotWrite (c : Config) (v : Bool) : List Prim :=
  if v then slotWrite1 c else slotWrite0 c

/-- R88: SlotRead; the bit stands in `smp` when it ends. -/
def slotRead (c : Config) : List Prim :=
  [.drive .low c.tLowr, .drive .rel c.tRds, .sample,
   .drive .rel (c.tSlot - c.tLowr - c.tRds), .drive .rel c.tRec]

/-- R89: ByteWrite(v), bit 0 first. -/
def byteWrite (c : Config) (v : Byte) : List Prim :=
  (bitsLsbFirst v).flatMap (slotWrite c)

/-- R90: one step of ByteRead: a slot, then its bit into SR[k]. -/
def bitRead (c : Config) (k : Nat) : List Prim := slotRead c ++ [.storeSr k]

/-- R90: ByteRead; the byte stands in SR when it ends. -/
def byteRead (c : Config) : List Prim := (List.range 8).flatMap (bitRead c)

/-- 42_reset_presence.md R97: ResetPresence; the sample stands in PRES when it ends. -/
def resetPresence (c : Config) : List Prim :=
  [.drive .low c.tRstl, .drive .rel c.tPds, .sample, .drive .rel (c.tRsth - c.tPds), .storePres]

/-- 43_command_sequencer.md R102: the preface of both sequences. -/
def preface (c : Config) : List Prim := resetPresence c ++ [.failIfAbsent]

/-- R106: SP[i] <- ByteRead(). -/
def scratchpadByteRead (c : Config) (i : Nat) : List Prim := byteRead c ++ [.storeSp i]

/-- R106: SP_LEN bytes, SP[0] first (30_encoding.md R72). -/
def scratchpadRead (c : Config) : List Prim := (List.range c.spLen).flatMap (scratchpadByteRead c)

/-- R103: START_CONV. -/
def startConvProcedure (c : Config) : List Prim :=
  preface c ++ [.send .skipRom, .send .convertT, .holdIfParasite]

/-- R106: READ_TEMP; Decode takes no time and is part of completion. -/
def readTempProcedure (c : Config) : List Prim :=
  preface c ++ [.send .skipRom, .send .readScratchpad] ++ scratchpadRead c

/-- Each operation's procedure (R91 to R94, R99, R103, R106, 45_host_control.md R122), with its operand from DATA, which
cannot change while the operation runs (R125). -/
def procedure (op : Op) (s : State) : List Prim :=
  match op with
  | .init => [.hold .rel]
  | .reset => resetPresence s.cfg
  | .writeBit => slotWrite s.cfg s.dataBit
  | .readBit => slotRead s.cfg
  | .writeByte => byteWrite s.cfg s.data
  | .readByte => byteRead s.cfg
  | .startConv => startConvProcedure s.cfg
  | .readTemp => readTempProcedure s.cfg

end Sys2Proof.Machine
end

