-- ==== Sys2Proof/Machine/Ops.lean ====
section
/-! DEFINITION. The operations the meanings share: registers, errors, acceptance, the line, the hardware reset. -/

namespace Sys2Proof.Machine

/-- 00_scope.md R13: `line(t)`, the level the environment answers at tick t: a known answer, else the free value. The
pin dq_i at tick t. -/
def State.line (s : State) (t : Nat) : Bool := (s.levels.lookup t).getD (Config.line t)

/-- The drive state, and the pins with it (10_state.md R34). -/
def setDrive (d : Drive) (s : State) : State := { s with drive := d }

/-- The position in the procedure: the primitives from the current one on, and the current one's ticks elapsed (R37). -/
def setPosition (seq : List Prim) (elapsed : Nat) (s : State) : State :=
  { s with seq := seq, elapsed := elapsed }

/-- The number of the next tick event (R39). -/
def setTick (n : Nat) (s : State) : State := { s with tick := n }

/-- 60_exceptions.md R143: the timebase's divider restarts: its phase is 0 again (log 4). -/
def restartTimebase (s : State) : State := { s with divPhase := 0 }

/-- The outside world's pending events. -/
def setAgenda (agenda : List Event) (s : State) : State := { s with agenda := agenda }

/-- 45_host_control.md R128: what a host read of a register returns. -/
def readReg (r : Reg) (s : State) : Byte :=
  match r with
  | .ctrl => 0
  | .status => s.status
  | .data => s.data
  | .config => s.config
  | .tempL => lowByte s.temp
  | .tempH => highByte s.temp
  | .cdlyL => lowByte s.cfg.convDelayMs
  | .cdlyH => highByte s.cfg.convDelayMs

/-- R128, R129: a host read puts the value on h_rdata and changes nothing else. -/
def hostRead (r : Reg) (s : State) : State := { s with rdata := readReg r s }

/-- R38: outside an operation SR, SP, PRES and the sampled bit are unspecified: free values (log 1). -/
def forgetScratch (s : State) : State :=
  { s with
    smp := Config.freeSmp s.draws
    pres := Config.freePres s.draws
    sr := Config.freeSr s.draws
    sp := Config.freeSp s.draws
    draws := s.draws + 1 }

/-- 10_state.md R39, 60_exceptions.md R134: the operation ends: DONE set, BUSY cleared, position gone. -/
def endOperation (s : State) : State :=
  forgetScratch (setPosition [] 0 { s with done := true, cur := none })

/-- 00_scope.md R14, 60_exceptions.md R134: TAKING AN ERROR. It sets its STATUS bit; no vector, no saved state, no mode.
DeviceAbsent and IntegrityFailure are raised at the completion of their operation, which `endOperation` then ends;
CommandError is raised at the moment of the write and ends nothing (R139). -/
def raise (e : ErrorKind) (s : State) : State := setErrorFlag e s

/-- 45_host_control.md R120: acceptance of an operation. R138: it is also what clears an error. R143: the timebase and
the tick count of the primitive restart. -/
def accept (op : Op) (s : State) : State :=
  setPosition (procedure op s) 0 (restartTimebase { clearResults s with cur := some op })

/-- R124 to R126: a write that is refused while an operation is in progress; `idle` is its effect otherwise. -/
def refusedWhileBusy (idle : State → State) (s : State) : State :=
  if s.busy then raise .commandError s else idle s

/-- R120: a CTRL write that names an operation. -/
def startOperation (op : Op) (s : State) : State := refusedWhileBusy (accept op) s

/-- R123: a CTRL write that names a reserved code. -/
def reservedOperation (s : State) : State := refusedWhileBusy (raise .commandError) s

/-- 41_transport.md R89: the sequencer sends a command byte next, LSB first. -/
def sendByte (v : Byte) (s : State) : State :=
  setPosition (byteWrite s.cfg v ++ s.seq) 0 s

/-- 70_reset_and_hazards.md R147, 10_state.md R41: the hardware reset. Any operation is abandoned without completing.
The outside world's inputs, the parameters, the tick number and h_rdata stay (log 2, 3, 5); what R41 leaves unspecified
is drawn (log 1, 4). -/
def hardReset (s : State) : State :=
  forgetScratch
    { s with
      present := false
      errAbsent := false
      errCrc := false
      cmdErr := false
      done := false
      data := 0
      parasite := false
      temp := 0
      cur := none
      seq := []
      elapsed := 0
      drive := .rel
      divPhase := Config.freeDivPhase s.draws % s.cfg.clksPerUs }

end Sys2Proof.Machine
end

