-- ==== Sys2Proof/Machine/CommandSequencer.lean ====
section
/-! DEFINITION. The two command sequences and the command bytes they send (43_command_sequencer.md). -/

namespace Sys2Proof.Machine

/-- R103. -/
def execStartConv (_ign : BitVec 4) (s : State) : Host.Outcome State Fault Refusal :=
  .next (startOperation .startConv s)

/-- R106. -/
def execReadTemp (_ign : BitVec 4) (s : State) : Host.Outcome State Fault Refusal :=
  .next (startOperation .readTemp s)

/-- R103, R106, 30_encoding.md R70: SKIP_ROM, the ROM command. -/
def execSkipRom (s : State) : Host.Outcome State Fault Refusal := .next (sendByte 0xCC s)

/-- R103, 30_encoding.md R70: CONVERT_T. -/
def execConvertT (s : State) : Host.Outcome State Fault Refusal := .next (sendByte 0x44 s)

/-- R106, 30_encoding.md R70: READ_SCRATCHPAD. -/
def execReadScratchpad (s : State) : Host.Outcome State Fault Refusal := .next (sendByte 0xBE s)

end Sys2Proof.Machine
end

