-- ==== Sys2Proof/Machine/HostControl.lean ====
section
/-! DEFINITION. The CTRL writes that start nothing but a local effect: NOP, INIT and the reserved codes
(45_host_control.md R121 to R124). Bits 7:4 are ignored (30_encoding.md R66). -/

namespace Sys2Proof.Machine

/-- R121: no effect while idle; refused while busy (R124). -/
def execNop (_ign : BitVec 4) (s : State) : Host.Outcome State Fault Refusal :=
  .next (refusedWhileBusy id s)

/-- R122. -/
def execInit (_ign : BitVec 4) (s : State) : Host.Outcome State Fault Refusal :=
  .next (startOperation .init s)

/-- R123, OP = 0x9. -/
def execReservedOp9 (_ign : BitVec 4) (s : State) : Host.Outcome State Fault Refusal :=
  .next (reservedOperation s)

/-- R123, OP = 0xA, 0xB. -/
def execReservedOpAB (_ign : BitVec 4) (_lo : BitVec 1) (s : State) : Host.Outcome State Fault Refusal :=
  .next (reservedOperation s)

/-- R123, OP = 0xC to 0xF. -/
def execReservedOpCF (_ign : BitVec 4) (_lo : BitVec 2) (s : State) : Host.Outcome State Fault Refusal :=
  .next (reservedOperation s)

end Sys2Proof.Machine
end

