-- ==== Sys2Proof/Machine/RegisterReads.lean ====
section
/-! DEFINITION. The register reads (45_host_control.md R128, R129): at any time, with no side effect; the word's D field is
ignored (30_encoding.md R61). -/

namespace Sys2Proof.Machine

/-- R128: a = CTRL. -/
def execRdCtrl (_d : Byte) (s : State) : Host.Outcome State Fault Refusal := .next (hostRead .ctrl s)

/-- R128: a = STATUS. -/
def execRdStatus (_d : Byte) (s : State) : Host.Outcome State Fault Refusal := .next (hostRead .status s)

/-- R128: a = DATA. -/
def execRdData (_d : Byte) (s : State) : Host.Outcome State Fault Refusal := .next (hostRead .data s)

/-- R128: a = CONFIG. -/
def execRdConfig (_d : Byte) (s : State) : Host.Outcome State Fault Refusal := .next (hostRead .config s)

/-- R128: a = TEMP_L. -/
def execRdTempL (_d : Byte) (s : State) : Host.Outcome State Fault Refusal := .next (hostRead .tempL s)

/-- R128: a = TEMP_H. -/
def execRdTempH (_d : Byte) (s : State) : Host.Outcome State Fault Refusal := .next (hostRead .tempH s)

/-- R128: a = CDLY_L. -/
def execRdCdlyL (_d : Byte) (s : State) : Host.Outcome State Fault Refusal := .next (hostRead .cdlyL s)

/-- R128: a = CDLY_H. -/
def execRdCdlyH (_d : Byte) (s : State) : Host.Outcome State Fault Refusal := .next (hostRead .cdlyH s)

end Sys2Proof.Machine
end

