-- ==== Sys2Proof/Machine/RegisterWrites.lean ====
section
/-! DEFINITION. Writes to the registers other than CTRL (45_host_control.md R125 to R127). -/

namespace Sys2Proof.Machine

/-- R125: DATA, refused while busy. -/
def execWrData (d : Byte) (s : State) : Host.Outcome State Fault Refusal :=
  .next (refusedWhileBusy (fun t => { t with data := d }) s)

/-- R126: CONFIG, refused while busy; only bit 0 is written. -/
def execWrConfig (d : Byte) (s : State) : Host.Outcome State Fault Refusal :=
  .next (refusedWhileBusy (fun t => { t with parasite := parasiteOf d }) s)

/-- R127: STATUS is read-only: no effect, busy or not, and no error. -/
def execWrStatus (_d : Byte) (s : State) : Host.Outcome State Fault Refusal := .next s

/-- R127: TEMP_L is read-only: no effect, busy or not, and no error. -/
def execWrTempL (_d : Byte) (s : State) : Host.Outcome State Fault Refusal := .next s

/-- R127: TEMP_H is read-only: no effect, busy or not, and no error. -/
def execWrTempH (_d : Byte) (s : State) : Host.Outcome State Fault Refusal := .next s

/-- R127: CDLY_L is read-only: no effect, busy or not, and no error. -/
def execWrCdlyL (_d : Byte) (s : State) : Host.Outcome State Fault Refusal := .next s

/-- R127: CDLY_H is read-only: no effect, busy or not, and no error. -/
def execWrCdlyH (_d : Byte) (s : State) : Host.Outcome State Fault Refusal := .next s

end Sys2Proof.Machine
end

