-- ==== Sys2Proof/Machine/Transport.lean ====
section
/-! DEFINITION. The CTRL writes that start a transport operation (41_transport.md R91 to R94) or the presence check
(42_reset_presence.md R99): acceptance now (45_host_control.md R120), the procedure tick by tick after it
(`procedure`, `play`), the results at completion (`operationResults`). -/

namespace Sys2Proof.Machine

/-- R99. -/
def execReset (_ign : BitVec 4) (s : State) : Host.Outcome State Fault Refusal :=
  .next (startOperation .reset s)

/-- R91. -/
def execWriteBit (_ign : BitVec 4) (s : State) : Host.Outcome State Fault Refusal :=
  .next (startOperation .writeBit s)

/-- R92. -/
def execReadBit (_ign : BitVec 4) (s : State) : Host.Outcome State Fault Refusal :=
  .next (startOperation .readBit s)

/-- R93. -/
def execWriteByte (_ign : BitVec 4) (s : State) : Host.Outcome State Fault Refusal :=
  .next (startOperation .writeByte s)

/-- R94. -/
def execReadByte (_ign : BitVec 4) (s : State) : Host.Outcome State Fault Refusal :=
  .next (startOperation .readByte s)

end Sys2Proof.Machine
end

