-- ==== Sys2Proof/Machine/Dispatch.lean ====
section
/-! DEFINITION. One arm per instruction. -/

namespace Sys2Proof.Machine

def exec (i : Instr) (s : State) : Host.Outcome State Fault Refusal :=
  match i with
  | .nop ign => Sys2Proof.Machine.execNop ign s
  | .init ign => Sys2Proof.Machine.execInit ign s
  | .reset ign => Sys2Proof.Machine.execReset ign s
  | .writeBit ign => Sys2Proof.Machine.execWriteBit ign s
  | .readBit ign => Sys2Proof.Machine.execReadBit ign s
  | .writeByte ign => Sys2Proof.Machine.execWriteByte ign s
  | .readByte ign => Sys2Proof.Machine.execReadByte ign s
  | .startConv ign => Sys2Proof.Machine.execStartConv ign s
  | .readTemp ign => Sys2Proof.Machine.execReadTemp ign s
  | .reservedOp9 ign => Sys2Proof.Machine.execReservedOp9 ign s
  | .reservedOpAB ign lo => Sys2Proof.Machine.execReservedOpAB ign lo s
  | .reservedOpCF ign lo => Sys2Proof.Machine.execReservedOpCF ign lo s
  | .wrData d => Sys2Proof.Machine.execWrData d s
  | .wrConfig d => Sys2Proof.Machine.execWrConfig d s
  | .wrStatus d => Sys2Proof.Machine.execWrStatus d s
  | .wrTempL d => Sys2Proof.Machine.execWrTempL d s
  | .wrTempH d => Sys2Proof.Machine.execWrTempH d s
  | .wrCdlyL d => Sys2Proof.Machine.execWrCdlyL d s
  | .wrCdlyH d => Sys2Proof.Machine.execWrCdlyH d s
  | .rdCtrl d => Sys2Proof.Machine.execRdCtrl d s
  | .rdStatus d => Sys2Proof.Machine.execRdStatus d s
  | .rdData d => Sys2Proof.Machine.execRdData d s
  | .rdConfig d => Sys2Proof.Machine.execRdConfig d s
  | .rdTempL d => Sys2Proof.Machine.execRdTempL d s
  | .rdTempH d => Sys2Proof.Machine.execRdTempH d s
  | .rdCdlyL d => Sys2Proof.Machine.execRdCdlyL d s
  | .rdCdlyH d => Sys2Proof.Machine.execRdCdlyH d s
  | .skipRom => Sys2Proof.Machine.execSkipRom s
  | .convertT => Sys2Proof.Machine.execConvertT s
  | .readScratchpad => Sys2Proof.Machine.execReadScratchpad s

end Sys2Proof.Machine
end

