-- ==== Sys2Proof/Machine/Crc.lean ====
section
/-! DEFINITION. The CRC-8 table engine (40_crc.md): pure, total, no state (R78). -/

namespace Sys2Proof.Machine

/-- R79: entry i of the table. -/
def crcEntry (table : Vector Byte 256) (i : Byte) : Byte := table[i.toNat]'i.isLt

/-- R80: the loop, from an accumulator. -/
def crcFrom (table : Vector Byte 256) (acc : Byte) : List Byte → Byte
  | [] => acc
  | b :: bs => crcFrom table (crcEntry table (acc ^^^ b)) bs

/-- R80: CRC8 of a byte sequence; the accumulator starts at 0. -/
def crc8 (table : Vector Byte 256) (bs : List Byte) : Byte := crcFrom table 0 bs

/-- R81: one bit of the bitwise form: mix, shift, and the constant 0x8C. -/
def crcBitStep (acc : Byte) (dataBit : Bool) : Byte :=
  if acc.getLsbD 0 != dataBit then (acc >>> 1) ^^^ 0x8C else acc >>> 1

/-- R81: one byte of the bitwise form, LSB first. -/
def crcByteBitwise (acc b : Byte) : Byte :=
  (List.range 8).foldl (fun a k => crcBitStep a (b.getLsbD k)) acc

/-- R81: the bitwise form on a byte sequence, from the accumulator 0. -/
def crc8Bitwise (bs : List Byte) : Byte := bs.foldl crcByteBitwise 0

end Sys2Proof.Machine
end

