-- ==== Sys2Proof/Machine/ScratchpadDecoder.lean ====
section
/-! DEFINITION. The scratchpad decoder (44_scratchpad_decoder.md), a function of the nine bytes. -/

namespace Sys2Proof.Machine

/-- The sensor's resolutions in bits (R113). -/
inductive Resolution where
  | bits9 | bits10 | bits11 | bits12
  deriving DecidableEq, Repr

/-- R112: the resolution field, SP[4][6:5], bit 6 high. -/
def resolutionField (sp : Vector Byte 9) : BitVec 2 := sp[4].extractLsb' 5 2

/-- R113: every field value maps to a resolution. -/
def resolutionOf (rf : BitVec 2) : Resolution :=
  match rf.toNat with
  | 0 => .bits9
  | 1 => .bits10
  | 2 => .bits11
  | _ => .bits12

/-- R114: the mask of each resolution. -/
def resolutionMask : Resolution → Half
  | .bits9 => 0xFFF8
  | .bits10 => 0xFFFC
  | .bits11 => 0xFFFE
  | .bits12 => 0xFFFF

/-- R111: the raw register, {SP[1], SP[0]}. -/
def rawTemperature (sp : Vector Byte 9) : Half := halfOf sp[0] sp[1]

/-- SP[0..7], the bytes the check byte covers (R110). -/
def crcPayload (sp : Vector Byte 9) : List Byte := sp.toList.take 8

/-- R110: CRC8(SP[0..7]) = SP[8]. -/
def crcMatches (table : Vector Byte 256) (sp : Vector Byte 9) : Bool :=
  crc8 table (crcPayload sp) == sp[8]

/-- R109: Decode; none is FAIL. -/
def decodeScratchpad (table : Vector Byte 256) (sp : Vector Byte 9) : Option Half :=
  if crcMatches table sp then
    some (rawTemperature sp &&& resolutionMask (resolutionOf (resolutionField sp)))
  else none

/-- 00_scope.md R9: the two's-complement reading of a u16. TEMP's temperature is `sint16 TEMP` sixteenths of a degree
Celsius (R116). -/
def sint16 (v : Half) : Int := if v.toNat < 32768 then v.toNat else (v.toNat : Int) - 65536

end Sys2Proof.Machine
end

