-- ==== Sys2Proof/Machine/Sequencer.lean ====
section
/-! DEFINITION. What a tick event does to an operation in progress: pins, samples, completion (20_memory.md R55,
10_state.md R37, R39). -/

namespace Sys2Proof.Machine

/-! Results at completion, one definition per operation. -/

/-- 45_host_control.md R122: INIT clears PRESENT. -/
def finishInit (s : State) : State := { s with present := false }

/-- 42_reset_presence.md R99: RESET reports presence. -/
def finishReset (s : State) : State := setPresentFromSample s

/-- 41_transport.md R92: READ_BIT. -/
def finishReadBit (s : State) : State := { s with data := zextBit s.smp }

/-- R94: READ_BYTE. -/
def finishReadByte (s : State) : State := { s with data := s.sr }

/-- 43_command_sequencer.md R103: START_CONV; absent if the preface's sample was 1 (R102). -/
def finishStartConv (s : State) : State :=
  if s.pres then raise .deviceAbsent (setPresentFromSample s) else setPresentFromSample s

/-- R106, 44_scratchpad_decoder.md R117: READ_TEMP with the device present. -/
def finishScratchpad (s : State) : State :=
  match decodeScratchpad s.cfg.crcTable s.sp with
  | some t => { s with temp := t }
  | none => raise .integrityFailure s

/-- R106: READ_TEMP; absent if the preface's sample was 1 (R102). -/
def finishReadTemp (s : State) : State :=
  if s.pres then raise .deviceAbsent (setPresentFromSample s)
  else finishScratchpad (setPresentFromSample s)

/-- The results of the operation in progress. -/
def operationResults (s : State) : State :=
  match s.cur with
  | none => s
  | some .init => finishInit s
  | some .reset => finishReset s
  | some .writeBit => s
  | some .readBit => finishReadBit s
  | some .writeByte => s
  | some .readByte => finishReadByte s
  | some .startConv => finishStartConv s
  | some .readTemp => finishReadTemp s

/-- 10_state.md R39: completion: all results together, DONE, BUSY. -/
def complete (s : State) : State := endOperation (operationResults s)

/-! The position. -/

/-- R97: PRES <- p. -/
def storePres (s : State) : State := { s with pres := s.smp }

/-- R90: SR[k] <- the slot's bit. -/
def storeSr (k : Nat) (s : State) : State := { s with sr := setBit s.sr k s.smp }

/-- R106: SP[i] <- the byte. -/
def storeSp (i : Nat) (s : State) : State := { s with sp := s.sp.setIfInBounds i s.sr }

/-- After the last tick of a primitive: the position moves over the bookkeeping that takes no time and shows nowhere, to
the next primitive that acts. What acts (pins, samples, completion) waits for its own tick. R102: after the preface an
absent device leaves nothing to do but complete. -/
def settle : List Prim → State → State
  | .storePres :: rest, s => settle rest (storePres s)
  | .storeSr k :: rest, s => settle rest (storeSr k s)
  | .storeSp i :: rest, s => settle rest (storeSp i s)
  | .failIfAbsent :: rest, s => if s.pres then setPosition [] 0 s else settle rest s
  | .drive _ 0 :: rest, s => settle rest s
  | rest, s => setPosition rest 0 s

/-- 00_scope.md R13: one tick of `Drive(d, n)`. -/
def driveTick (d : Drive) (n : Nat) (rest : List Prim) (s : State) : State :=
  if s.elapsed + 1 < n then setPosition (.drive d n :: rest) (s.elapsed + 1) (setDrive d s)
  else settle rest (setDrive d s)

/-- R13: `Sample()` at the tick that is happening. -/
def takeSample (s : State) : State := { s with smp := s.line s.tick }

/-- One tick event of an operation in progress, from a position: what takes no time, then one tick of a `Drive`, or
completion if the procedure has ended (10_state.md R39). -/
def play : List Prim → State → State
  | [], s => complete s
  | .drive _ 0 :: rest, s => play rest s
  | .drive d (n + 1) :: rest, s => driveTick d (n + 1) rest s
  | .hold d :: rest, s => play rest (setDrive d s)
  | .holdIfParasite :: rest, s => play rest (if s.parasite then setDrive .high s else s)
  | .sample :: rest, s => play rest (takeSample s)
  | .storePres :: rest, s => play rest (storePres s)
  | .storeSr k :: rest, s => play rest (storeSr k s)
  | .storeSp i :: rest, s => play rest (storeSp i s)
  | .failIfAbsent :: rest, s => if s.pres then complete s else play rest s
  | .send c :: rest, s => setPosition (.send c :: rest) 0 s

/-- 20_memory.md R55: a tick event; the next one has the next number. An idle block does nothing at it. -/
def tickEvent (s : State) : State :=
  setTick (s.tick + 1) (if s.busy then play s.seq s else s)

/-- 10_state.md R36: one clock cycle; the last of CLKS_PER_US makes a tick event, which comes next. -/
def clockEdge (s : State) : State :=
  if s.divPhase + 1 < s.cfg.clksPerUs then { s with divPhase := s.divPhase + 1 }
  else setAgenda (.tick :: s.agenda) { s with divPhase := 0 }

end Sys2Proof.Machine
end

