-- ==== Sys2Proof/Machine/Fetch.lean ====
section
/-! DEFINITION. Which agent moves next: the word a step runs, if any, and otherwise the event it takes. -/

namespace Sys2Proof.Machine

/-- 70_reset_and_hazards.md R147: while `rst` is held, host writes have no effect. -/
def ignoredByReset (s : State) (w : HostWord) : Bool := s.rst && HostWord.isWrite w

/-- The word fetched next, with the state after its fetch: the pending host transaction (20_memory.md R54); else, when a
tick is next and the procedure has reached a command byte, that byte, whose slots that tick begins (10_state.md R37; log 11). -/
def fetch (s : State) : Option (Code × State) :=
  match s.agenda with
  | .txn w :: rest => if ignoredByReset s w then none else some (.host w, setAgenda rest s)
  | .clk :: _ => none
  | .reset :: _ => none
  | .rstHold :: _ => none
  | .rstRelease :: _ => none
  | .tick :: _ | [] =>
    match s.seq with
    | .send c :: rest => some (.wire c.byte, setPosition rest s.elapsed s)
    | _ => none

/-- Why a parameter set is not admitted. -/
def parameterRefusal (c : Config) : Refusal := if c.legal then .widthNotCovered else .illegalParameters

/-- The next event where no word is fetched. R147: the hardware reset, atomic or held. -/
def nextEvent (s : State) : State :=
  match s.agenda with
  | [] => tickEvent s
  | .tick :: rest => tickEvent (setAgenda rest s)
  | .clk :: rest => clockEdge (setAgenda rest s)
  | .txn _ :: rest => setAgenda rest s
  | .reset :: rest => hardReset { s with agenda := rest, rst := false }
  | .rstHold :: rest => hardReset { s with agenda := rest, rst := true }
  | .rstRelease :: rest => { s with agenda := rest, rst := false }

/-- The command a byte stands for, and an operation that sends it (R103, R106). -/
def commandOfByte (b : Byte) : Option (WireCmd × Op) :=
  match b.toNat with
  | 0xCC => some (.skipRom, .startConv)
  | 0x44 => some (.convertT, .startConv)
  | 0xBE => some (.readScratchpad, .readTemp)
  | _ => none

/-- A state whose next step runs a host word: the word is the next transaction. `rst` is released. -/
def withHostWord (s : State) (w : HostWord) : State :=
  { s with agenda := .txn w :: s.agenda, rst := false }

/-- A state whose next step runs a command byte: the byte stands at the sequencer's position, an operation that sends it
is in progress, and a tick is next. Unchanged for a byte that is no command. -/
def withCommandByte (s : State) (b : Byte) : State :=
  match commandOfByte b with
  | some (c, op) =>
    { s with
      agenda := .tick :: s.agenda
      cur := some (s.cur.getD op)
      seq := .send c :: s.seq
      elapsed := 0 }
  | none => s

/-- A state whose next step runs the word these bytes hold; unchanged if they hold none. -/
def withFetchBytes (s : State) (bs : List Byte) : State :=
  match Code.ofBytes bs with
  | .ok (.host w) => withHostWord s w
  | .ok (.wire b) => withCommandByte s b
  | .error _ => s

end Sys2Proof.Machine
end

