-- ==== Sys2Proof/Machine/Step.lean ====
section
/-! DEFINITION. One step: a fetched word is decoded and run; otherwise the next event happens. -/

namespace Sys2Proof.Machine

/-- Runs what was fetched, or takes the next event. -/
def stepAdmitted (s : State) : Host.Outcome State Fault Refusal :=
  match fetch s with
  | some (c, s') =>
    match decode c with
    | .ok i => exec i s'
    | .error _ => .refused .undecodable
  | none => .next (nextEvent s)

/-- One step of the machine. 00_scope.md R7: an illegal parameter set is refused (log 8); so is one with a width that no
rule covers (log 9). -/
def step (s : State) : Host.Outcome State Fault Refusal :=
  if s.cfg.admitted then stepAdmitted s else .refused (parameterRefusal s.cfg)

/-- `s` with the word of `nbits` bits, numbered as spec/opcode_table.json numbers it, where `step` fetches next (log 6). -/
def State.withFetchWord (s : State) (nbits w : Nat) : State :=
  match tableBytes nbits w with
  | some bs => withFetchBytes s bs
  | none => s

end Sys2Proof.Machine
end

