-- ==== Sys2Proof/Machine/Assembler.lean ====
section
/-! DEFINITION. The host-side notation of 30_encoding.md R75, R76: program lines, the words they assemble to, the events
they give the block, and the expansions of the pseudo-instructions. Labels, `BNZ` and `STOP` are the host's own control
flow, which is not part of the block (R75): they give it no event. -/

namespace Sys2Proof.Machine

/-- R75: one line of a host program. -/
inductive HostLine where
  /-- `WR <reg>, <imm8>`. -/
  | wr (r : Reg) (v : Byte)
  /-- `RD <reg>`. -/
  | rd (r : Reg)
  /-- An operation mnemonic, the alias of `WR CTRL, <OP>`. -/
  | op (code : BitVec 4)
  /-- `DELAY <n>`: n ticks pass with no transaction. -/
  | delay (n : Nat)
  /-- `BNZ <value>, <mask>, <label>`: the host branches if the register last read has a masked bit set. -/
  | bnz (r : Reg) (mask : Byte) (target : String)
  /-- `name:`. -/
  | label (name : String)
  /-- `STOP`. -/
  | stop
  deriving DecidableEq, Repr

/-- R75: the word of a line that is a transaction. -/
def assemble : HostLine → Option HostWord
  | .wr r v => some (hostWord 1 r v)
  | .rd r => some (hostWord 0 r 0)
  | .op code => some (ctrlWord 0 code)
  | .delay _ => none
  | .bnz _ _ _ => none
  | .label _ => none
  | .stop => none

/-- What a line does to the block. -/
def lineEvents : HostLine → List Event
  | .delay n => List.replicate n .tick
  | l => (assemble l).toList.map .txn

/-- R76: the pseudo-instructions. -/
inductive Pseudo where
  | waitIdle
  | send (b : Byte)
  | sendBit (v : Byte)
  | recv
  | recvBit
  /-- `RD16 <L>`, L the lower register of a pair. -/
  | rd16 (r : Reg)
  deriving DecidableEq, Repr

/-- R76: `WAIT_IDLE`, the polling loop. -/
def waitIdleLines : List HostLine := [.label "l", .rd .status, .bnz .status 0x01 "l"]

/-- The register at the next offset, for `RD16`. -/
def nextReg (r : Reg) : Reg := Reg.ofOffset (r.offset + 1)

/-- R76: the expansions. -/
def expand : Pseudo → List HostLine
  | .waitIdle => waitIdleLines
  | .send b => [.wr .data b, .op 0x5] ++ waitIdleLines
  | .sendBit v => [.wr .data v, .op 0x3] ++ waitIdleLines
  | .recv => [.op 0x6] ++ waitIdleLines ++ [.rd .data]
  | .recvBit => [.op 0x4] ++ waitIdleLines ++ [.rd .data]
  | .rd16 r => [.rd r, .rd (nextReg r)]

end Sys2Proof.Machine
end

