-- ==== Sys2Proof/Safety.lean ====
section
/-! DEFINITION. The terms claims use: runs, the invariant of the machine, the waveforms and times of the procedures. -/

namespace Sys2Proof.Machine

/-! Runs. -/

/-- `n` steps, stopping at the first that has no next state. -/
def steps : Nat → State → Host.Outcome State Fault Refusal
  | 0, s => .next s
  | n + 1, s =>
    match step s with
    | .next t => steps n t
    | .fault r => .fault r
    | .refused r => .refused r

/-- The next event is a hardware reset, atomic or held (70_reset_and_hazards.md R147). -/
def resetNext (s : State) : Bool :=
  match s.agenda with
  | .reset :: _ => true
  | .rstHold :: _ => true
  | _ => false

/-- A tick event comes next: nothing is pending, or a tick is (20_memory.md R55). -/
def tickNext (s : State) : Bool :=
  match s.agenda with
  | [] => true
  | .tick :: _ => true
  | _ => false

/-- Idle, undisturbed, with admitted parameters: where an operation is accepted and then runs alone. -/
structure Ready (s : State) : Prop where
  admitted : s.cfg.admitted = true
  idle : s.cur = none
  released : s.rst = false
  quiet : s.agenda = []

/-- The state right after a hardware reset with other parameters and any inputs of the outside world still to come. -/
def State.resetWith (cfg : Config) (levels : List (Nat × Bool)) (agenda : List Event) : State :=
  { State.reset with cfg := cfg, levels := levels, agenda := agenda }

/-! Times (70_reset_and_hazards.md R163). -/

/-- S: ticks of a bit slot with its recovery (41_transport.md R95). -/
def Config.slot (c : Config) : Nat := c.tSlot + c.tRec

/-- Ticks of a byte (R95). -/
def Config.byteTime (c : Config) : Nat := 8 * Config.slot c

/-- Ticks of ResetPresence (42_reset_presence.md R100). -/
def Config.presenceTime (c : Config) : Nat := c.tRstl + c.tRsth

/-- Operation time of the presence sample (R97). -/
def Config.presenceSampleTime (c : Config) : Nat := c.tRstl + c.tPds

/-- Slot time of a read slot's sample (41_transport.md R88). -/
def Config.readSampleTime (c : Config) : Nat := c.tLowr + c.tRds

/-! Waveforms: the drive state at a tick of a procedure. -/

/-- Ticks a write slot is LOW (R86, R87). -/
def slotLow (c : Config) (v : Bool) : Nat := if v then c.tLow1 else c.tSlot

/-- ByteWrite(v) at byte time t: slot t / S carries bit t / S (R89). -/
def byteWave (c : Config) (v : Byte) (t : Nat) : Drive :=
  if t % Config.slot c < slotLow c (v.getLsbD (t / Config.slot c)) then .low else .rel

/-- Read slots, one after another, at time t (R88). -/
def readWave (c : Config) (t : Nat) : Drive := if t % Config.slot c < c.tLowr then .low else .rel

/-- ResetPresence at operation time t (42_reset_presence.md R97). -/
def presenceWave (c : Config) (t : Nat) : Drive := if t < c.tRstl then .low else .rel

/-- A reset and two command bytes, the second `cmd`, at operation time t (43_command_sequencer.md R102, R103, R106). -/
def commandWave (c : Config) (cmd : Byte) (t : Nat) : Drive :=
  if t < Config.presenceTime c then presenceWave c t
  else if t < Config.presenceTime c + Config.byteTime c then byteWave c 0xCC (t - Config.presenceTime c)
  else byteWave c cmd (t - Config.presenceTime c - Config.byteTime c)

/-- Operation time at which the two command bytes have been sent (R103, R106). -/
def Config.commandTime (c : Config) : Nat := Config.presenceTime c + 2 * Config.byteTime c

/-- READ_TEMP with the device present, at operation time t (R106). -/
def readTempWave (c : Config) (t : Nat) : Drive :=
  if t < Config.commandTime c then commandWave c 0xBE t else readWave c (t - Config.commandTime c)

/-- The byte with the given bits, bit 0 to bit 7. -/
def byteOfBits (f : Nat → Bool) : Byte :=
  bit (f 7) ++ bit (f 6) ++ bit (f 5) ++ bit (f 4) ++ bit (f 3) ++ bit (f 2) ++ bit (f 1) ++ bit (f 0)

/-- The line's level at the sample of the k-th read slot from tick t on (R88). -/
def slotOnLine (s : State) (t k : Nat) : Bool :=
  s.line (t + k * Config.slot s.cfg + Config.readSampleTime s.cfg)

/-- The byte on the line in the eight read slots from tick t on, the first slot's bit lowest (R90). -/
def byteOnLine (s : State) (t : Nat) : Byte := byteOfBits (slotOnLine s t)

/-- The nine bytes on the line in the read slots from tick t on (R106). -/
def scratchpadOnLine (s : State) (t : Nat) : Vector Byte 9 :=
  Vector.ofFn fun i : Fin 9 => byteOnLine s (t + i.val * Config.byteTime s.cfg)

/-! What an operation leaves alone and what its acceptance and completion always do. -/

/-- From an idle `s`, an operation has been accepted, has run with no other event, and is at a tick with it in progress:
`n` ticks have passed and no result shows (10_state.md R39, 45_host_control.md R128). -/
structure InProgress (s t : State) (n : Nat) : Prop where
  tick : t.tick = s.tick + n
  busy : t.busy = true
  done : t.done = false
  errAbsent : t.errAbsent = false
  errCrc : t.errCrc = false
  cmdErr : t.cmdErr = false
  present : t.present = s.present
  data : t.data = s.data
  temp : t.temp = s.temp

/-- The operation accepted in the idle state `s` completed at the last tick, `n` ticks having passed, with no host write
on the way: what holds then whatever the operation (10_state.md R39, R42). -/
structure Completed (s t : State) (n : Nat) : Prop where
  tick : t.tick = s.tick + n
  idle : t.cur = none
  done : t.done = true
  cmdErr : t.cmdErr = false
  parasite : t.parasite = s.parasite
  cfg : t.cfg = s.cfg
  /-- The environment as a list of answers that nothing changes: the model's choice (log 7). -/
  levels : t.levels = s.levels
  rdata : t.rdata = s.rdata
  /-- The divider restarted at acceptance (60_exceptions.md R143), and no clock cycle has come since. That its phase is then
  0 is the model's reading (log 4). -/
  divPhase : t.divPhase = 0
  quiet : t.agenda = []
  released : t.rst = false

/-! The invariant. -/

/-- 00_scope.md R13: after a sample the line stays released. -/
def staysReleased : List Prim → Bool
  | .drive _ 0 :: rest => staysReleased rest
  | .drive d (_ + 1) :: _ => d == .rel
  | _ => false

/-- Playing a position from a drive state: samples only while the line is released on both sides of the tick (R13), a
`Hold` only at the end and never LOW, and no end, early or not, with the line LOW (60_exceptions.md R145). -/
def lineDiscipline : Drive → List Prim → Bool
  | d, [] => d != .low
  | d, .drive _ 0 :: rest => lineDiscipline d rest
  | _, .drive d (_ + 1) :: rest => lineDiscipline d rest
  | _, .hold d :: rest => rest.isEmpty && d != .low
  | d, .holdIfParasite :: rest => rest.isEmpty && d != .low
  | d, .sample :: rest => d == .rel && staysReleased rest && lineDiscipline d rest
  | d, .failIfAbsent :: rest => d != .low && lineDiscipline d rest
  | _, .send _ :: rest => lineDiscipline .rel rest
  | d, .storePres :: rest => lineDiscipline d rest
  | d, .storeSr _ :: rest => lineDiscipline d rest
  | d, .storeSp _ :: rest => lineDiscipline d rest

/-- Which primitives may stand in the position of which operation: HIGH only by START_CONV's strong pull-up
(43_command_sequencer.md R104), and each command byte only in the sequence that sends it (R107). -/
def ownPrimitive (cur : Option Op) : Prim → Bool
  | .drive d _ => d != .high
  | .hold d => d == .rel
  | .holdIfParasite => cur == some .startConv
  | .send .skipRom => cur == some .startConv || cur == some .readTemp
  | .send .convertT => cur == some .startConv
  | .send .readScratchpad => cur == some .readTemp
  | .sample => true
  | .storePres => true
  | .storeSr _ => true
  | .storeSp _ => true
  | .failIfAbsent => true

/-- R37: the position stands at a primitive that acts, nothing before it being left to do (log 11). -/
def settled : List Prim → Bool
  | .drive _ 0 :: _ => false
  | .storePres :: _ => false
  | .storeSr _ :: _ => false
  | .storeSp _ :: _ => false
  | .failIfAbsent :: _ => false
  | _ => true

/-- R37: the ticks elapsed belong to the primitive at the head of the position. -/
def elapsedFits : List Prim → Nat → Bool
  | .drive _ n :: _, e => e == 0 || decide (e < n)
  | _, e => e == 0

/-- The invariant of the machine. -/
structure Inv (s : State) : Prop where
  /-- 10_state.md R37: an idle block has no position. -/
  idlePosition : s.cur = none → s.seq = [] ∧ s.elapsed = 0
  /-- R37. -/
  settled : Machine.settled s.seq = true
  /-- R37. -/
  elapsed : elapsedFits s.seq s.elapsed = true
  /-- 00_scope.md R13, 60_exceptions.md R145. -/
  line : lineDiscipline s.drive s.seq = true
  /-- 43_command_sequencer.md R104, R107. -/
  own : s.seq.all (ownPrimitive s.cur) = true
  /-- 10_state.md R28: DONE is 0 from acceptance to completion. -/
  doneIdle : s.done = true → s.cur = none
  /-- 60_exceptions.md R131: what ERR_ABSENT goes with. -/
  absent : s.errAbsent = true → s.done = true ∧ s.present = false
  /-- R132: what ERR_CRC goes with. -/
  badCrc : s.errCrc = true → s.done = true ∧ s.present = true
  /-- 70_reset_and_hazards.md R147: while `rst` is held every register has its reset value. -/
  heldReset : s.rst = true →
    s.cur = none ∧ s.status = 0 ∧ s.data = 0 ∧ s.parasite = false ∧ s.temp = 0 ∧ s.drive = .rel

end Sys2Proof.Machine
end

