-- ==== Sys2Proof/Certificates/Slice0/Obligations.lean ====
section
/-! DEFINITION. The statements for the provers. Each says which rule of spec/ it formalises. -/

open Sys2Proof Sys2Proof.Machine

/-! ## Encoding -/

/-- The round trip: every instruction, with every value of every operand, is what its own word decodes to. -/
def Obligations.DecodeOfEncodeIsIdentity : Prop :=
  ∀ i : Instr, decode (encode i) = .ok i

/-- The other direction: a word that decodes is the word of what it decodes to, so no bit of a word is dropped. -/
def Obligations.EncodeOfDecodeIsIdentity : Prop :=
  ∀ (c : Code) (i : Instr), decode c = .ok i → encode i = c

/-- 30_encoding.md R62: every one of the 4096 host words is an instruction, and it runs in every state. -/
def Obligations.EveryHostWordDecodesAndRuns : Prop :=
  ∀ w : HostWord, ∃ i, decode (.host w) = .ok i ∧ ∀ s, ∃ t, exec i s = .next t

/-- Words written out from 30_encoding.md R61, R64 and R70, bit by bit, decode to what they stand for. -/
def Obligations.WordsOfTheSpecDecode : Prop :=
  decode (.host 0b100000000111#12) = .ok (.startConv 0)
  ∧ decode (.host 0b100000001000#12) = .ok (.readTemp 0)
  ∧ decode (.host 0b100011110000#12) = .ok (.nop 0xF)
  ∧ decode (.host 0b100000001101#12) = .ok (.reservedOpCF 0 1)
  ∧ decode (.host 0b101011001100#12) = .ok (.wrData 0xCC)
  ∧ decode (.host 0b101100000001#12) = .ok (.wrConfig 0x01)
  ∧ decode (.host 0b110000010010#12) = .ok (.wrTempL 0x12)
  ∧ decode (.host 0b000100000000#12) = .ok (.rdStatus 0)
  ∧ decode (.host 0b011100000000#12) = .ok (.rdCdlyH 0)
  ∧ decode (.wire 0b11001100#8) = .ok .skipRom
  ∧ decode (.wire 0b01000100#8) = .ok .convertT
  ∧ decode (.wire 0b10111110#8) = .ok .readScratchpad

/-- 30_encoding.md R70, 43_command_sequencer.md R107: exactly three bytes are commands. -/
def Obligations.ExactlyThreeBytesAreCommands : Prop :=
  ∀ b : Byte, (∃ i, decode (.wire b) = .ok i) ↔ b = 0xCC ∨ b = 0x44 ∨ b = 0xBE

/-- 30_encoding.md R66: CTRL bits 7:4 do not matter; CONFIG bits 7:1 and STATUS bit 7 read 0 in every state. -/
def Obligations.ReservedBitsAreIgnoredAndReadZero : Prop :=
  (∀ (v : Byte) (s : State) (i j : Instr),
    decode (.host (hostWord 1 .ctrl v)) = .ok i →
    decode (.host (hostWord 1 .ctrl (v &&& 0x0F))) = .ok j →
    exec i s = exec j s)
  ∧ ∀ (s : State) (d : Byte),
      (∃ t, exec (.rdConfig d) s = .next t ∧ t.rdata &&& 0xFE = 0)
      ∧ ∃ t, exec (.rdStatus d) s = .next t ∧ t.rdata.getLsbD 7 = false

/-! ## One step -/

/-- A step runs the host transaction that is pending: it decodes the word and executes it, having taken it off the queue
(20_memory.md R54, R57; the queue is the model's form, log 6). While `rst` is held only reads run (70_reset_and_hazards.md R147). -/
def Obligations.StepRunsThePendingHostWord : Prop :=
  ∀ (s : State) (w : HostWord) (rest : List Event) (i : Instr),
    s.cfg.admitted = true → s.agenda = .txn w :: rest → (s.rst = false ∨ w.getLsbD 11 = false) →
    decode (.host w) = .ok i →
    step s = exec i { s with agenda := rest }

/-- A step runs the command byte the sequencer has reached, when a tick is next, before that tick; nothing of the outside
world's queue is used up (the model's choice, log 11). -/
def Obligations.StepRunsTheCommandByteReached : Prop :=
  ∀ (s : State) (c : WireCmd) (rest : List Prim) (i : Instr),
    s.cfg.admitted = true → tickNext s = true → s.seq = .send c :: rest →
    decode (.wire c.byte) = .ok i →
    step s = exec i { s with seq := rest }

/-- `withFetchWord` places a word where the next step runs it, for both formats. The placement is the model's own choice
(log 6): a host word at the head of the queue with `rst` released, a command byte at the sequencer's position with a tick
next and, in an idle block, an operation that sends the byte in progress; so is the two-byte form of a host word (log 10). -/
def Obligations.WithFetchWordIsRunNext : Prop :=
  (∀ (s : State) (w : HostWord) (i : Instr), s.cfg.admitted = true → decode (.host w) = .ok i →
    decodeTableWord 16 w.toNat = some i
    ∧ step (s.withFetchWord 16 w.toNat) = exec i { s with rst := false })
  ∧ ∀ (s : State) (b : Byte) (i : Instr), s.cfg.admitted = true → decode (.wire b) = .ok i →
    decodeTableWord 8 b.toNat = some i
    ∧ step (s.withFetchWord 8 b.toNat)
        = exec i
          { s with
            agenda := .tick :: s.agenda
            cur := some (s.cur.getD (if b = 0xBE then .readTemp else .startConv))
            elapsed := 0 }

/-- The block never stops (93_implementation_defined.md; 60_exceptions.md R140): with admitted parameters every run of any
length, from any state, goes on. -/
def Obligations.LegalBlockNeverStops : Prop :=
  ∀ (s : State) (n : Nat), s.cfg.admitted = true → ∃ t, steps n s = .next t

/-- 00_scope.md R7: an illegal parameter set is refused by name, which R7 lets a model do (the model's choice, log 8); a
legal one with a width that no rule covers is refused by a name of its own (the model's, log 9). -/
def Obligations.IllegalParametersAreRefused : Prop :=
  ∀ s : State,
    (s.cfg.legal = false → step s = .refused .illegalParameters)
    ∧ (s.cfg.legal = true → s.cfg.widthsCovered = false → step s = .refused .widthNotCovered)

/-- 10_state.md R42: an idle block does nothing at a tick but let it pass, whether the tick is the pending event or the one
that comes when nothing is pending. That a tick comes then, and the number that ticks advance, are the model's choices
(log 6, log 5). -/
def Obligations.IdleTickChangesNothing : Prop :=
  ∀ s : State, s.cfg.admitted = true → s.cur = none → s.seq = [] →
    (s.agenda = [] → step s = .next { s with tick := s.tick + 1 })
    ∧ ∀ rest, s.agenda = .tick :: rest → step s = .next { s with tick := s.tick + 1, agenda := rest }

/-- 10_state.md R36: CLKS_PER_US clock cycles make one tick event. That it falls with the last of them, and comes before
anything else that is pending, are the model's choices (log 4). -/
def Obligations.DividerMakesOneTick : Prop :=
  ∀ (s : State) (rest : List Event),
    s.cfg.admitted = true → 1 ≤ s.cfg.clksPerUs → s.divPhase = 0 →
    s.agenda = List.replicate s.cfg.clksPerUs .clk ++ rest →
    steps s.cfg.clksPerUs s = .next { s with divPhase := 0, agenda := .tick :: rest }

/-! ## Host transactions -/

/-- 45_host_control.md R120: what every CTRL write does, in every state. An accepted write puts the operation's
procedure at the sequencer's position, from its first primitive; the timebase restarts (60_exceptions.md R143); that
its phase is then 0 is the model's reading (log 4). -/
def Obligations.CtrlWriteFollowsTheAcceptanceProcedure : Prop :=
  ∀ (s : State) (v : Byte) (i : Instr), decode (.host (hostWord 1 .ctrl v)) = .ok i →
    (s.busy = true → exec i s = .next { s with cmdErr := true })
    ∧ (s.busy = false → v.extractLsb' 0 4 = 0 → exec i s = .next s)
    ∧ (s.busy = false → v.extractLsb' 0 4 ≠ 0 → (v.extractLsb' 0 4).toNat ≤ 8 →
        ∃ op : Op,
          [Op.init, .reset, .writeBit, .readBit, .writeByte, .readByte, .startConv, .readTemp][
            (v.extractLsb' 0 4).toNat - 1]? = some op
          ∧ exec i s = .next
              { s with
                errAbsent := false, errCrc := false, cmdErr := false, done := false
                cur := some op, seq := procedure op s, elapsed := 0, divPhase := 0 })
    ∧ (s.busy = false → 8 < (v.extractLsb' 0 4).toNat → exec i s = .next { s with cmdErr := true })

/-- Each operation starts when the block is idle: the next state is the accepted one, all else unchanged
(45_host_control.md R120, 30_encoding.md R67; the timebase restarts, 60_exceptions.md R143; that its phase is then 0 is the model's
reading, log 4). -/
def Obligations.OperationsAreAcceptedWhenIdle : Prop :=
  ∀ (s : State) (ign : BitVec 4), s.cur = none →
    exec (.init ign) s = .next (accept .init s)
    ∧ exec (.reset ign) s = .next (accept .reset s)
    ∧ exec (.writeBit ign) s = .next (accept .writeBit s)
    ∧ exec (.readBit ign) s = .next (accept .readBit s)
    ∧ exec (.writeByte ign) s = .next (accept .writeByte s)
    ∧ exec (.readByte ign) s = .next (accept .readByte s)
    ∧ exec (.startConv ign) s = .next (accept .startConv s)
    ∧ exec (.readTemp ign) s = .next (accept .readTemp s)

/-- 45_host_control.md R121: NOP. -/
def Obligations.NopWhileIdleChangesNothing : Prop :=
  ∀ (s : State) (ign : BitVec 4),
    (s.busy = false → exec (.nop ign) s = .next s)
    ∧ (s.busy = true → exec (.nop ign) s = .next { s with cmdErr := true })

/-- 45_host_control.md R123: the reserved codes, idle. -/
def Obligations.ReservedCodesSetCommandError : Prop :=
  ∀ (s : State) (ign : BitVec 4) (b : BitVec 1) (c : BitVec 2), s.busy = false →
    exec (.reservedOp9 ign) s = .next { s with cmdErr := true }
    ∧ exec (.reservedOpAB ign b) s = .next { s with cmdErr := true }
    ∧ exec (.reservedOpCF ign c) s = .next { s with cmdErr := true }

/-- 45_host_control.md R124: a CTRL write while busy sets CMD_ERR, and the operation in progress continues as if the write
had not happened. While only time goes on, every later state is the one it would have been, but for CMD_ERR; whatever
comes, later acceptances and resets too, it is so but for CMD_ERR and what reads of STATUS returned. And while an operation
is in progress, up to its completion, all the host's transactions and clock cycles change nothing but CMD_ERR, h_rdata and
the divider's phase: the run without them leads to the same state. Both runs have the same environment, one line level a
tick (the model's choice, log 7). -/
def Obligations.RefusedCtrlWriteLeavesTheOperationAlone : Prop :=
  ∀ (s : State) (v : Byte) (i : Instr), s.busy = true →
    decode (.host (hostWord 1 .ctrl v)) = .ok i →
    exec i s = .next { s with cmdErr := true }
    ∧ (∀ (n : Nat) (t : State), (∀ e ∈ s.agenda, e = .tick ∨ e = .clk) → steps n s = .next t →
        steps n { s with cmdErr := true } = .next { t with cmdErr := true })
    ∧ (∀ (n : Nat) (t : State), steps n s = .next t →
        ∃ c r, (t.cmdErr = true → c = true)
          ∧ steps n { s with cmdErr := true } = .next { t with cmdErr := c, rdata := r })
    ∧ ∀ (n : Nat) (t : State), (∀ e ∈ s.agenda, e = .tick ∨ e = .clk ∨ ∃ w, e = .txn w) →
        (∀ k < n, ∀ u, steps k s = .next u → u.busy = true) → steps n s = .next t →
        ∃ m, steps m { s with agenda := [] } = .next
          { t with agenda := [], cmdErr := s.cmdErr, rdata := s.rdata, divPhase := s.divPhase }

/-- 45_host_control.md R125: DATA. -/
def Obligations.DataWriteIsTakenOnlyWhenIdle : Prop :=
  ∀ (s : State) (d : Byte),
    (s.busy = false → exec (.wrData d) s = .next { s with data := d })
    ∧ (s.busy = true → exec (.wrData d) s = .next { s with cmdErr := true })

/-- 45_host_control.md R126: CONFIG; the line and STATUS.SPU stay. -/
def Obligations.ConfigWriteTakesBitZeroOnlyWhenIdle : Prop :=
  ∀ (s : State) (d : Byte),
    (s.busy = false → exec (.wrConfig d) s = .next { s with parasite := d.getLsbD 0 })
    ∧ (s.busy = true → exec (.wrConfig d) s = .next { s with cmdErr := true })

/-- 45_host_control.md R127: writes to read-only registers. -/
def Obligations.ReadOnlyWritesHaveNoEffect : Prop :=
  ∀ (s : State) (d : Byte),
    exec (.wrStatus d) s = .next s ∧ exec (.wrTempL d) s = .next s ∧ exec (.wrTempH d) s = .next s
    ∧ exec (.wrCdlyL d) s = .next s ∧ exec (.wrCdlyH d) s = .next s

/-- 45_host_control.md R128: what each register returns, in every state, busy or not; h_rdata is all that changes. CDLY
with this hardware's CONV_DELAY_MS (00_scope.md R6). -/
def Obligations.RegisterReadsReturnTheirValues : Prop :=
  ∀ (s : State) (d : Byte), s.cfg.convDelayMs = 1000 →
    exec (.rdCtrl d) s = .next { s with rdata := 0x00 }
    ∧ (∃ v : Byte, exec (.rdStatus d) s = .next { s with rdata := v }
        ∧ v.getLsbD 0 = s.cur.isSome ∧ v.getLsbD 1 = s.present ∧ v.getLsbD 2 = s.errAbsent
        ∧ v.getLsbD 3 = s.errCrc ∧ v.getLsbD 4 = s.cmdErr ∧ v.getLsbD 5 = (s.drive == .high)
        ∧ v.getLsbD 6 = s.done ∧ v.getLsbD 7 = false)
    ∧ exec (.rdData d) s = .next { s with rdata := s.data }
    ∧ exec (.rdConfig d) s = .next { s with rdata := if s.parasite then 0x01 else 0x00 }
    ∧ exec (.rdTempL d) s = .next { s with rdata := s.temp.setWidth 8 }
    ∧ exec (.rdTempH d) s = .next { s with rdata := (s.temp >>> 8).setWidth 8 }
    ∧ exec (.rdCdlyL d) s = .next { s with rdata := 0xE8 }
    ∧ exec (.rdCdlyH d) s = .next { s with rdata := 0x03 }

/-- 20_memory.md R51: a read has no side effect (h_rdata is its answer), and a second one of the same register with nothing
between, whatever its D field, returns the same value. -/
def Obligations.ReadsAreIdempotent : Prop :=
  ∀ (s : State) (r : Reg) (d e : Byte) (i j : Instr),
    decode (.host (hostWord 0 r d)) = .ok i → decode (.host (hostWord 0 r e)) = .ok j →
    ∃ t, exec i s = .next t ∧ t = { s with rdata := t.rdata } ∧ exec j t = .next t

/-- 10_state.md R27, R34: STATUS.SPU and the pins follow the drive state. -/
def Obligations.PinsAndSpuFollowTheDriveState : Prop :=
  ∀ s : State,
    (s.drive = .rel → s.dqOe = false ∧ s.dqO = false ∧ s.status.getLsbD 5 = false)
    ∧ (s.drive = .low → s.dqOe = true ∧ s.dqO = false ∧ s.status.getLsbD 5 = false)
    ∧ (s.drive = .high → s.dqOe = true ∧ s.dqO = true ∧ s.status.getLsbD 5 = true)

/-- 30_encoding.md R70, 41_transport.md R89: a command byte puts its eight write slots at the sequencer's position, bits
in the order R70 lists them; nothing else changes. -/
def Obligations.CommandBytesGoOutInTheListedBitOrder : Prop :=
  ∀ s : State,
    exec .skipRom s = .next
      { s with
        seq := [false, false, true, true, false, false, true, true].flatMap (slotWrite s.cfg) ++ s.seq
        elapsed := 0 }
    ∧ exec .convertT s = .next
      { s with
        seq := [false, false, true, false, false, false, true, false].flatMap (slotWrite s.cfg) ++ s.seq
        elapsed := 0 }
    ∧ exec .readScratchpad s = .next
      { s with
        seq := [false, true, true, true, true, true, false, true].flatMap (slotWrite s.cfg) ++ s.seq
        elapsed := 0 }

/-- 30_encoding.md R75: `WR` and `RD` of every register and the line of every operation code assemble to the words that
decode to their instructions, and an operation's line is the word of `WR CTRL` with its code, which covers `WR CTRL`. -/
def Obligations.AssemblerLinesDecodeToTheirInstructions : Prop :=
  (∀ d : Byte,
    (assemble (.wr .status d)).map decodeHost = some (.wrStatus d)
    ∧ (assemble (.wr .data d)).map decodeHost = some (.wrData d)
    ∧ (assemble (.wr .config d)).map decodeHost = some (.wrConfig d)
    ∧ (assemble (.wr .tempL d)).map decodeHost = some (.wrTempL d)
    ∧ (assemble (.wr .tempH d)).map decodeHost = some (.wrTempH d)
    ∧ (assemble (.wr .cdlyL d)).map decodeHost = some (.wrCdlyL d)
    ∧ (assemble (.wr .cdlyH d)).map decodeHost = some (.wrCdlyH d))
  ∧ (assemble (.rd .ctrl)).map decodeHost = some (.rdCtrl 0)
  ∧ (assemble (.rd .status)).map decodeHost = some (.rdStatus 0)
  ∧ (assemble (.rd .data)).map decodeHost = some (.rdData 0)
  ∧ (assemble (.rd .config)).map decodeHost = some (.rdConfig 0)
  ∧ (assemble (.rd .tempL)).map decodeHost = some (.rdTempL 0)
  ∧ (assemble (.rd .tempH)).map decodeHost = some (.rdTempH 0)
  ∧ (assemble (.rd .cdlyL)).map decodeHost = some (.rdCdlyL 0)
  ∧ (assemble (.rd .cdlyH)).map decodeHost = some (.rdCdlyH 0)
  ∧ (assemble (.op 0x0)).map decodeHost = some (.nop 0)
  ∧ (assemble (.op 0x1)).map decodeHost = some (.init 0)
  ∧ (assemble (.op 0x2)).map decodeHost = some (.reset 0)
  ∧ (assemble (.op 0x3)).map decodeHost = some (.writeBit 0)
  ∧ (assemble (.op 0x4)).map decodeHost = some (.readBit 0)
  ∧ (assemble (.op 0x5)).map decodeHost = some (.writeByte 0)
  ∧ (assemble (.op 0x6)).map decodeHost = some (.readByte 0)
  ∧ (assemble (.op 0x7)).map decodeHost = some (.startConv 0)
  ∧ (assemble (.op 0x8)).map decodeHost = some (.readTemp 0)
  ∧ (assemble (.op 0x9)).map decodeHost = some (.reservedOp9 0)
  ∧ (assemble (.op 0xA)).map decodeHost = some (.reservedOpAB 0 0)
  ∧ (assemble (.op 0xB)).map decodeHost = some (.reservedOpAB 0 1)
  ∧ (assemble (.op 0xC)).map decodeHost = some (.reservedOpCF 0 0)
  ∧ (assemble (.op 0xD)).map decodeHost = some (.reservedOpCF 0 1)
  ∧ (assemble (.op 0xE)).map decodeHost = some (.reservedOpCF 0 2)
  ∧ (assemble (.op 0xF)).map decodeHost = some (.reservedOpCF 0 3)
  ∧ ∀ op : BitVec 4, assemble (.op op) = assemble (.wr .ctrl (op.setWidth 8))

/-! ## Whole operations

`Ready s`: idle, no event pending, `rst` released, admitted parameters. `a` is the state right after acceptance. Time t of the
operation is tick `s.tick + t`, after which `t + 1` ticks have passed (10_state.md R39). Time goes on one tick a step, since
a tick comes next when nothing is pending (the model's default, log 6); a command byte takes a step and no tick (log 11). -/

/-- 41_transport.md R91 with R86 and R87: WRITE_BIT's pins at every tick, its length and its end.
The divider's phase 0 at completion is the model's reading of 60_exceptions.md R143 (log 4); ticks come by default (log 6). -/
def Obligations.WriteBitSendsDataBitZero : Prop :=
  ∀ (s : State) (ign : BitVec 4), Ready s →
    ∃ a, exec (.writeBit ign) s = .next a
      ∧ (∀ t < s.cfg.tSlot + s.cfg.tRec, ∃ m, steps (t + 1) a = .next m ∧ InProgress s m (t + 1)
          ∧ m.drive = if t < (if s.data.getLsbD 0 then s.cfg.tLow1 else s.cfg.tSlot) then .low else .rel)
      ∧ ∃ m, steps (s.cfg.tSlot + s.cfg.tRec + 1) a = .next m
          ∧ Completed s m (s.cfg.tSlot + s.cfg.tRec + 1)
          ∧ m.drive = .rel ∧ m.data = s.data ∧ m.temp = s.temp ∧ m.present = s.present
          ∧ m.errAbsent = false ∧ m.errCrc = false

/-- 41_transport.md R92 with R88: READ_BIT's pins, its one sample and its result.
The divider's phase 0 at completion is the model's reading of 60_exceptions.md R143 (log 4); ticks come by default (log 6). -/
def Obligations.ReadBitReturnsTheSampledLevel : Prop :=
  ∀ (s : State) (ign : BitVec 4), Ready s →
    ∃ a, exec (.readBit ign) s = .next a
      ∧ (∀ t < s.cfg.tSlot + s.cfg.tRec, ∃ m, steps (t + 1) a = .next m ∧ InProgress s m (t + 1)
          ∧ m.drive = if t < s.cfg.tLowr then .low else .rel)
      ∧ ∃ m, steps (s.cfg.tSlot + s.cfg.tRec + 1) a = .next m
          ∧ Completed s m (s.cfg.tSlot + s.cfg.tRec + 1)
          ∧ m.data = (if s.line (s.tick + s.cfg.tLowr + s.cfg.tRds) then 0x01 else 0x00)
          ∧ m.drive = .rel ∧ m.temp = s.temp ∧ m.present = s.present
          ∧ m.errAbsent = false ∧ m.errCrc = false

/-- 41_transport.md R93 with R89: WRITE_BYTE's pins at every tick: slot k carries bit k of DATA.
The divider's phase 0 at completion is the model's reading of 60_exceptions.md R143 (log 4); ticks come by default (log 6). -/
def Obligations.WriteByteSendsDataLsbFirst : Prop :=
  ∀ (s : State) (ign : BitVec 4), Ready s →
    ∃ a, exec (.writeByte ign) s = .next a
      ∧ (∀ t < Config.byteTime s.cfg, ∃ m, steps (t + 1) a = .next m ∧ InProgress s m (t + 1)
          ∧ m.drive = byteWave s.cfg s.data t)
      ∧ ∃ m, steps (Config.byteTime s.cfg + 1) a = .next m
          ∧ Completed s m (Config.byteTime s.cfg + 1)
          ∧ m.drive = .rel ∧ m.data = s.data ∧ m.temp = s.temp ∧ m.present = s.present
          ∧ m.errAbsent = false ∧ m.errCrc = false

/-- 41_transport.md R94 with R90: READ_BYTE's pins, and DATA bit k is the line at the sample of slot k.
The divider's phase 0 at completion is the model's reading of 60_exceptions.md R143 (log 4); ticks come by default (log 6). -/
def Obligations.ReadByteAssemblesTheSamplesLsbFirst : Prop :=
  ∀ (s : State) (ign : BitVec 4), Ready s →
    ∃ a, exec (.readByte ign) s = .next a
      ∧ (∀ t < Config.byteTime s.cfg, ∃ m, steps (t + 1) a = .next m ∧ InProgress s m (t + 1)
          ∧ m.drive = readWave s.cfg t)
      ∧ ∃ m, steps (Config.byteTime s.cfg + 1) a = .next m
          ∧ Completed s m (Config.byteTime s.cfg + 1)
          ∧ (∀ k < 8, m.data.getLsbD k
              = s.line (s.tick + k * (s.cfg.tSlot + s.cfg.tRec) + s.cfg.tLowr + s.cfg.tRds))
          ∧ m.drive = .rel ∧ m.temp = s.temp ∧ m.present = s.present
          ∧ m.errAbsent = false ∧ m.errCrc = false

/-- 42_reset_presence.md R99 with R97 and R98: RESET's pins, its one sample, and PRESENT; absence is no error.
The divider's phase 0 at completion is the model's reading of 60_exceptions.md R143 (log 4); ticks come by default (log 6). -/
def Obligations.ResetReportsTheSinglePresenceSample : Prop :=
  ∀ (s : State) (ign : BitVec 4), Ready s →
    ∃ a, exec (.reset ign) s = .next a
      ∧ (∀ t < s.cfg.tRstl + s.cfg.tRsth, ∃ m, steps (t + 1) a = .next m ∧ InProgress s m (t + 1)
          ∧ m.drive = if t < s.cfg.tRstl then .low else .rel)
      ∧ ∃ m, steps (s.cfg.tRstl + s.cfg.tRsth + 1) a = .next m
          ∧ Completed s m (s.cfg.tRstl + s.cfg.tRsth + 1)
          ∧ m.present = !s.line (s.tick + s.cfg.tRstl + s.cfg.tPds)
          ∧ m.errAbsent = false ∧ m.errCrc = false
          ∧ m.drive = .rel ∧ m.data = s.data ∧ m.temp = s.temp

/-- 45_host_control.md R122: INIT completes at the first tick: the line released, STATUS = 0x40, the rest kept. While an
operation is in progress it is refused.
The divider's phase 0 at completion is the model's reading of 60_exceptions.md R143 (log 4); ticks come by default (log 6). -/
def Obligations.InitReleasesTheLineAtTheNextTick : Prop :=
  ∀ (s : State) (ign : BitVec 4),
    (Ready s → ∃ a m, exec (.init ign) s = .next a ∧ a.drive = s.drive ∧ a.present = s.present
      ∧ steps 1 a = .next m ∧ Completed s m 1
      ∧ m.drive = .rel ∧ m.present = false ∧ m.status = 0x40 ∧ m.data = s.data ∧ m.temp = s.temp)
    ∧ (s.busy = true → exec (.init ign) s = .next { s with cmdErr := true })

/-- 43_command_sequencer.md R102, R103, 60_exceptions.md R131: START_CONV with no device: the reset only, then
ERR_ABSENT; no strong pull-up.
The divider's phase 0 at completion is the model's reading of 60_exceptions.md R143 (log 4); ticks come by default (log 6). -/
def Obligations.StartConvWithoutDeviceFailsAfterTheReset : Prop :=
  ∀ (s : State) (ign : BitVec 4), Ready s →
    s.line (s.tick + Config.presenceSampleTime s.cfg) = true →
    ∃ a, exec (.startConv ign) s = .next a
      ∧ (∀ t < Config.presenceTime s.cfg, ∃ m, steps (t + 1) a = .next m ∧ InProgress s m (t + 1)
          ∧ m.drive = presenceWave s.cfg t)
      ∧ ∃ m, steps (Config.presenceTime s.cfg + 1) a = .next m
          ∧ Completed s m (Config.presenceTime s.cfg + 1)
          ∧ m.errAbsent = true ∧ m.present = false ∧ m.errCrc = false
          ∧ m.drive = .rel ∧ m.data = s.data ∧ m.temp = s.temp

/-- 43_command_sequencer.md R103 with R102 and R104: START_CONV with a device: reset, 0xCC, 0x44 on the pins at every
tick, then HIGH from completion exactly in parasite mode.
The divider's phase 0 at completion is the model's reading of 60_exceptions.md R143 (log 4); ticks come by default (log 6). -/
def Obligations.StartConvSendsSkipRomAndConvertT : Prop :=
  ∀ (s : State) (ign : BitVec 4), Ready s →
    s.line (s.tick + Config.presenceSampleTime s.cfg) = false →
    ∃ a, exec (.startConv ign) s = .next a
      ∧ (∀ t < Config.commandTime s.cfg, ∃ k m, steps k a = .next m ∧ InProgress s m (t + 1)
          ∧ m.drive = commandWave s.cfg 0x44 t)
      ∧ ∃ k m, steps k a = .next m
          ∧ Completed s m (Config.commandTime s.cfg + 1)
          ∧ m.drive = (if s.parasite then .high else .rel)
          ∧ m.present = true ∧ m.errAbsent = false ∧ m.errCrc = false
          ∧ m.data = s.data ∧ m.temp = s.temp

/-- 43_command_sequencer.md R102, R106, 60_exceptions.md R131: READ_TEMP with no device.
The divider's phase 0 at completion is the model's reading of 60_exceptions.md R143 (log 4); ticks come by default (log 6). -/
def Obligations.ReadTempWithoutDeviceFailsAfterTheReset : Prop :=
  ∀ (s : State) (ign : BitVec 4), Ready s →
    s.line (s.tick + Config.presenceSampleTime s.cfg) = true →
    ∃ a, exec (.readTemp ign) s = .next a
      ∧ (∀ t < Config.presenceTime s.cfg, ∃ m, steps (t + 1) a = .next m ∧ InProgress s m (t + 1)
          ∧ m.drive = presenceWave s.cfg t)
      ∧ ∃ m, steps (Config.presenceTime s.cfg + 1) a = .next m
          ∧ Completed s m (Config.presenceTime s.cfg + 1)
          ∧ m.errAbsent = true ∧ m.present = false ∧ m.errCrc = false
          ∧ m.drive = .rel ∧ m.data = s.data ∧ m.temp = s.temp

/-- 43_command_sequencer.md R106, 44_scratchpad_decoder.md R117, 60_exceptions.md R132: READ_TEMP with a device: the pins
at every tick, and TEMP or ERR_CRC from the nine bytes that stood on the line.
The divider's phase 0 at completion is the model's reading of 60_exceptions.md R143 (log 4); ticks come by default (log 6). -/
def Obligations.ReadTempDecodesTheBytesOnTheLine : Prop :=
  ∀ (s : State) (ign : BitVec 4), Ready s →
    s.line (s.tick + Config.presenceSampleTime s.cfg) = false →
    ∃ a, exec (.readTemp ign) s = .next a
      ∧ (∀ t < Config.commandTime s.cfg + 9 * Config.byteTime s.cfg, ∃ k m, steps k a = .next m
          ∧ InProgress s m (t + 1) ∧ m.drive = readTempWave s.cfg t)
      ∧ ∃ k m, steps k a = .next m
          ∧ Completed s m (Config.commandTime s.cfg + 9 * Config.byteTime s.cfg + 1)
          ∧ m.drive = .rel ∧ m.present = true ∧ m.errAbsent = false ∧ m.data = s.data
          ∧ (match decodeScratchpad s.cfg.crcTable
                (scratchpadOnLine s (s.tick + Config.commandTime s.cfg)) with
              | some temp => m.temp = temp ∧ m.errCrc = false
              | none => m.temp = s.temp ∧ m.errCrc = true)

/-! ## The whole machine -/

/-- The invariant holds right after a hardware reset, whatever the parameters and the inputs still to come. -/
def Obligations.ResetStateMeetsTheInvariant : Prop :=
  ∀ (cfg : Config) (levels : List (Nat × Bool)) (agenda : List Event),
    Inv (State.resetWith cfg levels agenda)

/-- Every step keeps the invariant. -/
def Obligations.EveryStepKeepsTheInvariant : Prop :=
  ∀ s t : State, Inv s → step s = .next t → Inv t

/-- 60_exceptions.md R135, R137: in every run from reset, whatever the host and the line do, ERR_ABSENT and ERR_CRC are
never both 1, and an error bit is 1 only with DONE. -/
def Obligations.NoRunShowsBothOperationErrors : Prop :=
  ∀ (cfg : Config) (levels : List (Nat × Bool)) (agenda : List Event) (n : Nat) (s : State),
    steps n (State.resetWith cfg levels agenda) = .next s →
    ¬(s.errAbsent = true ∧ s.errCrc = true) ∧ (s.errAbsent = true ∨ s.errCrc = true → s.done = true)

/-- 10_state.md R27, 43_command_sequencer.md R103, R104: the line starts to be driven HIGH only at the completion of a
START_CONV in parasite mode. -/
def Obligations.PullUpStartsOnlyWithStartConv : Prop :=
  ∀ s t : State, Inv s → step s = .next t → s.drive ≠ .high → t.drive = .high →
    s.cur = some .startConv ∧ s.parasite = true ∧ t.cur = none ∧ t.done = true

/-- 43_command_sequencer.md R104: once HIGH, the line stays HIGH until a tick of an operation in progress or a hardware
reset; no host transaction by itself ends it. -/
def Obligations.PullUpEndsOnlyAtATickOfAnOperationOrAReset : Prop :=
  ∀ s t : State, step s = .next t → s.drive = .high → t.drive ≠ .high →
    resetNext s = true ∨ (s.busy = true ∧ tickNext s = true)

/-- 00_scope.md R13: a sample is taken only while the line is released on both sides of the tick, and it is the level at
that tick. -/
def Obligations.SamplesAreTakenOnlyFromAReleasedLine : Prop :=
  ∀ s t : State, Inv s → step s = .next t → s.busy = true → t.busy = true → t.smp ≠ s.smp →
    s.drive = .rel ∧ t.drive = .rel ∧ t.smp = s.line s.tick ∧ tickNext s = true

/-- 10_state.md R39, 45_host_control.md R128: no result shows before completion. -/
def Obligations.NoResultShowsBeforeCompletion : Prop :=
  ∀ s t : State, step s = .next t → s.busy = true → t.busy = true →
    t.data = s.data ∧ t.temp = s.temp ∧ t.present = s.present ∧ t.errAbsent = s.errAbsent
    ∧ t.errCrc = s.errCrc ∧ t.done = s.done ∧ t.parasite = s.parasite

/-- 10_state.md R32: TEMP changes only at the completion of a READ_TEMP without error, to the value decoded from the
scratchpad the operation has read, which passed its CRC (44_scratchpad_decoder.md R117), or by a hardware reset. -/
def Obligations.TempChangesOnlyByASuccessfulReadTemp : Prop :=
  ∀ s t : State, Inv s → step s = .next t → t.temp ≠ s.temp →
    (resetNext s = true ∧ t.temp = 0)
    ∨ (s.cur = some .readTemp ∧ t.cur = none ∧ t.done = true ∧ t.errAbsent = false ∧ t.errCrc = false
        ∧ decodeScratchpad s.cfg.crcTable s.sp = some t.temp)

/-- 10_state.md R30, R42: what changes DATA. -/
def Obligations.DataChangesOnlyByItsWriteAReadOrReset : Prop :=
  ∀ s t : State, step s = .next t → t.data ≠ s.data →
    (resetNext s = true ∧ t.data = 0)
    ∨ (s.cur = none ∧ ∃ w rest, s.agenda = .txn w :: rest ∧ decode (.host w) = .ok (.wrData t.data))
    ∨ ((s.cur = some .readBit ∨ s.cur = some .readByte) ∧ t.cur = none ∧ t.done = true)

/-- 10_state.md R31, R42: what changes CONFIG.PARASITE. -/
def Obligations.ConfigChangesOnlyByItsWriteOrReset : Prop :=
  ∀ s t : State, step s = .next t → t.parasite ≠ s.parasite →
    (resetNext s = true ∧ t.parasite = false)
    ∨ (s.cur = none ∧ ∃ w rest d, s.agenda = .txn w :: rest ∧ decode (.host w) = .ok (.wrConfig d)
        ∧ t.parasite = d.getLsbD 0)

/-- 10_state.md R23: what changes STATUS.PRESENT. -/
def Obligations.PresentChangesOnlyAtCompletionOrReset : Prop :=
  ∀ s t : State, step s = .next t → t.present ≠ s.present →
    (resetNext s = true ∧ t.present = false)
    ∨ (t.cur = none ∧ t.done = true
        ∧ ((s.cur = some .init ∧ t.present = false) ∨ s.cur = some .reset ∨ s.cur = some .startConv
            ∨ s.cur = some .readTemp))

/-- 60_exceptions.md R138: ERR_ABSENT, ERR_CRC, CMD_ERR and DONE are cleared only by acceptance or a hardware reset. -/
def Obligations.ErrorBitsClearOnlyByAcceptanceOrReset : Prop :=
  ∀ s t : State, step s = .next t →
    (s.errAbsent = true ∧ t.errAbsent = false) ∨ (s.errCrc = true ∧ t.errCrc = false)
      ∨ (s.cmdErr = true ∧ t.cmdErr = false) ∨ (s.done = true ∧ t.done = false) →
    resetNext s = true ∨ (s.cur = none ∧ t.cur ≠ none)

/-- 60_exceptions.md R139, 20_memory.md R58: an operation in progress is never replaced: it goes on, or it ends with DONE,
or a hardware reset abandons it without DONE; and one starts only by a host transaction. -/
def Obligations.OneOperationAtATime : Prop :=
  ∀ s t : State, step s = .next t →
    (∀ op, s.cur = some op →
      t.cur = some op ∨ (t.cur = none ∧ t.done = true) ∨ (t.cur = none ∧ t.done = false ∧ resetNext s = true))
    ∧ (s.cur = none → t.cur ≠ none → ∃ w rest, s.agenda = .txn w :: rest ∧ w.getLsbD 11 = true)

/-- 10_state.md R33, 45_host_control.md R128: no run changes the parameters, so CDLY is a constant. That the environment is
a list of answers, which no run changes either, is the model's choice (log 7). -/
def Obligations.CdlyNeverChanges : Prop :=
  ∀ (s t u v : State) (n : Nat) (d : Byte), steps n s = .next t →
    t.cfg = s.cfg ∧ t.levels = s.levels
    ∧ (s.cfg.convDelayMs = 1000 → exec (.rdCdlyL d) t = .next u → exec (.rdCdlyH d) u = .next v →
        u.rdata = 0xE8 ∧ v.rdata = 0x03)

/-- 10_state.md R41: the values of the table, in the state right after reset. -/
def Obligations.ResetStateHasTheValuesOfTheTable : Prop :=
  State.reset.status = 0x00 ∧ State.reset.data = 0x00 ∧ State.reset.config = 0x00
  ∧ State.reset.temp = 0x0000 ∧ State.reset.cfg.convDelayMs = 0x03E8 ∧ State.reset.cur = none
  ∧ State.reset.drive = .rel ∧ State.reset.dqOe = false ∧ State.reset.dqO = false
  ∧ readReg .ctrl State.reset = 0x00

/-- 70_reset_and_hazards.md R147, 10_state.md R41: a hardware reset from any state, atomic or held: the table's values,
nothing completed, and the outside world as it was (R147), in the forms the model chose for it: the line's answers (log 7)
and the pending events (log 6). That h_rdata and the tick number stay is the model's choice (log 2, log 5). -/
def Obligations.HardwareResetLoadsTheTable : Prop :=
  ∀ (s : State) (rest : List Event) (held : Bool), s.cfg.admitted = true →
    s.agenda = (if held then .rstHold else .reset) :: rest →
    ∃ t, step s = .next t ∧ t.rst = held
      ∧ t.status = 0x00 ∧ t.data = 0x00 ∧ t.config = 0x00 ∧ t.temp = 0x0000 ∧ t.done = false
      ∧ t.cur = none ∧ t.seq = [] ∧ t.elapsed = 0 ∧ t.drive = .rel ∧ t.dqOe = false ∧ t.dqO = false
      ∧ t.cfg = s.cfg ∧ t.levels = s.levels ∧ t.tick = s.tick ∧ t.agenda = rest ∧ t.rdata = s.rdata

/-- 70_reset_and_hazards.md R147: while `rst` is held, host writes have no effect and host reads return the reset values. -/
def Obligations.HeldResetIgnoresWritesAndReadsResetValues : Prop :=
  ∀ (s : State) (w : HostWord) (rest : List Event), Inv s → s.cfg.admitted = true → s.rst = true →
    s.agenda = .txn w :: rest →
    (w.getLsbD 11 = true → step s = .next { s with agenda := rest })
    ∧ (w.getLsbD 11 = false → step s = .next
        { s with
          agenda := rest
          rdata := readReg (Reg.ofOffset (w.extractLsb' 8 3)) { State.reset with cfg := s.cfg } })

/-! ## CRC-8 and the scratchpad -/

/-- 40_crc.md R80, R82: the loop, for every table, from both ends: empty input gives 0, and a last byte is combined
through the table. -/
def Obligations.CrcFollowsTheTableLoop : Prop :=
  ∀ (table : Vector Byte 256) (bs : List Byte) (b : Byte),
    crc8 table [] = 0x00
    ∧ crc8 table (bs ++ [b]) = crcEntry table (crc8 table bs ^^^ b)

/-- 40_crc.md R81, R84: with the default table the table loop and the bitwise loop agree on every byte sequence. -/
def Obligations.DefaultTableAgreesWithTheBitwiseLoop : Prop :=
  ∀ bs : List Byte, crc8 defaultConfig.crcTable bs = crc8Bitwise bs

/-- 40_crc.md R83: the residue property with the default table, and what it means for a scratchpad. -/
def Obligations.CrcResidueIsZero : Prop :=
  (∀ bs : List Byte, crc8 defaultConfig.crcTable (bs ++ [crc8 defaultConfig.crcTable bs]) = 0x00)
  ∧ ∀ sp : Vector Byte 9,
      crc8 defaultConfig.crcTable (sp.toList.take 8) = sp[8] ↔ crc8 defaultConfig.crcTable sp.toList = 0x00

/-- 44_scratchpad_decoder.md R109 with R110 to R114: Decode, the mask spelled out by SP[4] bits 6 and 5. -/
def Obligations.DecodeChecksTheCrcThenMasks : Prop :=
  ∀ (table : Vector Byte 256) (sp : Vector Byte 9),
    (crc8 table [sp[0], sp[1], sp[2], sp[3], sp[4], sp[5], sp[6], sp[7]] ≠ sp[8] →
      decodeScratchpad table sp = none)
    ∧ (crc8 table [sp[0], sp[1], sp[2], sp[3], sp[4], sp[5], sp[6], sp[7]] = sp[8] →
      decodeScratchpad table sp = some ((sp[1] ++ sp[0] : Half) &&&
        (match sp[4].getLsbD 6, sp[4].getLsbD 5 with
          | false, false => 0xFFF8
          | false, true => 0xFFFC
          | true, false => 0xFFFE
          | true, true => 0xFFFF : Half)))

/-- 44_scratchpad_decoder.md R115: masking keeps the sign and moves the value toward minus infinity by less than half a
degree, to a multiple of the resolution's step. -/
def Obligations.MaskingKeepsTheSignAndRoundsDown : Prop :=
  ∀ (raw : Half) (r : Resolution),
    (sint16 (raw &&& resolutionMask r) < 0 ↔ sint16 raw < 0)
    ∧ sint16 (raw &&& resolutionMask r) ≤ sint16 raw
    ∧ sint16 raw < sint16 (raw &&& resolutionMask r) + 8
    ∧ sint16 (raw &&& resolutionMask r)
        % (match r with | .bits9 => 8 | .bits10 => 4 | .bits11 => 2 | .bits12 => 1) = 0

/-- 44_scratchpad_decoder.md R118: bytes 2, 3, 5, 6, 7 and SP[4] bits 7 and 4:0 matter to the CRC only. -/
def Obligations.UnusedScratchpadBitsMatterOnlyToTheCrc : Prop :=
  ∀ (table : Vector Byte 256) (sp sq : Vector Byte 9) (x y : Half),
    sp[0] = sq[0] → sp[1] = sq[1] → sp[4] &&& 0x60 = sq[4] &&& 0x60 →
    decodeScratchpad table sp = some x → decodeScratchpad table sq = some y → x = y

/-- 44_scratchpad_decoder.md R119: the corner patterns at each resolution, in sixteenths of a degree. -/
def Obligations.CornerPatternsHaveTheListedTemperatures : Prop :=
  (∀ r, sint16 (0x0000 &&& resolutionMask r) = 0 ∧ sint16 (0x8000 &&& resolutionMask r) = -2048 * 16)
  ∧ sint16 (0x7FFF &&& resolutionMask .bits12) = 32767
  ∧ sint16 (0x7FFF &&& resolutionMask .bits9) = 32760
  ∧ sint16 (0xFFFF &&& resolutionMask .bits12) = -1
  ∧ sint16 (0xFFFF &&& resolutionMask .bits11) = -2
  ∧ sint16 (0xFFFF &&& resolutionMask .bits10) = -4
  ∧ sint16 (0xFFFF &&& resolutionMask .bits9) = -8
end

