-- ==== Sys2Proof/Laws/State.lean ====
section
/-! SUPPORT. One lemma per field for each named update of State, so that no proof unfolds a record update. -/

namespace Sys2Proof.Machine

/-! `setDrive d s` -/

@[simp] theorem setDrive_cfg (d : Drive) (s : State) : (setDrive d s).cfg = s.cfg := rfl
@[simp] theorem setDrive_tick (d : Drive) (s : State) : (setDrive d s).tick = s.tick := rfl
@[simp] theorem setDrive_levels (d : Drive) (s : State) : (setDrive d s).levels = s.levels := rfl
@[simp] theorem setDrive_agenda (d : Drive) (s : State) : (setDrive d s).agenda = s.agenda := rfl
@[simp] theorem setDrive_rst (d : Drive) (s : State) : (setDrive d s).rst = s.rst := rfl
@[simp] theorem setDrive_divPhase (d : Drive) (s : State) : (setDrive d s).divPhase = s.divPhase := rfl
@[simp] theorem setDrive_rdata (d : Drive) (s : State) : (setDrive d s).rdata = s.rdata := rfl
@[simp] theorem setDrive_present (d : Drive) (s : State) : (setDrive d s).present = s.present := rfl
@[simp] theorem setDrive_errAbsent (d : Drive) (s : State) : (setDrive d s).errAbsent = s.errAbsent := rfl
@[simp] theorem setDrive_errCrc (d : Drive) (s : State) : (setDrive d s).errCrc = s.errCrc := rfl
@[simp] theorem setDrive_cmdErr (d : Drive) (s : State) : (setDrive d s).cmdErr = s.cmdErr := rfl
@[simp] theorem setDrive_done (d : Drive) (s : State) : (setDrive d s).done = s.done := rfl
@[simp] theorem setDrive_data (d : Drive) (s : State) : (setDrive d s).data = s.data := rfl
@[simp] theorem setDrive_parasite (d : Drive) (s : State) : (setDrive d s).parasite = s.parasite := rfl
@[simp] theorem setDrive_temp (d : Drive) (s : State) : (setDrive d s).temp = s.temp := rfl
@[simp] theorem setDrive_cur (d : Drive) (s : State) : (setDrive d s).cur = s.cur := rfl
@[simp] theorem setDrive_seq (d : Drive) (s : State) : (setDrive d s).seq = s.seq := rfl
@[simp] theorem setDrive_elapsed (d : Drive) (s : State) : (setDrive d s).elapsed = s.elapsed := rfl
@[simp] theorem setDrive_drive (d : Drive) (s : State) : (setDrive d s).drive = d := rfl
@[simp] theorem setDrive_smp (d : Drive) (s : State) : (setDrive d s).smp = s.smp := rfl
@[simp] theorem setDrive_pres (d : Drive) (s : State) : (setDrive d s).pres = s.pres := rfl
@[simp] theorem setDrive_sr (d : Drive) (s : State) : (setDrive d s).sr = s.sr := rfl
@[simp] theorem setDrive_sp (d : Drive) (s : State) : (setDrive d s).sp = s.sp := rfl
@[simp] theorem setDrive_draws (d : Drive) (s : State) : (setDrive d s).draws = s.draws := rfl

/-! `setPosition l e s` -/

@[simp] theorem setPosition_cfg (l : List Prim) (e : Nat) (s : State) : (setPosition l e s).cfg = s.cfg := rfl
@[simp] theorem setPosition_tick (l : List Prim) (e : Nat) (s : State) : (setPosition l e s).tick = s.tick := rfl
@[simp] theorem setPosition_levels (l : List Prim) (e : Nat) (s : State) : (setPosition l e s).levels = s.levels := rfl
@[simp] theorem setPosition_agenda (l : List Prim) (e : Nat) (s : State) : (setPosition l e s).agenda = s.agenda := rfl
@[simp] theorem setPosition_rst (l : List Prim) (e : Nat) (s : State) : (setPosition l e s).rst = s.rst := rfl
@[simp] theorem setPosition_divPhase (l : List Prim) (e : Nat) (s : State) : (setPosition l e s).divPhase = s.divPhase := rfl
@[simp] theorem setPosition_rdata (l : List Prim) (e : Nat) (s : State) : (setPosition l e s).rdata = s.rdata := rfl
@[simp] theorem setPosition_present (l : List Prim) (e : Nat) (s : State) : (setPosition l e s).present = s.present := rfl
@[simp] theorem setPosition_errAbsent (l : List Prim) (e : Nat) (s : State) : (setPosition l e s).errAbsent = s.errAbsent := rfl
@[simp] theorem setPosition_errCrc (l : List Prim) (e : Nat) (s : State) : (setPosition l e s).errCrc = s.errCrc := rfl
@[simp] theorem setPosition_cmdErr (l : List Prim) (e : Nat) (s : State) : (setPosition l e s).cmdErr = s.cmdErr := rfl
@[simp] theorem setPosition_done (l : List Prim) (e : Nat) (s : State) : (setPosition l e s).done = s.done := rfl
@[simp] theorem setPosition_data (l : List Prim) (e : Nat) (s : State) : (setPosition l e s).data = s.data := rfl
@[simp] theorem setPosition_parasite (l : List Prim) (e : Nat) (s : State) : (setPosition l e s).parasite = s.parasite := rfl
@[simp] theorem setPosition_temp (l : List Prim) (e : Nat) (s : State) : (setPosition l e s).temp = s.temp := rfl
@[simp] theorem setPosition_cur (l : List Prim) (e : Nat) (s : State) : (setPosition l e s).cur = s.cur := rfl
@[simp] theorem setPosition_seq (l : List Prim) (e : Nat) (s : State) : (setPosition l e s).seq = l := rfl
@[simp] theorem setPosition_elapsed (l : List Prim) (e : Nat) (s : State) : (setPosition l e s).elapsed = e := rfl
@[simp] theorem setPosition_drive (l : List Prim) (e : Nat) (s : State) : (setPosition l e s).drive = s.drive := rfl
@[simp] theorem setPosition_smp (l : List Prim) (e : Nat) (s : State) : (setPosition l e s).smp = s.smp := rfl
@[simp] theorem setPosition_pres (l : List Prim) (e : Nat) (s : State) : (setPosition l e s).pres = s.pres := rfl
@[simp] theorem setPosition_sr (l : List Prim) (e : Nat) (s : State) : (setPosition l e s).sr = s.sr := rfl
@[simp] theorem setPosition_sp (l : List Prim) (e : Nat) (s : State) : (setPosition l e s).sp = s.sp := rfl
@[simp] theorem setPosition_draws (l : List Prim) (e : Nat) (s : State) : (setPosition l e s).draws = s.draws := rfl

/-! `setTick n s` -/

@[simp] theorem setTick_cfg (n : Nat) (s : State) : (setTick n s).cfg = s.cfg := rfl
@[simp] theorem setTick_tick (n : Nat) (s : State) : (setTick n s).tick = n := rfl
@[simp] theorem setTick_levels (n : Nat) (s : State) : (setTick n s).levels = s.levels := rfl
@[simp] theorem setTick_agenda (n : Nat) (s : State) : (setTick n s).agenda = s.agenda := rfl
@[simp] theorem setTick_rst (n : Nat) (s : State) : (setTick n s).rst = s.rst := rfl
@[simp] theorem setTick_divPhase (n : Nat) (s : State) : (setTick n s).divPhase = s.divPhase := rfl
@[simp] theorem setTick_rdata (n : Nat) (s : State) : (setTick n s).rdata = s.rdata := rfl
@[simp] theorem setTick_present (n : Nat) (s : State) : (setTick n s).present = s.present := rfl
@[simp] theorem setTick_errAbsent (n : Nat) (s : State) : (setTick n s).errAbsent = s.errAbsent := rfl
@[simp] theorem setTick_errCrc (n : Nat) (s : State) : (setTick n s).errCrc = s.errCrc := rfl
@[simp] theorem setTick_cmdErr (n : Nat) (s : State) : (setTick n s).cmdErr = s.cmdErr := rfl
@[simp] theorem setTick_done (n : Nat) (s : State) : (setTick n s).done = s.done := rfl
@[simp] theorem setTick_data (n : Nat) (s : State) : (setTick n s).data = s.data := rfl
@[simp] theorem setTick_parasite (n : Nat) (s : State) : (setTick n s).parasite = s.parasite := rfl
@[simp] theorem setTick_temp (n : Nat) (s : State) : (setTick n s).temp = s.temp := rfl
@[simp] theorem setTick_cur (n : Nat) (s : State) : (setTick n s).cur = s.cur := rfl
@[simp] theorem setTick_seq (n : Nat) (s : State) : (setTick n s).seq = s.seq := rfl
@[simp] theorem setTick_elapsed (n : Nat) (s : State) : (setTick n s).elapsed = s.elapsed := rfl
@[simp] theorem setTick_drive (n : Nat) (s : State) : (setTick n s).drive = s.drive := rfl
@[simp] theorem setTick_smp (n : Nat) (s : State) : (setTick n s).smp = s.smp := rfl
@[simp] theorem setTick_pres (n : Nat) (s : State) : (setTick n s).pres = s.pres := rfl
@[simp] theorem setTick_sr (n : Nat) (s : State) : (setTick n s).sr = s.sr := rfl
@[simp] theorem setTick_sp (n : Nat) (s : State) : (setTick n s).sp = s.sp := rfl
@[simp] theorem setTick_draws (n : Nat) (s : State) : (setTick n s).draws = s.draws := rfl

/-! `restartTimebase s` -/

@[simp] theorem restartTimebase_cfg (s : State) : (restartTimebase s).cfg = s.cfg := rfl
@[simp] theorem restartTimebase_tick (s : State) : (restartTimebase s).tick = s.tick := rfl
@[simp] theorem restartTimebase_levels (s : State) : (restartTimebase s).levels = s.levels := rfl
@[simp] theorem restartTimebase_agenda (s : State) : (restartTimebase s).agenda = s.agenda := rfl
@[simp] theorem restartTimebase_rst (s : State) : (restartTimebase s).rst = s.rst := rfl
@[simp] theorem restartTimebase_divPhase (s : State) : (restartTimebase s).divPhase = 0 := rfl
@[simp] theorem restartTimebase_rdata (s : State) : (restartTimebase s).rdata = s.rdata := rfl
@[simp] theorem restartTimebase_present (s : State) : (restartTimebase s).present = s.present := rfl
@[simp] theorem restartTimebase_errAbsent (s : State) : (restartTimebase s).errAbsent = s.errAbsent := rfl
@[simp] theorem restartTimebase_errCrc (s : State) : (restartTimebase s).errCrc = s.errCrc := rfl
@[simp] theorem restartTimebase_cmdErr (s : State) : (restartTimebase s).cmdErr = s.cmdErr := rfl
@[simp] theorem restartTimebase_done (s : State) : (restartTimebase s).done = s.done := rfl
@[simp] theorem restartTimebase_data (s : State) : (restartTimebase s).data = s.data := rfl
@[simp] theorem restartTimebase_parasite (s : State) : (restartTimebase s).parasite = s.parasite := rfl
@[simp] theorem restartTimebase_temp (s : State) : (restartTimebase s).temp = s.temp := rfl
@[simp] theorem restartTimebase_cur (s : State) : (restartTimebase s).cur = s.cur := rfl
@[simp] theorem restartTimebase_seq (s : State) : (restartTimebase s).seq = s.seq := rfl
@[simp] theorem restartTimebase_elapsed (s : State) : (restartTimebase s).elapsed = s.elapsed := rfl
@[simp] theorem restartTimebase_drive (s : State) : (restartTimebase s).drive = s.drive := rfl
@[simp] theorem restartTimebase_smp (s : State) : (restartTimebase s).smp = s.smp := rfl
@[simp] theorem restartTimebase_pres (s : State) : (restartTimebase s).pres = s.pres := rfl
@[simp] theorem restartTimebase_sr (s : State) : (restartTimebase s).sr = s.sr := rfl
@[simp] theorem restartTimebase_sp (s : State) : (restartTimebase s).sp = s.sp := rfl
@[simp] theorem restartTimebase_draws (s : State) : (restartTimebase s).draws = s.draws := rfl

/-! `setAgenda l s` -/

@[simp] theorem setAgenda_cfg (l : List Event) (s : State) : (setAgenda l s).cfg = s.cfg := rfl
@[simp] theorem setAgenda_tick (l : List Event) (s : State) : (setAgenda l s).tick = s.tick := rfl
@[simp] theorem setAgenda_levels (l : List Event) (s : State) : (setAgenda l s).levels = s.levels := rfl
@[simp] theorem setAgenda_agenda (l : List Event) (s : State) : (setAgenda l s).agenda = l := rfl
@[simp] theorem setAgenda_rst (l : List Event) (s : State) : (setAgenda l s).rst = s.rst := rfl
@[simp] theorem setAgenda_divPhase (l : List Event) (s : State) : (setAgenda l s).divPhase = s.divPhase := rfl
@[simp] theorem setAgenda_rdata (l : List Event) (s : State) : (setAgenda l s).rdata = s.rdata := rfl
@[simp] theorem setAgenda_present (l : List Event) (s : State) : (setAgenda l s).present = s.present := rfl
@[simp] theorem setAgenda_errAbsent (l : List Event) (s : State) : (setAgenda l s).errAbsent = s.errAbsent := rfl
@[simp] theorem setAgenda_errCrc (l : List Event) (s : State) : (setAgenda l s).errCrc = s.errCrc := rfl
@[simp] theorem setAgenda_cmdErr (l : List Event) (s : State) : (setAgenda l s).cmdErr = s.cmdErr := rfl
@[simp] theorem setAgenda_done (l : List Event) (s : State) : (setAgenda l s).done = s.done := rfl
@[simp] theorem setAgenda_data (l : List Event) (s : State) : (setAgenda l s).data = s.data := rfl
@[simp] theorem setAgenda_parasite (l : List Event) (s : State) : (setAgenda l s).parasite = s.parasite := rfl
@[simp] theorem setAgenda_temp (l : List Event) (s : State) : (setAgenda l s).temp = s.temp := rfl
@[simp] theorem setAgenda_cur (l : List Event) (s : State) : (setAgenda l s).cur = s.cur := rfl
@[simp] theorem setAgenda_seq (l : List Event) (s : State) : (setAgenda l s).seq = s.seq := rfl
@[simp] theorem setAgenda_elapsed (l : List Event) (s : State) : (setAgenda l s).elapsed = s.elapsed := rfl
@[simp] theorem setAgenda_drive (l : List Event) (s : State) : (setAgenda l s).drive = s.drive := rfl
@[simp] theorem setAgenda_smp (l : List Event) (s : State) : (setAgenda l s).smp = s.smp := rfl
@[simp] theorem setAgenda_pres (l : List Event) (s : State) : (setAgenda l s).pres = s.pres := rfl
@[simp] theorem setAgenda_sr (l : List Event) (s : State) : (setAgenda l s).sr = s.sr := rfl
@[simp] theorem setAgenda_sp (l : List Event) (s : State) : (setAgenda l s).sp = s.sp := rfl
@[simp] theorem setAgenda_draws (l : List Event) (s : State) : (setAgenda l s).draws = s.draws := rfl

/-! `clearResults s` -/

@[simp] theorem clearResults_cfg (s : State) : (clearResults s).cfg = s.cfg := rfl
@[simp] theorem clearResults_tick (s : State) : (clearResults s).tick = s.tick := rfl
@[simp] theorem clearResults_levels (s : State) : (clearResults s).levels = s.levels := rfl
@[simp] theorem clearResults_agenda (s : State) : (clearResults s).agenda = s.agenda := rfl
@[simp] theorem clearResults_rst (s : State) : (clearResults s).rst = s.rst := rfl
@[simp] theorem clearResults_divPhase (s : State) : (clearResults s).divPhase = s.divPhase := rfl
@[simp] theorem clearResults_rdata (s : State) : (clearResults s).rdata = s.rdata := rfl
@[simp] theorem clearResults_present (s : State) : (clearResults s).present = s.present := rfl
@[simp] theorem clearResults_errAbsent (s : State) : (clearResults s).errAbsent = false := rfl
@[simp] theorem clearResults_errCrc (s : State) : (clearResults s).errCrc = false := rfl
@[simp] theorem clearResults_cmdErr (s : State) : (clearResults s).cmdErr = false := rfl
@[simp] theorem clearResults_done (s : State) : (clearResults s).done = false := rfl
@[simp] theorem clearResults_data (s : State) : (clearResults s).data = s.data := rfl
@[simp] theorem clearResults_parasite (s : State) : (clearResults s).parasite = s.parasite := rfl
@[simp] theorem clearResults_temp (s : State) : (clearResults s).temp = s.temp := rfl
@[simp] theorem clearResults_cur (s : State) : (clearResults s).cur = s.cur := rfl
@[simp] theorem clearResults_seq (s : State) : (clearResults s).seq = s.seq := rfl
@[simp] theorem clearResults_elapsed (s : State) : (clearResults s).elapsed = s.elapsed := rfl
@[simp] theorem clearResults_drive (s : State) : (clearResults s).drive = s.drive := rfl
@[simp] theorem clearResults_smp (s : State) : (clearResults s).smp = s.smp := rfl
@[simp] theorem clearResults_pres (s : State) : (clearResults s).pres = s.pres := rfl
@[simp] theorem clearResults_sr (s : State) : (clearResults s).sr = s.sr := rfl
@[simp] theorem clearResults_sp (s : State) : (clearResults s).sp = s.sp := rfl
@[simp] theorem clearResults_draws (s : State) : (clearResults s).draws = s.draws := rfl

/-! `setPresentFromSample s` -/

@[simp] theorem setPresentFromSample_cfg (s : State) : (setPresentFromSample s).cfg = s.cfg := rfl
@[simp] theorem setPresentFromSample_tick (s : State) : (setPresentFromSample s).tick = s.tick := rfl
@[simp] theorem setPresentFromSample_levels (s : State) : (setPresentFromSample s).levels = s.levels := rfl
@[simp] theorem setPresentFromSample_agenda (s : State) : (setPresentFromSample s).agenda = s.agenda := rfl
@[simp] theorem setPresentFromSample_rst (s : State) : (setPresentFromSample s).rst = s.rst := rfl
@[simp] theorem setPresentFromSample_divPhase (s : State) : (setPresentFromSample s).divPhase = s.divPhase := rfl
@[simp] theorem setPresentFromSample_rdata (s : State) : (setPresentFromSample s).rdata = s.rdata := rfl
@[simp] theorem setPresentFromSample_present (s : State) : (setPresentFromSample s).present = !s.pres := rfl
@[simp] theorem setPresentFromSample_errAbsent (s : State) : (setPresentFromSample s).errAbsent = s.errAbsent := rfl
@[simp] theorem setPresentFromSample_errCrc (s : State) : (setPresentFromSample s).errCrc = s.errCrc := rfl
@[simp] theorem setPresentFromSample_cmdErr (s : State) : (setPresentFromSample s).cmdErr = s.cmdErr := rfl
@[simp] theorem setPresentFromSample_done (s : State) : (setPresentFromSample s).done = s.done := rfl
@[simp] theorem setPresentFromSample_data (s : State) : (setPresentFromSample s).data = s.data := rfl
@[simp] theorem setPresentFromSample_parasite (s : State) : (setPresentFromSample s).parasite = s.parasite := rfl
@[simp] theorem setPresentFromSample_temp (s : State) : (setPresentFromSample s).temp = s.temp := rfl
@[simp] theorem setPresentFromSample_cur (s : State) : (setPresentFromSample s).cur = s.cur := rfl
@[simp] theorem setPresentFromSample_seq (s : State) : (setPresentFromSample s).seq = s.seq := rfl
@[simp] theorem setPresentFromSample_elapsed (s : State) : (setPresentFromSample s).elapsed = s.elapsed := rfl
@[simp] theorem setPresentFromSample_drive (s : State) : (setPresentFromSample s).drive = s.drive := rfl
@[simp] theorem setPresentFromSample_smp (s : State) : (setPresentFromSample s).smp = s.smp := rfl
@[simp] theorem setPresentFromSample_pres (s : State) : (setPresentFromSample s).pres = s.pres := rfl
@[simp] theorem setPresentFromSample_sr (s : State) : (setPresentFromSample s).sr = s.sr := rfl
@[simp] theorem setPresentFromSample_sp (s : State) : (setPresentFromSample s).sp = s.sp := rfl
@[simp] theorem setPresentFromSample_draws (s : State) : (setPresentFromSample s).draws = s.draws := rfl

/-! `hostRead r s` -/

@[simp] theorem hostRead_cfg (r : Reg) (s : State) : (hostRead r s).cfg = s.cfg := rfl
@[simp] theorem hostRead_tick (r : Reg) (s : State) : (hostRead r s).tick = s.tick := rfl
@[simp] theorem hostRead_levels (r : Reg) (s : State) : (hostRead r s).levels = s.levels := rfl
@[simp] theorem hostRead_agenda (r : Reg) (s : State) : (hostRead r s).agenda = s.agenda := rfl
@[simp] theorem hostRead_rst (r : Reg) (s : State) : (hostRead r s).rst = s.rst := rfl
@[simp] theorem hostRead_divPhase (r : Reg) (s : State) : (hostRead r s).divPhase = s.divPhase := rfl
@[simp] theorem hostRead_rdata (r : Reg) (s : State) : (hostRead r s).rdata = (readReg r s) := rfl
@[simp] theorem hostRead_present (r : Reg) (s : State) : (hostRead r s).present = s.present := rfl
@[simp] theorem hostRead_errAbsent (r : Reg) (s : State) : (hostRead r s).errAbsent = s.errAbsent := rfl
@[simp] theorem hostRead_errCrc (r : Reg) (s : State) : (hostRead r s).errCrc = s.errCrc := rfl
@[simp] theorem hostRead_cmdErr (r : Reg) (s : State) : (hostRead r s).cmdErr = s.cmdErr := rfl
@[simp] theorem hostRead_done (r : Reg) (s : State) : (hostRead r s).done = s.done := rfl
@[simp] theorem hostRead_data (r : Reg) (s : State) : (hostRead r s).data = s.data := rfl
@[simp] theorem hostRead_parasite (r : Reg) (s : State) : (hostRead r s).parasite = s.parasite := rfl
@[simp] theorem hostRead_temp (r : Reg) (s : State) : (hostRead r s).temp = s.temp := rfl
@[simp] theorem hostRead_cur (r : Reg) (s : State) : (hostRead r s).cur = s.cur := rfl
@[simp] theorem hostRead_seq (r : Reg) (s : State) : (hostRead r s).seq = s.seq := rfl
@[simp] theorem hostRead_elapsed (r : Reg) (s : State) : (hostRead r s).elapsed = s.elapsed := rfl
@[simp] theorem hostRead_drive (r : Reg) (s : State) : (hostRead r s).drive = s.drive := rfl
@[simp] theorem hostRead_smp (r : Reg) (s : State) : (hostRead r s).smp = s.smp := rfl
@[simp] theorem hostRead_pres (r : Reg) (s : State) : (hostRead r s).pres = s.pres := rfl
@[simp] theorem hostRead_sr (r : Reg) (s : State) : (hostRead r s).sr = s.sr := rfl
@[simp] theorem hostRead_sp (r : Reg) (s : State) : (hostRead r s).sp = s.sp := rfl
@[simp] theorem hostRead_draws (r : Reg) (s : State) : (hostRead r s).draws = s.draws := rfl

/-! `forgetScratch s` -/

@[simp] theorem forgetScratch_cfg (s : State) : (forgetScratch s).cfg = s.cfg := rfl
@[simp] theorem forgetScratch_tick (s : State) : (forgetScratch s).tick = s.tick := rfl
@[simp] theorem forgetScratch_levels (s : State) : (forgetScratch s).levels = s.levels := rfl
@[simp] theorem forgetScratch_agenda (s : State) : (forgetScratch s).agenda = s.agenda := rfl
@[simp] theorem forgetScratch_rst (s : State) : (forgetScratch s).rst = s.rst := rfl
@[simp] theorem forgetScratch_divPhase (s : State) : (forgetScratch s).divPhase = s.divPhase := rfl
@[simp] theorem forgetScratch_rdata (s : State) : (forgetScratch s).rdata = s.rdata := rfl
@[simp] theorem forgetScratch_present (s : State) : (forgetScratch s).present = s.present := rfl
@[simp] theorem forgetScratch_errAbsent (s : State) : (forgetScratch s).errAbsent = s.errAbsent := rfl
@[simp] theorem forgetScratch_errCrc (s : State) : (forgetScratch s).errCrc = s.errCrc := rfl
@[simp] theorem forgetScratch_cmdErr (s : State) : (forgetScratch s).cmdErr = s.cmdErr := rfl
@[simp] theorem forgetScratch_done (s : State) : (forgetScratch s).done = s.done := rfl
@[simp] theorem forgetScratch_data (s : State) : (forgetScratch s).data = s.data := rfl
@[simp] theorem forgetScratch_parasite (s : State) : (forgetScratch s).parasite = s.parasite := rfl
@[simp] theorem forgetScratch_temp (s : State) : (forgetScratch s).temp = s.temp := rfl
@[simp] theorem forgetScratch_cur (s : State) : (forgetScratch s).cur = s.cur := rfl
@[simp] theorem forgetScratch_seq (s : State) : (forgetScratch s).seq = s.seq := rfl
@[simp] theorem forgetScratch_elapsed (s : State) : (forgetScratch s).elapsed = s.elapsed := rfl
@[simp] theorem forgetScratch_drive (s : State) : (forgetScratch s).drive = s.drive := rfl
@[simp] theorem forgetScratch_smp (s : State) : (forgetScratch s).smp = (Config.freeSmp s.draws) := rfl
@[simp] theorem forgetScratch_pres (s : State) : (forgetScratch s).pres = (Config.freePres s.draws) := rfl
@[simp] theorem forgetScratch_sr (s : State) : (forgetScratch s).sr = (Config.freeSr s.draws) := rfl
@[simp] theorem forgetScratch_sp (s : State) : (forgetScratch s).sp = (Config.freeSp s.draws) := rfl
@[simp] theorem forgetScratch_draws (s : State) : (forgetScratch s).draws = (s.draws + 1) := rfl

/-! `endOperation s` -/

@[simp] theorem endOperation_cfg (s : State) : (endOperation s).cfg = s.cfg := rfl
@[simp] theorem endOperation_tick (s : State) : (endOperation s).tick = s.tick := rfl
@[simp] theorem endOperation_levels (s : State) : (endOperation s).levels = s.levels := rfl
@[simp] theorem endOperation_agenda (s : State) : (endOperation s).agenda = s.agenda := rfl
@[simp] theorem endOperation_rst (s : State) : (endOperation s).rst = s.rst := rfl
@[simp] theorem endOperation_divPhase (s : State) : (endOperation s).divPhase = s.divPhase := rfl
@[simp] theorem endOperation_rdata (s : State) : (endOperation s).rdata = s.rdata := rfl
@[simp] theorem endOperation_present (s : State) : (endOperation s).present = s.present := rfl
@[simp] theorem endOperation_errAbsent (s : State) : (endOperation s).errAbsent = s.errAbsent := rfl
@[simp] theorem endOperation_errCrc (s : State) : (endOperation s).errCrc = s.errCrc := rfl
@[simp] theorem endOperation_cmdErr (s : State) : (endOperation s).cmdErr = s.cmdErr := rfl
@[simp] theorem endOperation_done (s : State) : (endOperation s).done = true := rfl
@[simp] theorem endOperation_data (s : State) : (endOperation s).data = s.data := rfl
@[simp] theorem endOperation_parasite (s : State) : (endOperation s).parasite = s.parasite := rfl
@[simp] theorem endOperation_temp (s : State) : (endOperation s).temp = s.temp := rfl
@[simp] theorem endOperation_cur (s : State) : (endOperation s).cur = none := rfl
@[simp] theorem endOperation_seq (s : State) : (endOperation s).seq = [] := rfl
@[simp] theorem endOperation_elapsed (s : State) : (endOperation s).elapsed = 0 := rfl
@[simp] theorem endOperation_drive (s : State) : (endOperation s).drive = s.drive := rfl
@[simp] theorem endOperation_smp (s : State) : (endOperation s).smp = (Config.freeSmp s.draws) := rfl
@[simp] theorem endOperation_pres (s : State) : (endOperation s).pres = (Config.freePres s.draws) := rfl
@[simp] theorem endOperation_sr (s : State) : (endOperation s).sr = (Config.freeSr s.draws) := rfl
@[simp] theorem endOperation_sp (s : State) : (endOperation s).sp = (Config.freeSp s.draws) := rfl
@[simp] theorem endOperation_draws (s : State) : (endOperation s).draws = (s.draws + 1) := rfl

/-! `accept op s` -/

@[simp] theorem accept_cfg (op : Op) (s : State) : (accept op s).cfg = s.cfg := rfl
@[simp] theorem accept_tick (op : Op) (s : State) : (accept op s).tick = s.tick := rfl
@[simp] theorem accept_levels (op : Op) (s : State) : (accept op s).levels = s.levels := rfl
@[simp] theorem accept_agenda (op : Op) (s : State) : (accept op s).agenda = s.agenda := rfl
@[simp] theorem accept_rst (op : Op) (s : State) : (accept op s).rst = s.rst := rfl
@[simp] theorem accept_divPhase (op : Op) (s : State) : (accept op s).divPhase = 0 := rfl
@[simp] theorem accept_rdata (op : Op) (s : State) : (accept op s).rdata = s.rdata := rfl
@[simp] theorem accept_present (op : Op) (s : State) : (accept op s).present = s.present := rfl
@[simp] theorem accept_errAbsent (op : Op) (s : State) : (accept op s).errAbsent = false := rfl
@[simp] theorem accept_errCrc (op : Op) (s : State) : (accept op s).errCrc = false := rfl
@[simp] theorem accept_cmdErr (op : Op) (s : State) : (accept op s).cmdErr = false := rfl
@[simp] theorem accept_done (op : Op) (s : State) : (accept op s).done = false := rfl
@[simp] theorem accept_data (op : Op) (s : State) : (accept op s).data = s.data := rfl
@[simp] theorem accept_parasite (op : Op) (s : State) : (accept op s).parasite = s.parasite := rfl
@[simp] theorem accept_temp (op : Op) (s : State) : (accept op s).temp = s.temp := rfl
@[simp] theorem accept_cur (op : Op) (s : State) : (accept op s).cur = (some op) := rfl
@[simp] theorem accept_seq (op : Op) (s : State) : (accept op s).seq = (procedure op s) := rfl
@[simp] theorem accept_elapsed (op : Op) (s : State) : (accept op s).elapsed = 0 := rfl
@[simp] theorem accept_drive (op : Op) (s : State) : (accept op s).drive = s.drive := rfl
@[simp] theorem accept_smp (op : Op) (s : State) : (accept op s).smp = s.smp := rfl
@[simp] theorem accept_pres (op : Op) (s : State) : (accept op s).pres = s.pres := rfl
@[simp] theorem accept_sr (op : Op) (s : State) : (accept op s).sr = s.sr := rfl
@[simp] theorem accept_sp (op : Op) (s : State) : (accept op s).sp = s.sp := rfl
@[simp] theorem accept_draws (op : Op) (s : State) : (accept op s).draws = s.draws := rfl

/-! `sendByte v s` -/

@[simp] theorem sendByte_cfg (v : Byte) (s : State) : (sendByte v s).cfg = s.cfg := rfl
@[simp] theorem sendByte_tick (v : Byte) (s : State) : (sendByte v s).tick = s.tick := rfl
@[simp] theorem sendByte_levels (v : Byte) (s : State) : (sendByte v s).levels = s.levels := rfl
@[simp] theorem sendByte_agenda (v : Byte) (s : State) : (sendByte v s).agenda = s.agenda := rfl
@[simp] theorem sendByte_rst (v : Byte) (s : State) : (sendByte v s).rst = s.rst := rfl
@[simp] theorem sendByte_divPhase (v : Byte) (s : State) : (sendByte v s).divPhase = s.divPhase := rfl
@[simp] theorem sendByte_rdata (v : Byte) (s : State) : (sendByte v s).rdata = s.rdata := rfl
@[simp] theorem sendByte_present (v : Byte) (s : State) : (sendByte v s).present = s.present := rfl
@[simp] theorem sendByte_errAbsent (v : Byte) (s : State) : (sendByte v s).errAbsent = s.errAbsent := rfl
@[simp] theorem sendByte_errCrc (v : Byte) (s : State) : (sendByte v s).errCrc = s.errCrc := rfl
@[simp] theorem sendByte_cmdErr (v : Byte) (s : State) : (sendByte v s).cmdErr = s.cmdErr := rfl
@[simp] theorem sendByte_done (v : Byte) (s : State) : (sendByte v s).done = s.done := rfl
@[simp] theorem sendByte_data (v : Byte) (s : State) : (sendByte v s).data = s.data := rfl
@[simp] theorem sendByte_parasite (v : Byte) (s : State) : (sendByte v s).parasite = s.parasite := rfl
@[simp] theorem sendByte_temp (v : Byte) (s : State) : (sendByte v s).temp = s.temp := rfl
@[simp] theorem sendByte_cur (v : Byte) (s : State) : (sendByte v s).cur = s.cur := rfl
@[simp] theorem sendByte_seq (v : Byte) (s : State) : (sendByte v s).seq = (byteWrite s.cfg v ++ s.seq) := rfl
@[simp] theorem sendByte_elapsed (v : Byte) (s : State) : (sendByte v s).elapsed = 0 := rfl
@[simp] theorem sendByte_drive (v : Byte) (s : State) : (sendByte v s).drive = s.drive := rfl
@[simp] theorem sendByte_smp (v : Byte) (s : State) : (sendByte v s).smp = s.smp := rfl
@[simp] theorem sendByte_pres (v : Byte) (s : State) : (sendByte v s).pres = s.pres := rfl
@[simp] theorem sendByte_sr (v : Byte) (s : State) : (sendByte v s).sr = s.sr := rfl
@[simp] theorem sendByte_sp (v : Byte) (s : State) : (sendByte v s).sp = s.sp := rfl
@[simp] theorem sendByte_draws (v : Byte) (s : State) : (sendByte v s).draws = s.draws := rfl

/-! `hardReset s` -/

@[simp] theorem hardReset_cfg (s : State) : (hardReset s).cfg = s.cfg := rfl
@[simp] theorem hardReset_tick (s : State) : (hardReset s).tick = s.tick := rfl
@[simp] theorem hardReset_levels (s : State) : (hardReset s).levels = s.levels := rfl
@[simp] theorem hardReset_agenda (s : State) : (hardReset s).agenda = s.agenda := rfl
@[simp] theorem hardReset_rst (s : State) : (hardReset s).rst = s.rst := rfl
@[simp] theorem hardReset_divPhase (s : State) : (hardReset s).divPhase = (Config.freeDivPhase s.draws % s.cfg.clksPerUs) := rfl
@[simp] theorem hardReset_rdata (s : State) : (hardReset s).rdata = s.rdata := rfl
@[simp] theorem hardReset_present (s : State) : (hardReset s).present = false := rfl
@[simp] theorem hardReset_errAbsent (s : State) : (hardReset s).errAbsent = false := rfl
@[simp] theorem hardReset_errCrc (s : State) : (hardReset s).errCrc = false := rfl
@[simp] theorem hardReset_cmdErr (s : State) : (hardReset s).cmdErr = false := rfl
@[simp] theorem hardReset_done (s : State) : (hardReset s).done = false := rfl
@[simp] theorem hardReset_data (s : State) : (hardReset s).data = 0 := rfl
@[simp] theorem hardReset_parasite (s : State) : (hardReset s).parasite = false := rfl
@[simp] theorem hardReset_temp (s : State) : (hardReset s).temp = 0 := rfl
@[simp] theorem hardReset_cur (s : State) : (hardReset s).cur = none := rfl
@[simp] theorem hardReset_seq (s : State) : (hardReset s).seq = [] := rfl
@[simp] theorem hardReset_elapsed (s : State) : (hardReset s).elapsed = 0 := rfl
@[simp] theorem hardReset_drive (s : State) : (hardReset s).drive = .rel := rfl
@[simp] theorem hardReset_smp (s : State) : (hardReset s).smp = (Config.freeSmp s.draws) := rfl
@[simp] theorem hardReset_pres (s : State) : (hardReset s).pres = (Config.freePres s.draws) := rfl
@[simp] theorem hardReset_sr (s : State) : (hardReset s).sr = (Config.freeSr s.draws) := rfl
@[simp] theorem hardReset_sp (s : State) : (hardReset s).sp = (Config.freeSp s.draws) := rfl
@[simp] theorem hardReset_draws (s : State) : (hardReset s).draws = (s.draws + 1) := rfl

/-! `takeSample s` -/

@[simp] theorem takeSample_cfg (s : State) : (takeSample s).cfg = s.cfg := rfl
@[simp] theorem takeSample_tick (s : State) : (takeSample s).tick = s.tick := rfl
@[simp] theorem takeSample_levels (s : State) : (takeSample s).levels = s.levels := rfl
@[simp] theorem takeSample_agenda (s : State) : (takeSample s).agenda = s.agenda := rfl
@[simp] theorem takeSample_rst (s : State) : (takeSample s).rst = s.rst := rfl
@[simp] theorem takeSample_divPhase (s : State) : (takeSample s).divPhase = s.divPhase := rfl
@[simp] theorem takeSample_rdata (s : State) : (takeSample s).rdata = s.rdata := rfl
@[simp] theorem takeSample_present (s : State) : (takeSample s).present = s.present := rfl
@[simp] theorem takeSample_errAbsent (s : State) : (takeSample s).errAbsent = s.errAbsent := rfl
@[simp] theorem takeSample_errCrc (s : State) : (takeSample s).errCrc = s.errCrc := rfl
@[simp] theorem takeSample_cmdErr (s : State) : (takeSample s).cmdErr = s.cmdErr := rfl
@[simp] theorem takeSample_done (s : State) : (takeSample s).done = s.done := rfl
@[simp] theorem takeSample_data (s : State) : (takeSample s).data = s.data := rfl
@[simp] theorem takeSample_parasite (s : State) : (takeSample s).parasite = s.parasite := rfl
@[simp] theorem takeSample_temp (s : State) : (takeSample s).temp = s.temp := rfl
@[simp] theorem takeSample_cur (s : State) : (takeSample s).cur = s.cur := rfl
@[simp] theorem takeSample_seq (s : State) : (takeSample s).seq = s.seq := rfl
@[simp] theorem takeSample_elapsed (s : State) : (takeSample s).elapsed = s.elapsed := rfl
@[simp] theorem takeSample_drive (s : State) : (takeSample s).drive = s.drive := rfl
@[simp] theorem takeSample_smp (s : State) : (takeSample s).smp = (s.line s.tick) := rfl
@[simp] theorem takeSample_pres (s : State) : (takeSample s).pres = s.pres := rfl
@[simp] theorem takeSample_sr (s : State) : (takeSample s).sr = s.sr := rfl
@[simp] theorem takeSample_sp (s : State) : (takeSample s).sp = s.sp := rfl
@[simp] theorem takeSample_draws (s : State) : (takeSample s).draws = s.draws := rfl

/-! `storePres s` -/

@[simp] theorem storePres_cfg (s : State) : (storePres s).cfg = s.cfg := rfl
@[simp] theorem storePres_tick (s : State) : (storePres s).tick = s.tick := rfl
@[simp] theorem storePres_levels (s : State) : (storePres s).levels = s.levels := rfl
@[simp] theorem storePres_agenda (s : State) : (storePres s).agenda = s.agenda := rfl
@[simp] theorem storePres_rst (s : State) : (storePres s).rst = s.rst := rfl
@[simp] theorem storePres_divPhase (s : State) : (storePres s).divPhase = s.divPhase := rfl
@[simp] theorem storePres_rdata (s : State) : (storePres s).rdata = s.rdata := rfl
@[simp] theorem storePres_present (s : State) : (storePres s).present = s.present := rfl
@[simp] theorem storePres_errAbsent (s : State) : (storePres s).errAbsent = s.errAbsent := rfl
@[simp] theorem storePres_errCrc (s : State) : (storePres s).errCrc = s.errCrc := rfl
@[simp] theorem storePres_cmdErr (s : State) : (storePres s).cmdErr = s.cmdErr := rfl
@[simp] theorem storePres_done (s : State) : (storePres s).done = s.done := rfl
@[simp] theorem storePres_data (s : State) : (storePres s).data = s.data := rfl
@[simp] theorem storePres_parasite (s : State) : (storePres s).parasite = s.parasite := rfl
@[simp] theorem storePres_temp (s : State) : (storePres s).temp = s.temp := rfl
@[simp] theorem storePres_cur (s : State) : (storePres s).cur = s.cur := rfl
@[simp] theorem storePres_seq (s : State) : (storePres s).seq = s.seq := rfl
@[simp] theorem storePres_elapsed (s : State) : (storePres s).elapsed = s.elapsed := rfl
@[simp] theorem storePres_drive (s : State) : (storePres s).drive = s.drive := rfl
@[simp] theorem storePres_smp (s : State) : (storePres s).smp = s.smp := rfl
@[simp] theorem storePres_pres (s : State) : (storePres s).pres = s.smp := rfl
@[simp] theorem storePres_sr (s : State) : (storePres s).sr = s.sr := rfl
@[simp] theorem storePres_sp (s : State) : (storePres s).sp = s.sp := rfl
@[simp] theorem storePres_draws (s : State) : (storePres s).draws = s.draws := rfl

/-! `storeSr k s` -/

@[simp] theorem storeSr_cfg (k : Nat) (s : State) : (storeSr k s).cfg = s.cfg := rfl
@[simp] theorem storeSr_tick (k : Nat) (s : State) : (storeSr k s).tick = s.tick := rfl
@[simp] theorem storeSr_levels (k : Nat) (s : State) : (storeSr k s).levels = s.levels := rfl
@[simp] theorem storeSr_agenda (k : Nat) (s : State) : (storeSr k s).agenda = s.agenda := rfl
@[simp] theorem storeSr_rst (k : Nat) (s : State) : (storeSr k s).rst = s.rst := rfl
@[simp] theorem storeSr_divPhase (k : Nat) (s : State) : (storeSr k s).divPhase = s.divPhase := rfl
@[simp] theorem storeSr_rdata (k : Nat) (s : State) : (storeSr k s).rdata = s.rdata := rfl
@[simp] theorem storeSr_present (k : Nat) (s : State) : (storeSr k s).present = s.present := rfl
@[simp] theorem storeSr_errAbsent (k : Nat) (s : State) : (storeSr k s).errAbsent = s.errAbsent := rfl
@[simp] theorem storeSr_errCrc (k : Nat) (s : State) : (storeSr k s).errCrc = s.errCrc := rfl
@[simp] theorem storeSr_cmdErr (k : Nat) (s : State) : (storeSr k s).cmdErr = s.cmdErr := rfl
@[simp] theorem storeSr_done (k : Nat) (s : State) : (storeSr k s).done = s.done := rfl
@[simp] theorem storeSr_data (k : Nat) (s : State) : (storeSr k s).data = s.data := rfl
@[simp] theorem storeSr_parasite (k : Nat) (s : State) : (storeSr k s).parasite = s.parasite := rfl
@[simp] theorem storeSr_temp (k : Nat) (s : State) : (storeSr k s).temp = s.temp := rfl
@[simp] theorem storeSr_cur (k : Nat) (s : State) : (storeSr k s).cur = s.cur := rfl
@[simp] theorem storeSr_seq (k : Nat) (s : State) : (storeSr k s).seq = s.seq := rfl
@[simp] theorem storeSr_elapsed (k : Nat) (s : State) : (storeSr k s).elapsed = s.elapsed := rfl
@[simp] theorem storeSr_drive (k : Nat) (s : State) : (storeSr k s).drive = s.drive := rfl
@[simp] theorem storeSr_smp (k : Nat) (s : State) : (storeSr k s).smp = s.smp := rfl
@[simp] theorem storeSr_pres (k : Nat) (s : State) : (storeSr k s).pres = s.pres := rfl
@[simp] theorem storeSr_sr (k : Nat) (s : State) : (storeSr k s).sr = (setBit s.sr k s.smp) := rfl
@[simp] theorem storeSr_sp (k : Nat) (s : State) : (storeSr k s).sp = s.sp := rfl
@[simp] theorem storeSr_draws (k : Nat) (s : State) : (storeSr k s).draws = s.draws := rfl

/-! `storeSp i s` -/

@[simp] theorem storeSp_cfg (i : Nat) (s : State) : (storeSp i s).cfg = s.cfg := rfl
@[simp] theorem storeSp_tick (i : Nat) (s : State) : (storeSp i s).tick = s.tick := rfl
@[simp] theorem storeSp_levels (i : Nat) (s : State) : (storeSp i s).levels = s.levels := rfl
@[simp] theorem storeSp_agenda (i : Nat) (s : State) : (storeSp i s).agenda = s.agenda := rfl
@[simp] theorem storeSp_rst (i : Nat) (s : State) : (storeSp i s).rst = s.rst := rfl
@[simp] theorem storeSp_divPhase (i : Nat) (s : State) : (storeSp i s).divPhase = s.divPhase := rfl
@[simp] theorem storeSp_rdata (i : Nat) (s : State) : (storeSp i s).rdata = s.rdata := rfl
@[simp] theorem storeSp_present (i : Nat) (s : State) : (storeSp i s).present = s.present := rfl
@[simp] theorem storeSp_errAbsent (i : Nat) (s : State) : (storeSp i s).errAbsent = s.errAbsent := rfl
@[simp] theorem storeSp_errCrc (i : Nat) (s : State) : (storeSp i s).errCrc = s.errCrc := rfl
@[simp] theorem storeSp_cmdErr (i : Nat) (s : State) : (storeSp i s).cmdErr = s.cmdErr := rfl
@[simp] theorem storeSp_done (i : Nat) (s : State) : (storeSp i s).done = s.done := rfl
@[simp] theorem storeSp_data (i : Nat) (s : State) : (storeSp i s).data = s.data := rfl
@[simp] theorem storeSp_parasite (i : Nat) (s : State) : (storeSp i s).parasite = s.parasite := rfl
@[simp] theorem storeSp_temp (i : Nat) (s : State) : (storeSp i s).temp = s.temp := rfl
@[simp] theorem storeSp_cur (i : Nat) (s : State) : (storeSp i s).cur = s.cur := rfl
@[simp] theorem storeSp_seq (i : Nat) (s : State) : (storeSp i s).seq = s.seq := rfl
@[simp] theorem storeSp_elapsed (i : Nat) (s : State) : (storeSp i s).elapsed = s.elapsed := rfl
@[simp] theorem storeSp_drive (i : Nat) (s : State) : (storeSp i s).drive = s.drive := rfl
@[simp] theorem storeSp_smp (i : Nat) (s : State) : (storeSp i s).smp = s.smp := rfl
@[simp] theorem storeSp_pres (i : Nat) (s : State) : (storeSp i s).pres = s.pres := rfl
@[simp] theorem storeSp_sr (i : Nat) (s : State) : (storeSp i s).sr = s.sr := rfl
@[simp] theorem storeSp_sp (i : Nat) (s : State) : (storeSp i s).sp = (s.sp.setIfInBounds i s.sr) := rfl
@[simp] theorem storeSp_draws (i : Nat) (s : State) : (storeSp i s).draws = s.draws := rfl

/-! `raise .deviceAbsent s` -/

@[simp] theorem raiseDeviceAbsent_cfg (s : State) : (raise .deviceAbsent s).cfg = s.cfg := rfl
@[simp] theorem raiseDeviceAbsent_tick (s : State) : (raise .deviceAbsent s).tick = s.tick := rfl
@[simp] theorem raiseDeviceAbsent_levels (s : State) : (raise .deviceAbsent s).levels = s.levels := rfl
@[simp] theorem raiseDeviceAbsent_agenda (s : State) : (raise .deviceAbsent s).agenda = s.agenda := rfl
@[simp] theorem raiseDeviceAbsent_rst (s : State) : (raise .deviceAbsent s).rst = s.rst := rfl
@[simp] theorem raiseDeviceAbsent_divPhase (s : State) : (raise .deviceAbsent s).divPhase = s.divPhase := rfl
@[simp] theorem raiseDeviceAbsent_rdata (s : State) : (raise .deviceAbsent s).rdata = s.rdata := rfl
@[simp] theorem raiseDeviceAbsent_present (s : State) : (raise .deviceAbsent s).present = s.present := rfl
@[simp] theorem raiseDeviceAbsent_errAbsent (s : State) : (raise .deviceAbsent s).errAbsent = true := rfl
@[simp] theorem raiseDeviceAbsent_errCrc (s : State) : (raise .deviceAbsent s).errCrc = s.errCrc := rfl
@[simp] theorem raiseDeviceAbsent_cmdErr (s : State) : (raise .deviceAbsent s).cmdErr = s.cmdErr := rfl
@[simp] theorem raiseDeviceAbsent_done (s : State) : (raise .deviceAbsent s).done = s.done := rfl
@[simp] theorem raiseDeviceAbsent_data (s : State) : (raise .deviceAbsent s).data = s.data := rfl
@[simp] theorem raiseDeviceAbsent_parasite (s : State) : (raise .deviceAbsent s).parasite = s.parasite := rfl
@[simp] theorem raiseDeviceAbsent_temp (s : State) : (raise .deviceAbsent s).temp = s.temp := rfl
@[simp] theorem raiseDeviceAbsent_cur (s : State) : (raise .deviceAbsent s).cur = s.cur := rfl
@[simp] theorem raiseDeviceAbsent_seq (s : State) : (raise .deviceAbsent s).seq = s.seq := rfl
@[simp] theorem raiseDeviceAbsent_elapsed (s : State) : (raise .deviceAbsent s).elapsed = s.elapsed := rfl
@[simp] theorem raiseDeviceAbsent_drive (s : State) : (raise .deviceAbsent s).drive = s.drive := rfl
@[simp] theorem raiseDeviceAbsent_smp (s : State) : (raise .deviceAbsent s).smp = s.smp := rfl
@[simp] theorem raiseDeviceAbsent_pres (s : State) : (raise .deviceAbsent s).pres = s.pres := rfl
@[simp] theorem raiseDeviceAbsent_sr (s : State) : (raise .deviceAbsent s).sr = s.sr := rfl
@[simp] theorem raiseDeviceAbsent_sp (s : State) : (raise .deviceAbsent s).sp = s.sp := rfl
@[simp] theorem raiseDeviceAbsent_draws (s : State) : (raise .deviceAbsent s).draws = s.draws := rfl

/-! `raise .integrityFailure s` -/

@[simp] theorem raiseIntegrityFailure_cfg (s : State) : (raise .integrityFailure s).cfg = s.cfg := rfl
@[simp] theorem raiseIntegrityFailure_tick (s : State) : (raise .integrityFailure s).tick = s.tick := rfl
@[simp] theorem raiseIntegrityFailure_levels (s : State) : (raise .integrityFailure s).levels = s.levels := rfl
@[simp] theorem raiseIntegrityFailure_agenda (s : State) : (raise .integrityFailure s).agenda = s.agenda := rfl
@[simp] theorem raiseIntegrityFailure_rst (s : State) : (raise .integrityFailure s).rst = s.rst := rfl
@[simp] theorem raiseIntegrityFailure_divPhase (s : State) : (raise .integrityFailure s).divPhase = s.divPhase := rfl
@[simp] theorem raiseIntegrityFailure_rdata (s : State) : (raise .integrityFailure s).rdata = s.rdata := rfl
@[simp] theorem raiseIntegrityFailure_present (s : State) : (raise .integrityFailure s).present = s.present := rfl
@[simp] theorem raiseIntegrityFailure_errAbsent (s : State) : (raise .integrityFailure s).errAbsent = s.errAbsent := rfl
@[simp] theorem raiseIntegrityFailure_errCrc (s : State) : (raise .integrityFailure s).errCrc = true := rfl
@[simp] theorem raiseIntegrityFailure_cmdErr (s : State) : (raise .integrityFailure s).cmdErr = s.cmdErr := rfl
@[simp] theorem raiseIntegrityFailure_done (s : State) : (raise .integrityFailure s).done = s.done := rfl
@[simp] theorem raiseIntegrityFailure_data (s : State) : (raise .integrityFailure s).data = s.data := rfl
@[simp] theorem raiseIntegrityFailure_parasite (s : State) : (raise .integrityFailure s).parasite = s.parasite := rfl
@[simp] theorem raiseIntegrityFailure_temp (s : State) : (raise .integrityFailure s).temp = s.temp := rfl
@[simp] theorem raiseIntegrityFailure_cur (s : State) : (raise .integrityFailure s).cur = s.cur := rfl
@[simp] theorem raiseIntegrityFailure_seq (s : State) : (raise .integrityFailure s).seq = s.seq := rfl
@[simp] theorem raiseIntegrityFailure_elapsed (s : State) : (raise .integrityFailure s).elapsed = s.elapsed := rfl
@[simp] theorem raiseIntegrityFailure_drive (s : State) : (raise .integrityFailure s).drive = s.drive := rfl
@[simp] theorem raiseIntegrityFailure_smp (s : State) : (raise .integrityFailure s).smp = s.smp := rfl
@[simp] theorem raiseIntegrityFailure_pres (s : State) : (raise .integrityFailure s).pres = s.pres := rfl
@[simp] theorem raiseIntegrityFailure_sr (s : State) : (raise .integrityFailure s).sr = s.sr := rfl
@[simp] theorem raiseIntegrityFailure_sp (s : State) : (raise .integrityFailure s).sp = s.sp := rfl
@[simp] theorem raiseIntegrityFailure_draws (s : State) : (raise .integrityFailure s).draws = s.draws := rfl

/-! `raise .commandError s` -/

@[simp] theorem raiseCommandError_cfg (s : State) : (raise .commandError s).cfg = s.cfg := rfl
@[simp] theorem raiseCommandError_tick (s : State) : (raise .commandError s).tick = s.tick := rfl
@[simp] theorem raiseCommandError_levels (s : State) : (raise .commandError s).levels = s.levels := rfl
@[simp] theorem raiseCommandError_agenda (s : State) : (raise .commandError s).agenda = s.agenda := rfl
@[simp] theorem raiseCommandError_rst (s : State) : (raise .commandError s).rst = s.rst := rfl
@[simp] theorem raiseCommandError_divPhase (s : State) : (raise .commandError s).divPhase = s.divPhase := rfl
@[simp] theorem raiseCommandError_rdata (s : State) : (raise .commandError s).rdata = s.rdata := rfl
@[simp] theorem raiseCommandError_present (s : State) : (raise .commandError s).present = s.present := rfl
@[simp] theorem raiseCommandError_errAbsent (s : State) : (raise .commandError s).errAbsent = s.errAbsent := rfl
@[simp] theorem raiseCommandError_errCrc (s : State) : (raise .commandError s).errCrc = s.errCrc := rfl
@[simp] theorem raiseCommandError_cmdErr (s : State) : (raise .commandError s).cmdErr = true := rfl
@[simp] theorem raiseCommandError_done (s : State) : (raise .commandError s).done = s.done := rfl
@[simp] theorem raiseCommandError_data (s : State) : (raise .commandError s).data = s.data := rfl
@[simp] theorem raiseCommandError_parasite (s : State) : (raise .commandError s).parasite = s.parasite := rfl
@[simp] theorem raiseCommandError_temp (s : State) : (raise .commandError s).temp = s.temp := rfl
@[simp] theorem raiseCommandError_cur (s : State) : (raise .commandError s).cur = s.cur := rfl
@[simp] theorem raiseCommandError_seq (s : State) : (raise .commandError s).seq = s.seq := rfl
@[simp] theorem raiseCommandError_elapsed (s : State) : (raise .commandError s).elapsed = s.elapsed := rfl
@[simp] theorem raiseCommandError_drive (s : State) : (raise .commandError s).drive = s.drive := rfl
@[simp] theorem raiseCommandError_smp (s : State) : (raise .commandError s).smp = s.smp := rfl
@[simp] theorem raiseCommandError_pres (s : State) : (raise .commandError s).pres = s.pres := rfl
@[simp] theorem raiseCommandError_sr (s : State) : (raise .commandError s).sr = s.sr := rfl
@[simp] theorem raiseCommandError_sp (s : State) : (raise .commandError s).sp = s.sp := rfl
@[simp] theorem raiseCommandError_draws (s : State) : (raise .commandError s).draws = s.draws := rfl

/-! `finishInit s` -/

@[simp] theorem finishInit_cfg (s : State) : (finishInit s).cfg = s.cfg := rfl
@[simp] theorem finishInit_tick (s : State) : (finishInit s).tick = s.tick := rfl
@[simp] theorem finishInit_levels (s : State) : (finishInit s).levels = s.levels := rfl
@[simp] theorem finishInit_agenda (s : State) : (finishInit s).agenda = s.agenda := rfl
@[simp] theorem finishInit_rst (s : State) : (finishInit s).rst = s.rst := rfl
@[simp] theorem finishInit_divPhase (s : State) : (finishInit s).divPhase = s.divPhase := rfl
@[simp] theorem finishInit_rdata (s : State) : (finishInit s).rdata = s.rdata := rfl
@[simp] theorem finishInit_present (s : State) : (finishInit s).present = false := rfl
@[simp] theorem finishInit_errAbsent (s : State) : (finishInit s).errAbsent = s.errAbsent := rfl
@[simp] theorem finishInit_errCrc (s : State) : (finishInit s).errCrc = s.errCrc := rfl
@[simp] theorem finishInit_cmdErr (s : State) : (finishInit s).cmdErr = s.cmdErr := rfl
@[simp] theorem finishInit_done (s : State) : (finishInit s).done = s.done := rfl
@[simp] theorem finishInit_data (s : State) : (finishInit s).data = s.data := rfl
@[simp] theorem finishInit_parasite (s : State) : (finishInit s).parasite = s.parasite := rfl
@[simp] theorem finishInit_temp (s : State) : (finishInit s).temp = s.temp := rfl
@[simp] theorem finishInit_cur (s : State) : (finishInit s).cur = s.cur := rfl
@[simp] theorem finishInit_seq (s : State) : (finishInit s).seq = s.seq := rfl
@[simp] theorem finishInit_elapsed (s : State) : (finishInit s).elapsed = s.elapsed := rfl
@[simp] theorem finishInit_drive (s : State) : (finishInit s).drive = s.drive := rfl
@[simp] theorem finishInit_smp (s : State) : (finishInit s).smp = s.smp := rfl
@[simp] theorem finishInit_pres (s : State) : (finishInit s).pres = s.pres := rfl
@[simp] theorem finishInit_sr (s : State) : (finishInit s).sr = s.sr := rfl
@[simp] theorem finishInit_sp (s : State) : (finishInit s).sp = s.sp := rfl
@[simp] theorem finishInit_draws (s : State) : (finishInit s).draws = s.draws := rfl

/-! `finishReadBit s` -/

@[simp] theorem finishReadBit_cfg (s : State) : (finishReadBit s).cfg = s.cfg := rfl
@[simp] theorem finishReadBit_tick (s : State) : (finishReadBit s).tick = s.tick := rfl
@[simp] theorem finishReadBit_levels (s : State) : (finishReadBit s).levels = s.levels := rfl
@[simp] theorem finishReadBit_agenda (s : State) : (finishReadBit s).agenda = s.agenda := rfl
@[simp] theorem finishReadBit_rst (s : State) : (finishReadBit s).rst = s.rst := rfl
@[simp] theorem finishReadBit_divPhase (s : State) : (finishReadBit s).divPhase = s.divPhase := rfl
@[simp] theorem finishReadBit_rdata (s : State) : (finishReadBit s).rdata = s.rdata := rfl
@[simp] theorem finishReadBit_present (s : State) : (finishReadBit s).present = s.present := rfl
@[simp] theorem finishReadBit_errAbsent (s : State) : (finishReadBit s).errAbsent = s.errAbsent := rfl
@[simp] theorem finishReadBit_errCrc (s : State) : (finishReadBit s).errCrc = s.errCrc := rfl
@[simp] theorem finishReadBit_cmdErr (s : State) : (finishReadBit s).cmdErr = s.cmdErr := rfl
@[simp] theorem finishReadBit_done (s : State) : (finishReadBit s).done = s.done := rfl
@[simp] theorem finishReadBit_data (s : State) : (finishReadBit s).data = (zextBit s.smp) := rfl
@[simp] theorem finishReadBit_parasite (s : State) : (finishReadBit s).parasite = s.parasite := rfl
@[simp] theorem finishReadBit_temp (s : State) : (finishReadBit s).temp = s.temp := rfl
@[simp] theorem finishReadBit_cur (s : State) : (finishReadBit s).cur = s.cur := rfl
@[simp] theorem finishReadBit_seq (s : State) : (finishReadBit s).seq = s.seq := rfl
@[simp] theorem finishReadBit_elapsed (s : State) : (finishReadBit s).elapsed = s.elapsed := rfl
@[simp] theorem finishReadBit_drive (s : State) : (finishReadBit s).drive = s.drive := rfl
@[simp] theorem finishReadBit_smp (s : State) : (finishReadBit s).smp = s.smp := rfl
@[simp] theorem finishReadBit_pres (s : State) : (finishReadBit s).pres = s.pres := rfl
@[simp] theorem finishReadBit_sr (s : State) : (finishReadBit s).sr = s.sr := rfl
@[simp] theorem finishReadBit_sp (s : State) : (finishReadBit s).sp = s.sp := rfl
@[simp] theorem finishReadBit_draws (s : State) : (finishReadBit s).draws = s.draws := rfl

/-! `finishReadByte s` -/

@[simp] theorem finishReadByte_cfg (s : State) : (finishReadByte s).cfg = s.cfg := rfl
@[simp] theorem finishReadByte_tick (s : State) : (finishReadByte s).tick = s.tick := rfl
@[simp] theorem finishReadByte_levels (s : State) : (finishReadByte s).levels = s.levels := rfl
@[simp] theorem finishReadByte_agenda (s : State) : (finishReadByte s).agenda = s.agenda := rfl
@[simp] theorem finishReadByte_rst (s : State) : (finishReadByte s).rst = s.rst := rfl
@[simp] theorem finishReadByte_divPhase (s : State) : (finishReadByte s).divPhase = s.divPhase := rfl
@[simp] theorem finishReadByte_rdata (s : State) : (finishReadByte s).rdata = s.rdata := rfl
@[simp] theorem finishReadByte_present (s : State) : (finishReadByte s).present = s.present := rfl
@[simp] theorem finishReadByte_errAbsent (s : State) : (finishReadByte s).errAbsent = s.errAbsent := rfl
@[simp] theorem finishReadByte_errCrc (s : State) : (finishReadByte s).errCrc = s.errCrc := rfl
@[simp] theorem finishReadByte_cmdErr (s : State) : (finishReadByte s).cmdErr = s.cmdErr := rfl
@[simp] theorem finishReadByte_done (s : State) : (finishReadByte s).done = s.done := rfl
@[simp] theorem finishReadByte_data (s : State) : (finishReadByte s).data = s.sr := rfl
@[simp] theorem finishReadByte_parasite (s : State) : (finishReadByte s).parasite = s.parasite := rfl
@[simp] theorem finishReadByte_temp (s : State) : (finishReadByte s).temp = s.temp := rfl
@[simp] theorem finishReadByte_cur (s : State) : (finishReadByte s).cur = s.cur := rfl
@[simp] theorem finishReadByte_seq (s : State) : (finishReadByte s).seq = s.seq := rfl
@[simp] theorem finishReadByte_elapsed (s : State) : (finishReadByte s).elapsed = s.elapsed := rfl
@[simp] theorem finishReadByte_drive (s : State) : (finishReadByte s).drive = s.drive := rfl
@[simp] theorem finishReadByte_smp (s : State) : (finishReadByte s).smp = s.smp := rfl
@[simp] theorem finishReadByte_pres (s : State) : (finishReadByte s).pres = s.pres := rfl
@[simp] theorem finishReadByte_sr (s : State) : (finishReadByte s).sr = s.sr := rfl
@[simp] theorem finishReadByte_sp (s : State) : (finishReadByte s).sp = s.sp := rfl
@[simp] theorem finishReadByte_draws (s : State) : (finishReadByte s).draws = s.draws := rfl

/-! `finishReset s` -/

@[simp] theorem finishReset_eq (s : State) : finishReset s = setPresentFromSample s := rfl

end Sys2Proof.Machine
end

