-- ==== Sys2Proof/Laws/Sequencer.lean ====
section
/-! SUPPORT. What settling, playing and completing can do, said once. -/

namespace Sys2Proof.Machine

/-- Settling moves the position and the scratch elements, and nothing else. -/
theorem settle_frame (seq : List Prim) (s : State) :
    ∃ seq' pres' sr' sp', settle seq s =
      { s with seq := seq', elapsed := 0, pres := pres', sr := sr', sp := sp' } := by
  induction seq generalizing s with
  | nil => exact ⟨_, _, _, _, rfl⟩
  | cons p rest ih =>
    cases p with
    | storePres => obtain ⟨a, b, c, d, h⟩ := ih (storePres s); exact ⟨a, b, c, d, by simpa [settle] using h⟩
    | storeSr k => obtain ⟨a, b, c, d, h⟩ := ih (storeSr k s); exact ⟨a, b, c, d, by simpa [settle] using h⟩
    | storeSp i => obtain ⟨a, b, c, d, h⟩ := ih (storeSp i s); exact ⟨a, b, c, d, by simpa [settle] using h⟩
    | failIfAbsent =>
      by_cases hp : s.pres = true
      · exact ⟨[], s.pres, s.sr, s.sp, by rw [settle, if_pos hp]; rfl⟩
      · obtain ⟨a, b, c, d, h⟩ := ih s; exact ⟨a, b, c, d, by simpa [settle, hp] using h⟩
    | drive dr n =>
      cases n with
      | zero => obtain ⟨a, b, c, d, h⟩ := ih s; exact ⟨a, b, c, d, by simpa [settle] using h⟩
      | succ n => exact ⟨_, _, _, _, rfl⟩
    | hold d => exact ⟨_, _, _, _, rfl⟩
    | holdIfParasite => exact ⟨_, _, _, _, rfl⟩
    | sample => exact ⟨_, _, _, _, rfl⟩
    | send c => exact ⟨_, _, _, _, rfl⟩

/-- One tick of an operation: it completes, from a state that differs in the drive state and the scratch elements only, or
it goes on, and then the position differs too. -/
theorem play_cases (seq : List Prim) (s : State) :
    ∃ drive' smp' pres' sr' sp',
      play seq s = complete
        { s with drive := drive', smp := smp', pres := pres', sr := sr', sp := sp' }
      ∨ ∃ seq' elapsed', play seq s =
        { s with
          drive := drive', smp := smp', pres := pres', sr := sr', sp := sp', seq := seq',
          elapsed := elapsed' } := by
  induction seq generalizing s with
  | nil => exact ⟨_, _, _, _, _, .inl rfl⟩
  | cons p rest ih =>
    cases p with
    | storePres =>
      obtain ⟨a, b, c, d, e, h⟩ := ih (storePres s)
      exact ⟨a, b, c, d, e, by simpa [play, storePres] using h⟩
    | storeSr k =>
      obtain ⟨a, b, c, d, e, h⟩ := ih (storeSr k s)
      exact ⟨a, b, c, d, e, by simpa [play, storeSr] using h⟩
    | storeSp i =>
      obtain ⟨a, b, c, d, e, h⟩ := ih (storeSp i s)
      exact ⟨a, b, c, d, e, by simpa [play, storeSp] using h⟩
    | sample =>
      obtain ⟨a, b, c, d, e, h⟩ := ih (takeSample s)
      exact ⟨a, b, c, d, e, by simpa [play, takeSample] using h⟩
    | failIfAbsent =>
      by_cases hp : s.pres = true
      · exact ⟨s.drive, s.smp, s.pres, s.sr, s.sp, .inl (by rw [play, if_pos hp])⟩
      · obtain ⟨a, b, c, d, e, h⟩ := ih s
        exact ⟨a, b, c, d, e, by simpa [play, hp] using h⟩
    | hold dr =>
      obtain ⟨a, b, c, d, e, h⟩ := ih (setDrive dr s)
      exact ⟨a, b, c, d, e, h⟩
    | holdIfParasite =>
      by_cases hp : s.parasite = true
      · obtain ⟨a, b, c, d, e, h⟩ := ih (setDrive .high s)
        exact ⟨a, b, c, d, e, by rw [play, if_pos hp]; exact h⟩
      · obtain ⟨a, b, c, d, e, h⟩ := ih s
        exact ⟨a, b, c, d, e, by rw [play, if_neg hp]; exact h⟩
    | send c => exact ⟨s.drive, s.smp, s.pres, s.sr, s.sp, .inr ⟨_, _, rfl⟩⟩
    | drive dr n =>
      cases n with
      | zero =>
        obtain ⟨a, b, c, d, e, h⟩ := ih s
        exact ⟨a, b, c, d, e, by simpa [play] using h⟩
      | succ n =>
        simp only [play, driveTick]
        split
        · exact ⟨dr, s.smp, s.pres, s.sr, s.sp, .inr ⟨_, _, rfl⟩⟩
        · obtain ⟨a, b, c, d, h⟩ := settle_frame rest (setDrive dr s)
          exact ⟨dr, s.smp, b, c, d, .inr ⟨a, 0, h⟩⟩

/-- Where settling leads does not depend on the position and the elapsed ticks the state had. -/
theorem settle_congr (seq : List Prim) (s : State) (l : List Prim) (e : Nat) :
    settle seq (setPosition l e s) = settle seq s := by
  induction seq generalizing s with
  | nil => rfl
  | cons p rest ih =>
    cases p with
    | storePres => exact ih (storePres s)
    | storeSr k => exact ih (storeSr k s)
    | storeSp i => exact ih (storeSp i s)
    | failIfAbsent =>
      by_cases hp : s.pres = true
      · simp [settle, hp, setPosition]
      · simpa [settle, hp] using ih s
    | drive d n =>
      cases n with
      | zero => exact ih s
      | succ n => rfl
    | hold d => rfl
    | holdIfParasite => rfl
    | sample => rfl
    | send c => rfl

/-- Settling does not look at the tick number. -/
theorem settle_tick (seq : List Prim) (s : State) (n : Nat) :
    settle seq (setTick n s) = setTick n (settle seq s) := by
  induction seq generalizing s with
  | nil => rfl
  | cons p rest ih =>
    cases p with
    | storePres => exact ih (storePres s)
    | storeSr k => exact ih (storeSr k s)
    | storeSp i => exact ih (storeSp i s)
    | failIfAbsent =>
      by_cases hp : s.pres = true
      · simp [settle, hp, setPosition, setTick]
      · simpa [settle, hp] using ih s
    | drive d n =>
      cases n with
      | zero => exact ih s
      | succ n => rfl
    | hold d => rfl
    | holdIfParasite => rfl
    | sample => rfl
    | send c => rfl

/-- The results of an operation touch only STATUS, DATA and TEMP. -/
theorem operationResults_frame (s : State) :
    ∃ present' errAbsent' errCrc' data' temp', operationResults s =
      { s with
        present := present', errAbsent := errAbsent', errCrc := errCrc', data := data', temp := temp' } := by
  unfold operationResults finishStartConv finishReadTemp finishScratchpad
  repeat' split
  all_goals exact ⟨_, _, _, _, _, rfl⟩

@[simp] theorem complete_cur (s : State) : (complete s).cur = none := rfl
@[simp] theorem complete_seq (s : State) : (complete s).seq = [] := rfl
@[simp] theorem complete_elapsed (s : State) : (complete s).elapsed = 0 := rfl
@[simp] theorem complete_done (s : State) : (complete s).done = true := rfl
@[simp] theorem complete_present (s : State) :
    (complete s).present = (operationResults s).present := rfl
@[simp] theorem complete_errAbsent (s : State) :
    (complete s).errAbsent = (operationResults s).errAbsent := rfl
@[simp] theorem complete_errCrc (s : State) :
    (complete s).errCrc = (operationResults s).errCrc := rfl
@[simp] theorem complete_data (s : State) : (complete s).data = (operationResults s).data := rfl
@[simp] theorem complete_temp (s : State) : (complete s).temp = (operationResults s).temp := rfl

theorem complete_kept (s : State) :
    (complete s).cfg = s.cfg ∧ (complete s).tick = s.tick ∧ (complete s).levels = s.levels
    ∧ (complete s).agenda = s.agenda ∧ (complete s).rst = s.rst ∧ (complete s).divPhase = s.divPhase
    ∧ (complete s).rdata = s.rdata ∧ (complete s).cmdErr = s.cmdErr
    ∧ (complete s).parasite = s.parasite ∧ (complete s).drive = s.drive := by
  obtain ⟨_, _, _, _, _, h⟩ := operationResults_frame s
  simp [complete, h]

@[simp] theorem complete_cfg (s : State) : (complete s).cfg = s.cfg := (complete_kept s).1
@[simp] theorem complete_tick (s : State) : (complete s).tick = s.tick := (complete_kept s).2.1
@[simp] theorem complete_levels (s : State) : (complete s).levels = s.levels := (complete_kept s).2.2.1
@[simp] theorem complete_agenda (s : State) : (complete s).agenda = s.agenda := (complete_kept s).2.2.2.1
@[simp] theorem complete_rst (s : State) : (complete s).rst = s.rst := (complete_kept s).2.2.2.2.1
@[simp] theorem complete_divPhase (s : State) : (complete s).divPhase = s.divPhase :=
  (complete_kept s).2.2.2.2.2.1
@[simp] theorem complete_rdata (s : State) : (complete s).rdata = s.rdata :=
  (complete_kept s).2.2.2.2.2.2.1
@[simp] theorem complete_cmdErr (s : State) : (complete s).cmdErr = s.cmdErr :=
  (complete_kept s).2.2.2.2.2.2.2.1
@[simp] theorem complete_parasite (s : State) : (complete s).parasite = s.parasite :=
  (complete_kept s).2.2.2.2.2.2.2.2.1
@[simp] theorem complete_drive (s : State) : (complete s).drive = s.drive :=
  (complete_kept s).2.2.2.2.2.2.2.2.2

end Sys2Proof.Machine
end

