-- ==== Sys2Proof/Laws/Step.lean ====
section
/-! SUPPORT. What a step can do, said once. -/

namespace Sys2Proof.Machine

/-- The byte of each command decodes: a fetched command byte is never undecodable. -/
theorem decodeWire_byte (c : WireCmd) : ∃ i, decodeWire c.byte = .ok i := by
  cases c <;> exact ⟨_, rfl⟩

/-- The instruction of a command byte. -/
def WireCmd.instr : WireCmd → Instr
  | .skipRom => .skipRom
  | .convertT => .convertT
  | .readScratchpad => .readScratchpad

theorem decodeWire_byte_eq (c : WireCmd) : decodeWire c.byte = .ok c.instr := by
  cases c <;> rfl

/-- Running a command byte puts its slots at the position. -/
theorem exec_instr (c : WireCmd) (s : State) : exec c.instr s = .next (sendByte c.byte s) := by
  cases c <;> rfl

/-- What a refusable write can do. -/
theorem refusedWhileBusy_cases (f : State → State) (s : State) :
    (s.busy = true ∧ refusedWhileBusy f s = raise .commandError s)
    ∨ (s.busy = false ∧ refusedWhileBusy f s = f s) := by
  unfold refusedWhileBusy
  cases h : s.busy <;> simp

theorem busy_iff (s : State) : s.busy = true ↔ s.cur ≠ none := by
  cases h : s.cur <;> simp [State.busy, h]

theorem idle_iff (s : State) : s.busy = false ↔ s.cur = none := by
  cases h : s.cur <;> simp [State.busy, h]

/-- What running an instruction can do: every instruction answers a next state, one of these. -/
theorem exec_cases (i : Instr) (s : State) :
    ∃ t, exec i s = .next t ∧
      (t = s
      ∨ (∃ r, t = hostRead r s)
      ∨ (t = raise .commandError s)
      ∨ (∃ op, s.cur = none ∧ t = accept op s)
      ∨ (∃ d, i = .wrData d ∧ s.cur = none ∧ t = { s with data := d })
      ∨ (∃ d, i = .wrConfig d ∧ s.cur = none ∧ t = { s with parasite := parasiteOf d })
      ∨ (∃ c : WireCmd, i = c.instr ∧ t = sendByte c.byte s)) := by
  have op_case : ∀ op : Op, ∃ t, Host.Outcome.next (ρ := Refusal) (φ := Fault) (startOperation op s) = .next t ∧
      (t = s ∨ (∃ r, t = hostRead r s) ∨ (t = raise .commandError s)
        ∨ (∃ op, s.cur = none ∧ t = accept op s)
        ∨ (∃ d, i = .wrData d ∧ s.cur = none ∧ t = { s with data := d })
        ∨ (∃ d, i = .wrConfig d ∧ s.cur = none ∧ t = { s with parasite := parasiteOf d })
        ∨ (∃ c : WireCmd, i = c.instr ∧ t = sendByte c.byte s)) := by
    intro op
    refine ⟨_, rfl, ?_⟩
    rcases refusedWhileBusy_cases (accept op) s with ⟨_, h⟩ | ⟨hb, h⟩
    · exact .inr (.inr (.inl h))
    · exact .inr (.inr (.inr (.inl ⟨op, (idle_iff s).1 hb, h⟩)))
  have reserved_case : ∃ t, Host.Outcome.next (ρ := Refusal) (φ := Fault) (reservedOperation s) = .next t ∧
      t = raise .commandError s := by
    refine ⟨_, rfl, ?_⟩
    rcases refusedWhileBusy_cases (raise .commandError) s with ⟨_, h⟩ | ⟨_, h⟩ <;> exact h
  cases i with
  | nop ign =>
    refine ⟨_, rfl, ?_⟩
    rcases refusedWhileBusy_cases id s with ⟨_, h⟩ | ⟨_, h⟩
    · exact .inr (.inr (.inl h))
    · exact .inl h
  | init ign => exact op_case .init
  | reset ign => exact op_case .reset
  | writeBit ign => exact op_case .writeBit
  | readBit ign => exact op_case .readBit
  | writeByte ign => exact op_case .writeByte
  | readByte ign => exact op_case .readByte
  | startConv ign => exact op_case .startConv
  | readTemp ign => exact op_case .readTemp
  | reservedOp9 ign => obtain ⟨t, h, e⟩ := reserved_case; exact ⟨t, h, .inr (.inr (.inl e))⟩
  | reservedOpAB ign lo => obtain ⟨t, h, e⟩ := reserved_case; exact ⟨t, h, .inr (.inr (.inl e))⟩
  | reservedOpCF ign lo => obtain ⟨t, h, e⟩ := reserved_case; exact ⟨t, h, .inr (.inr (.inl e))⟩
  | wrData d =>
    refine ⟨_, rfl, ?_⟩
    rcases refusedWhileBusy_cases (fun t => { t with data := d }) s with ⟨_, h⟩ | ⟨hb, h⟩
    · exact .inr (.inr (.inl h))
    · exact .inr (.inr (.inr (.inr (.inl ⟨d, rfl, (idle_iff s).1 hb, h⟩))))
  | wrConfig d =>
    refine ⟨_, rfl, ?_⟩
    rcases refusedWhileBusy_cases (fun t => { t with parasite := parasiteOf d }) s with ⟨_, h⟩ | ⟨hb, h⟩
    · exact .inr (.inr (.inl h))
    · exact .inr (.inr (.inr (.inr (.inr (.inl ⟨d, rfl, (idle_iff s).1 hb, h⟩)))))
  | wrStatus d => exact ⟨s, rfl, .inl rfl⟩
  | wrTempL d => exact ⟨s, rfl, .inl rfl⟩
  | wrTempH d => exact ⟨s, rfl, .inl rfl⟩
  | wrCdlyL d => exact ⟨s, rfl, .inl rfl⟩
  | wrCdlyH d => exact ⟨s, rfl, .inl rfl⟩
  | rdCtrl d => exact ⟨_, rfl, .inr (.inl ⟨_, rfl⟩)⟩
  | rdStatus d => exact ⟨_, rfl, .inr (.inl ⟨_, rfl⟩)⟩
  | rdData d => exact ⟨_, rfl, .inr (.inl ⟨_, rfl⟩)⟩
  | rdConfig d => exact ⟨_, rfl, .inr (.inl ⟨_, rfl⟩)⟩
  | rdTempL d => exact ⟨_, rfl, .inr (.inl ⟨_, rfl⟩)⟩
  | rdTempH d => exact ⟨_, rfl, .inr (.inl ⟨_, rfl⟩)⟩
  | rdCdlyL d => exact ⟨_, rfl, .inr (.inl ⟨_, rfl⟩)⟩
  | rdCdlyH d => exact ⟨_, rfl, .inr (.inl ⟨_, rfl⟩)⟩
  | skipRom => exact ⟨_, rfl, .inr (.inr (.inr (.inr (.inr (.inr ⟨.skipRom, rfl, rfl⟩)))))⟩
  | convertT => exact ⟨_, rfl, .inr (.inr (.inr (.inr (.inr (.inr ⟨.convertT, rfl, rfl⟩)))))⟩
  | readScratchpad =>
    exact ⟨_, rfl, .inr (.inr (.inr (.inr (.inr (.inr ⟨.readScratchpad, rfl, rfl⟩)))))⟩

/-- A read word decodes to the read of its register. -/
theorem decodeHost_read (w : HostWord) (h : HostWord.isWrite w = false) :
    decodeHost w = decodeRead (Reg.ofOffset (w.extractLsb' 8 3)) (w.extractLsb' 0 8) := by
  simp [decodeHost, h]

/-- Running a read is the host read of its register. -/
theorem exec_read (r : Reg) (d : Byte) (s : State) : exec (decodeRead r d) s = .next (hostRead r s) := by
  cases r <;> rfl

theorem decodeOp_ne_instr (ign op : BitVec 4) (c : WireCmd) : decodeOp ign op ≠ c.instr := by
  unfold decodeOp
  split <;> cases c <;> simp [WireCmd.instr]

/-- No host word decodes to a command byte. -/
theorem decodeHost_ne_instr (w : HostWord) (c : WireCmd) : decodeHost w ≠ c.instr := by
  simp only [decodeHost]
  split
  · unfold decodeWrite
    split <;> first
      | exact decodeOp_ne_instr _ _ c
      | (cases c <;> simp [WireCmd.instr])
  · unfold decodeRead
    split <;> cases c <;> simp [WireCmd.instr]

/-- What can be fetched: the pending host word, or the command byte reached when a tick is next. -/
theorem fetch_cases (s : State) :
    fetch s = none
    ∨ (∃ w rest, s.agenda = .txn w :: rest ∧ ignoredByReset s w = false
        ∧ fetch s = some (.host w, setAgenda rest s))
    ∨ (∃ c rest, (s.agenda = [] ∨ ∃ r, s.agenda = .tick :: r) ∧ s.seq = .send c :: rest
        ∧ fetch s = some (.wire c.byte, setPosition rest s.elapsed s)) := by
  unfold fetch
  split
  · rename_i w rest h
    by_cases hr : ignoredByReset s w = true
    · simp [hr]
    · simp only [Bool.not_eq_true] at hr
      exact .inr (.inl ⟨w, rest, h, hr, by simp [hr]⟩)
  · exact .inl rfl
  · exact .inl rfl
  · exact .inl rfl
  · exact .inl rfl
  all_goals
    split
    · rename_i c rest hs
      refine .inr (.inr ⟨c, rest, ?_, hs, rfl⟩)
      simp [*]
    · exact .inl rfl

/-- One step with admitted parameters: it runs the pending host word, it runs the command byte reached, or the next event
happens. -/
theorem step_cases (s : State) (hl : s.cfg.admitted = true) :
    (∃ w rest, s.agenda = .txn w :: rest ∧ ignoredByReset s w = false
        ∧ step s = exec (decodeHost w) (setAgenda rest s))
    ∨ (∃ c rest, (s.agenda = [] ∨ ∃ r, s.agenda = .tick :: r) ∧ s.seq = .send c :: rest
        ∧ step s = .next (sendByte c.byte (setPosition rest s.elapsed s)))
    ∨ (fetch s = none ∧ step s = .next (nextEvent s)) := by
  rcases fetch_cases s with h | ⟨w, rest, ha, hr, h⟩ | ⟨c, rest, ha, hs, h⟩
  · exact .inr (.inr ⟨h, by simp [step, hl, stepAdmitted, h]⟩)
  · exact .inl ⟨w, rest, ha, hr, by simp [step, hl, stepAdmitted, h, decode]⟩
  · exact .inr (.inl ⟨c, rest, ha, hs, by
      simp [step, hl, stepAdmitted, h, decode, decodeWire_byte_eq, exec_instr]⟩)

/-- Where a step has a next state, the parameters are admitted. -/
theorem admitted_of_step {s t : State} (h : step s = .next t) : s.cfg.admitted = true := by
  unfold step at h
  split at h
  · assumption
  · cases h

end Sys2Proof.Machine
end

