-- ==== Sys2Proof/Laws/Runs.lean ====
section
/-! SUPPORT. Runs: how steps compose, and what a `Drive` of a running operation does over its ticks. -/

namespace Sys2Proof.Machine

/-- 00_scope.md R7 and SP_LEN, as facts. -/
theorem admitted_facts {c : Config} (h : c.admitted = true) :
    1000 ≤ c.tRstl ∧ 480 ≤ c.tRsth ∧ 15 ≤ c.tPds ∧ c.tPds ≤ 240 ∧ c.tPds < c.tRsth
    ∧ 1 ≤ c.tLow1 ∧ c.tLow1 < c.tSlot ∧ 1 ≤ c.tLowr ∧ 1 ≤ c.tRds ∧ c.tLowr + c.tRds < 15
    ∧ c.tLowr + c.tRds < c.tSlot ∧ 1 ≤ c.tRec ∧ c.spLen = 9 := by
  obtain ⟨hl, hw⟩ := Bool.and_eq_true _ _ ▸ h
  obtain ⟨h1, h2, h3, h4, h5, h6, h7, h8, h9, h10, h11, h12⟩ := of_decide_eq_true hl
  exact ⟨h1, h2, h3, h4, h5, h6, h7, h8, h9, h10, h11, h12, (of_decide_eq_true hw).2.2⟩

/-- With admitted parameters READ_TEMP reads nine bytes (43_command_sequencer.md R106). -/
theorem scratchpadRead_nine {c : Config} (h : c.admitted = true) :
    scratchpadRead c = (List.range 9).flatMap (scratchpadByteRead c) := by
  rw [scratchpadRead, (admitted_facts h).2.2.2.2.2.2.2.2.2.2.2.2]

@[simp] theorem steps_zero (s : State) : steps 0 s = .next s := rfl

/-- A run is its first step and the rest. -/
theorem steps_succ (n : Nat) (s : State) :
    steps (n + 1) s =
      (match step s with
        | .next t => steps n t
        | .fault r => .fault r
        | .refused r => .refused r) := rfl

theorem steps_succ_of_step {s t : State} (h : step s = .next t) (n : Nat) : steps (n + 1) s = steps n t := by
  rw [steps_succ, h]

/-- Runs compose. -/
theorem steps_add {s t : State} {m : Nat} (h : steps m s = .next t) (n : Nat) :
    steps (m + n) s = steps n t := by
  induction m generalizing s with
  | zero => cases h; rw [Nat.zero_add]
  | succ m ih =>
    rw [steps_succ] at h
    split at h
    · rename_i u hu
      rw [show m + 1 + n = (m + n) + 1 by omega, steps_succ_of_step hu]
      exact ih h
    · cases h
    · cases h

/-- With nothing pending and no command byte reached, a step is a tick event. -/
theorem step_quiet (s : State) (hl : s.cfg.admitted = true) (ha : s.agenda = [])
    (hs : ∀ c rest, s.seq ≠ .send c :: rest) : step s = .next (tickEvent s) := by
  rcases step_cases s hl with ⟨w, rest, h, _, _⟩ | ⟨c, rest, _, h, _⟩ | ⟨_, h⟩
  · simp [ha] at h
  · exact absurd h (hs c rest)
  · simpa [nextEvent, ha] using h

/-- A command byte that is reached goes to the position, in a step that takes no time. -/
theorem step_send (s : State) (hl : s.cfg.admitted = true) (ha : s.agenda = []) {c : WireCmd} {rest : List Prim}
    (hs : s.seq = .send c :: rest) : step s = .next (sendByte c.byte (setPosition rest s.elapsed s)) := by
  rcases step_cases s hl with ⟨w, r, h, _, _⟩ | ⟨c', r, _, h, h'⟩ | ⟨h, _⟩
  · simp [ha] at h
  · rw [hs] at h
    cases h
    exact h'
  · simp [fetch, ha, hs] at h

/-- A tick inside a `Drive` that is not its last. -/
theorem step_drive_inside (s : State) (hl : s.cfg.admitted = true) (ha : s.agenda = []) (hb : s.busy = true)
    {d : Drive} {n : Nat} {rest : List Prim} (hs : s.seq = .drive d n :: rest) (hk : s.elapsed + 1 < n) :
    step s = .next (setTick (s.tick + 1) (setPosition s.seq (s.elapsed + 1) (setDrive d s))) := by
  rw [step_quiet s hl ha (by simp [hs])]
  obtain ⟨m, rfl⟩ : ∃ m, n = m + 1 := ⟨n - 1, by omega⟩
  simp only [tickEvent, hb, if_true, hs, play, driveTick, hk]

/-- The last tick of a `Drive`: the position settles after it. -/
theorem step_drive_last (s : State) (hl : s.cfg.admitted = true) (ha : s.agenda = []) (hb : s.busy = true)
    {d : Drive} {n : Nat} {rest : List Prim} (hs : s.seq = .drive d n :: rest) (hk : s.elapsed + 1 = n) :
    step s = .next (settle rest (setTick (s.tick + 1) (setDrive d s))) := by
  rw [step_quiet s hl ha (by simp [hs])]
  subst hk
  simp only [tickEvent, hb, if_true, hs, play, driveTick, Nat.lt_irrefl, if_false, settle_tick]

/-- `Drive(d, n)` after its first tick: what k more of its ticks lead to. -/
theorem steps_drive (k : Nat) (s : State) (hl : s.cfg.admitted = true) (ha : s.agenda = []) (hb : s.busy = true)
    {d : Drive} {n : Nat} {rest : List Prim} (hs : s.seq = .drive d n :: rest) (hk : s.elapsed + 1 + k < n) :
    steps (k + 1) s = .next
      (setTick (s.tick + 1 + k) (setPosition s.seq (s.elapsed + 1 + k) (setDrive d s))) := by
  induction k generalizing s with
  | zero => rw [steps_succ_of_step (step_drive_inside s hl ha hb hs (by omega))]; rfl
  | succ k ih =>
    rw [steps_succ_of_step (step_drive_inside s hl ha hb hs (by omega)),
      ih (setTick (s.tick + 1) (setPosition s.seq (s.elapsed + 1) (setDrive d s))) hl ha hb hs
        (show s.elapsed + 1 + 1 + k < n by omega)]
    show Host.Outcome.next (setTick (s.tick + 1 + 1 + k) (setPosition s.seq (s.elapsed + 1 + 1 + k) (setDrive d s))) = _
    rw [show s.tick + 1 + 1 + k = s.tick + 1 + (k + 1) by omega,
      show s.elapsed + 1 + 1 + k = s.elapsed + 1 + (k + 1) by omega]

/-- `Drive(d, n)` from its start to its end, n at least 1. -/
theorem steps_drive_whole (s : State) (hl : s.cfg.admitted = true) (ha : s.agenda = []) (hb : s.busy = true)
    {d : Drive} {n : Nat} {rest : List Prim} (hs : s.seq = .drive d n :: rest) (he : s.elapsed = 0)
    (hn : 1 ≤ n) :
    steps n s = .next (settle rest (setTick (s.tick + n) (setDrive d s))) := by
  obtain ⟨m, rfl⟩ : ∃ m, n = m + 1 := ⟨n - 1, by omega⟩
  cases m with
  | zero => rw [steps_succ_of_step (step_drive_last s hl ha hb hs (by omega))]; rfl
  | succ k =>
    rw [steps_add (steps_drive k s hl ha hb hs (by omega)) 1,
      steps_succ_of_step (step_drive_last
        (setTick (s.tick + 1 + k) (setPosition s.seq (s.elapsed + 1 + k) (setDrive d s))) hl ha hb hs
        (show s.elapsed + 1 + k + 1 = k + 1 + 1 by omega)),
      steps_zero, ← settle_congr rest (setTick (s.tick + (k + 1 + 1)) (setDrive d s)) s.seq (s.elapsed + 1 + k),
      show s.tick + (k + 1 + 1) = s.tick + 1 + k + 1 by omega]
    rfl

/-- A sample is taken at the tick of the primitive after it. -/
theorem step_sample (s : State) (hl : s.cfg.admitted = true) (ha : s.agenda = []) (hb : s.busy = true)
    {d : Drive} {n : Nat} {rest : List Prim} (hs : s.seq = .sample :: .drive d n :: rest) (hn : 1 ≤ n) :
    step s = step (setPosition (.drive d n :: rest) s.elapsed (takeSample s)) := by
  rw [step_quiet s hl ha (by simp [hs]),
    step_quiet (setPosition (.drive d n :: rest) s.elapsed (takeSample s)) hl ha (by simp)]
  obtain ⟨m, rfl⟩ : ∃ m, n = m + 1 := ⟨n - 1, by omega⟩
  have hb' : (setPosition (.drive d (m + 1) :: rest) s.elapsed (takeSample s)).busy = true := hb
  unfold tickEvent
  rw [if_pos hb, if_pos hb', hs]
  show Host.Outcome.next (setTick (s.tick + 1) (if s.elapsed + 1 < m + 1 then _ else _))
    = Host.Outcome.next (setTick (s.tick + 1) (if s.elapsed + 1 < m + 1 then _ else _))
  by_cases hk : s.elapsed + 1 < m + 1
  · rw [if_pos hk, if_pos hk]; rfl
  · rw [if_neg hk, if_neg hk, ← settle_congr rest (setDrive d (takeSample s)) (.drive d (m + 1) :: rest) s.elapsed]
    rfl

end Sys2Proof.Machine
end

