-- ==== Sys2Proof/Laws/HostSide.lean ====
section
/-! SUPPORT. CMD_ERR, h_rdata, the divider's phase and the outside world's queue stand aside: what an operation does at a
tick neither looks at them nor changes them (45_host_control.md R124). -/

namespace Sys2Proof.Machine

/-- The state with another host side. -/
def aside (c : Bool) (r : Byte) (p : Nat) (l : List Event) (s : State) : State :=
  { s with cmdErr := c, rdata := r, divPhase := p, agenda := l }

theorem settle_aside (seq : List Prim) (c : Bool) (r : Byte) (p : Nat) (l : List Event) (s : State) :
    settle seq (aside c r p l s) = aside c r p l (settle seq s) := by
  induction seq generalizing s with
  | nil => rfl
  | cons q rest ih =>
    cases q with
    | storePres => exact ih (storePres s)
    | storeSr k => exact ih (storeSr k s)
    | storeSp i => exact ih (storeSp i s)
    | failIfAbsent =>
      by_cases hp : s.pres = true
      · rw [settle, settle, if_pos hp, if_pos (show (aside c r p l s).pres = true from hp)]; rfl
      · rw [settle, settle, if_neg hp, if_neg (show ¬(aside c r p l s).pres = true from hp)]; exact ih s
    | drive d n =>
      cases n with
      | zero => exact ih s
      | succ n => rfl
    | hold d => rfl
    | holdIfParasite => rfl
    | sample => rfl
    | send b => rfl

theorem finishScratchpad_aside (c : Bool) (r : Byte) (p : Nat) (l : List Event) (s : State) :
    finishScratchpad (aside c r p l s) = aside c r p l (finishScratchpad s) := by
  unfold finishScratchpad
  change (match decodeScratchpad s.cfg.crcTable s.sp with
    | some t => { aside c r p l s with temp := t }
    | none => raise .integrityFailure (aside c r p l s)) = _
  cases decodeScratchpad s.cfg.crcTable s.sp <;> rfl

theorem complete_aside (c : Bool) (r : Byte) (p : Nat) (l : List Event) (s : State) :
    complete (aside c r p l s) = aside c r p l (complete s) := by
  have key : operationResults (aside c r p l s) = aside c r p l (operationResults s) := by
    unfold operationResults
    rw [show (aside c r p l s).cur = s.cur from rfl]
    cases s.cur with
    | none => rfl
    | some op =>
      cases op with
      | startConv =>
        change (if s.pres then _ else _) = aside c r p l (if s.pres then _ else _)
        split <;> rfl
      | readTemp =>
        change (if s.pres then _ else finishScratchpad (aside c r p l (setPresentFromSample s)))
          = aside c r p l (if s.pres then _ else _)
        rw [finishScratchpad_aside]
        split <;> rfl
      | _ => rfl
  unfold complete
  rw [key]
  rfl

theorem play_aside (seq : List Prim) (c : Bool) (r : Byte) (p : Nat) (l : List Event) (s : State) :
    play seq (aside c r p l s) = aside c r p l (play seq s) := by
  induction seq generalizing s with
  | nil => exact complete_aside c r p l s
  | cons q rest ih =>
    cases q with
    | storePres => exact ih (storePres s)
    | storeSr k => exact ih (storeSr k s)
    | storeSp i => exact ih (storeSp i s)
    | sample => exact ih (takeSample s)
    | hold d => exact ih (setDrive d s)
    | holdIfParasite =>
      have h := ih (if s.parasite then setDrive .high s else s)
      rw [show aside c r p l (if s.parasite then setDrive .high s else s)
        = if s.parasite then setDrive .high (aside c r p l s) else aside c r p l s by split <;> rfl] at h
      exact h
    | failIfAbsent =>
      by_cases hp : s.pres = true
      · rw [play, play, if_pos hp, if_pos (show (aside c r p l s).pres = true from hp), complete_aside]
      · rw [play, play, if_neg hp, if_neg (show ¬(aside c r p l s).pres = true from hp)]; exact ih s
    | send b => rfl
    | drive d n =>
      cases n with
      | zero => exact ih s
      | succ n =>
        simp only [play, driveTick]
        rw [show (aside c r p l s).elapsed = s.elapsed from rfl]
        split
        · rfl
        · exact settle_aside rest c r p l (setDrive d s)

/-- A tick event neither looks at the host side nor changes it. -/
theorem tickEvent_aside (c : Bool) (r : Byte) (p : Nat) (l : List Event) (s : State) :
    tickEvent (aside c r p l s) = aside c r p l (tickEvent s) := by
  unfold tickEvent
  rw [show (aside c r p l s).busy = s.busy from rfl, show (aside c r p l s).seq = s.seq from rfl, play_aside]
  cases s.busy <;> rfl

/-- So a tick event keeps it. -/
theorem tickEvent_hostSide (s : State) :
    tickEvent s = aside s.cmdErr s.rdata s.divPhase s.agenda (tickEvent s) :=
  tickEvent_aside s.cmdErr s.rdata s.divPhase s.agenda s

/-- Nor does a command byte. -/
theorem sendByte_aside (v : Byte) (c : Bool) (r : Byte) (p : Nat) (l : List Event) (s : State) :
    sendByte v (aside c r p l s) = aside c r p l (sendByte v s) := rfl

/-- `x` is `t` but for CMD_ERR and h_rdata, and it has not lost CMD_ERR. -/
def SameAside (t x : State) : Prop :=
  ∃ c r, (t.cmdErr = true → c = true) ∧ x = aside c r t.divPhase t.agenda t

theorem SameAside.refl (s : State) : SameAside s s := ⟨s.cmdErr, s.rdata, id, rfl⟩

/-- A refusable write keeps two states so, if its effect in an idle block does. -/
theorem refusedWhileBusy_aside {f : State → State} {s x : State} (h : SameAside s x)
    (hf : SameAside (f s) (f x)) : SameAside (refusedWhileBusy f s) (refusedWhileBusy f x) := by
  obtain ⟨c, r, hc, rfl⟩ := h
  unfold refusedWhileBusy
  rw [show (aside c r s.divPhase s.agenda s).busy = s.busy from rfl]
  cases s.busy with
  | false => exact hf
  | true => exact ⟨true, r, fun _ => rfl, rfl⟩

/-- Running an instruction keeps two states so. -/
theorem exec_aside (i : Instr) {s x : State} (h : SameAside s x) :
    ∃ t y, exec i s = .next t ∧ exec i x = .next y ∧ SameAside t y := by
  have h' := h
  obtain ⟨c, r, hc, rfl⟩ := h'
  have op_case : ∀ op, SameAside (startOperation op s) (startOperation op (aside c r s.divPhase s.agenda s)) :=
    fun op => refusedWhileBusy_aside h ⟨false, r, by simp [accept], by cases op <;> rfl⟩
  have reserved_case : SameAside (reservedOperation s) (reservedOperation (aside c r s.divPhase s.agenda s)) :=
    refusedWhileBusy_aside h ⟨true, r, fun _ => rfl, rfl⟩
  cases i with
  | nop ign => exact ⟨_, _, rfl, rfl, refusedWhileBusy_aside h h⟩
  | init ign => exact ⟨_, _, rfl, rfl, op_case .init⟩
  | reset ign => exact ⟨_, _, rfl, rfl, op_case .reset⟩
  | writeBit ign => exact ⟨_, _, rfl, rfl, op_case .writeBit⟩
  | readBit ign => exact ⟨_, _, rfl, rfl, op_case .readBit⟩
  | writeByte ign => exact ⟨_, _, rfl, rfl, op_case .writeByte⟩
  | readByte ign => exact ⟨_, _, rfl, rfl, op_case .readByte⟩
  | startConv ign => exact ⟨_, _, rfl, rfl, op_case .startConv⟩
  | readTemp ign => exact ⟨_, _, rfl, rfl, op_case .readTemp⟩
  | reservedOp9 ign => exact ⟨_, _, rfl, rfl, reserved_case⟩
  | reservedOpAB ign lo => exact ⟨_, _, rfl, rfl, reserved_case⟩
  | reservedOpCF ign lo => exact ⟨_, _, rfl, rfl, reserved_case⟩
  | wrData d => exact ⟨_, _, rfl, rfl, refusedWhileBusy_aside h ⟨c, r, hc, rfl⟩⟩
  | wrConfig d => exact ⟨_, _, rfl, rfl, refusedWhileBusy_aside h ⟨c, r, hc, rfl⟩⟩
  | wrStatus d => exact ⟨_, _, rfl, rfl, h⟩
  | wrTempL d => exact ⟨_, _, rfl, rfl, h⟩
  | wrTempH d => exact ⟨_, _, rfl, rfl, h⟩
  | wrCdlyL d => exact ⟨_, _, rfl, rfl, h⟩
  | wrCdlyH d => exact ⟨_, _, rfl, rfl, h⟩
  | rdCtrl d => exact ⟨_, _, rfl, rfl, c, _, hc, rfl⟩
  | rdStatus d => exact ⟨_, _, rfl, rfl, c, _, hc, rfl⟩
  | rdData d => exact ⟨_, _, rfl, rfl, c, _, hc, rfl⟩
  | rdConfig d => exact ⟨_, _, rfl, rfl, c, _, hc, rfl⟩
  | rdTempL d => exact ⟨_, _, rfl, rfl, c, _, hc, rfl⟩
  | rdTempH d => exact ⟨_, _, rfl, rfl, c, _, hc, rfl⟩
  | rdCdlyL d => exact ⟨_, _, rfl, rfl, c, _, hc, rfl⟩
  | rdCdlyH d => exact ⟨_, _, rfl, rfl, c, _, hc, rfl⟩
  | skipRom => exact ⟨_, _, rfl, rfl, c, r, hc, rfl⟩
  | convertT => exact ⟨_, _, rfl, rfl, c, r, hc, rfl⟩
  | readScratchpad => exact ⟨_, _, rfl, rfl, c, r, hc, rfl⟩

/-- A word fetched from one is fetched from the other. -/
theorem fetch_aside {s x : State} (h : SameAside s x) :
    (fetch s = none ∧ fetch x = none)
    ∨ ∃ w t y, fetch s = some (w, t) ∧ fetch x = some (w, y) ∧ SameAside t y := by
  obtain ⟨c, r, hc, rfl⟩ := h
  have position : ∀ a, s.agenda = a → (a = [] ∨ ∃ l, a = .tick :: l) →
      (fetch s = none ∧ fetch (aside c r s.divPhase s.agenda s) = none)
      ∨ ∃ w t y, fetch s = some (w, t) ∧ fetch (aside c r s.divPhase s.agenda s) = some (w, y) ∧ SameAside t y := by
    intro a ha hl
    unfold fetch
    rw [show (aside c r s.divPhase s.agenda s).agenda = s.agenda from rfl,
      show (aside c r s.divPhase s.agenda s).seq = s.seq from rfl, ha]
    rcases hl with rfl | ⟨l, rfl⟩
    all_goals
      cases s.seq with
      | nil => exact .inl ⟨rfl, rfl⟩
      | cons q rest =>
        cases q with
        | send b => exact .inr ⟨_, _, _, rfl, rfl, c, r, hc, by simp only [aside, setPosition, ha]⟩
        | _ => exact .inl ⟨rfl, rfl⟩
  cases ha : s.agenda with
  | nil => exact ha ▸ position _ ha (.inl rfl)
  | cons e l =>
    cases e with
    | tick => exact ha ▸ position _ ha (.inr ⟨l, rfl⟩)
    | txn w =>
      have hi : ignoredByReset (aside c r s.divPhase (.txn w :: l) s) w = ignoredByReset s w := rfl
      unfold fetch
      rw [ha, show (aside c r s.divPhase (.txn w :: l) s).agenda = .txn w :: l from rfl]
      simp only [hi]
      cases ignoredByReset s w with
      | true => exact .inl ⟨rfl, rfl⟩
      | false => exact .inr ⟨_, _, _, rfl, rfl, c, r, hc, rfl⟩
    | _ => exact .inl ⟨by rw [fetch, ha], rfl⟩

/-- The event that comes next keeps two states so. -/
theorem nextEvent_aside {s x : State} (h : SameAside s x) : SameAside (nextEvent s) (nextEvent x) := by
  obtain ⟨c, r, hc, rfl⟩ := h
  have tick : ∀ l, SameAside (tickEvent (setAgenda l s)) (tickEvent (aside c r s.divPhase l s)) := by
    intro l
    have h := tickEvent_hostSide (setAgenda l s)
    have k := tickEvent_aside c r s.divPhase l s
    have e := tickEvent_aside c r s.divPhase l (setAgenda l s)
    change tickEvent (aside c r s.divPhase l s) = _ at e
    exact ⟨c, r, by rw [h]; exact hc, by rw [e, h]; rfl⟩
  unfold nextEvent
  rw [show (aside c r s.divPhase s.agenda s).agenda = s.agenda from rfl]
  cases ha : s.agenda with
  | nil =>
    have := tick []
    rwa [show setAgenda [] s = s by rw [← ha]; rfl] at this
  | cons e l =>
    cases e with
    | tick => exact tick l
    | txn w => exact ⟨c, r, hc, rfl⟩
    | clk =>
      simp only [clockEdge]
      change SameAside (if s.divPhase + 1 < s.cfg.clksPerUs then _ else _) (if s.divPhase + 1 < s.cfg.clksPerUs then _ else _)
      split <;> exact ⟨c, r, hc, rfl⟩
    | reset => exact ⟨false, r, by simp, rfl⟩
    | rstHold => exact ⟨false, r, by simp, rfl⟩
    | rstRelease => exact ⟨c, r, hc, rfl⟩

/-- A step, and so a run of any length and with any events, keeps two states so. -/
theorem step_aside {s x t : State} (h : SameAside s x) (hs : step s = .next t) :
    ∃ y, step x = .next y ∧ SameAside t y := by
  have hl := admitted_of_step hs
  have hl' : x.cfg.admitted = true := by
    obtain ⟨c, r, _, rfl⟩ := h
    exact hl
  rw [step, if_pos hl, stepAdmitted] at hs
  rw [step, if_pos hl', stepAdmitted]
  rcases fetch_aside h with ⟨e, e'⟩ | ⟨w, u, z, e, e', k⟩
  · rw [e] at hs
    cases hs
    exact ⟨_, by rw [e'], nextEvent_aside h⟩
  · rw [e] at hs
    rw [e']
    simp only at hs ⊢
    cases hd : decode w with
    | error _ => rw [hd] at hs; cases hs
    | ok i =>
      rw [hd] at hs
      obtain ⟨t', y, h1, h2, h3⟩ := exec_aside i k
      simp only [h1] at hs
      cases hs
      exact ⟨y, h2, h3⟩

theorem steps_aside (n : Nat) {s x t : State} (h : SameAside s x) (hs : steps n s = .next t) :
    ∃ y, steps n x = .next y ∧ SameAside t y := by
  induction n generalizing s x with
  | zero => cases hs; exact ⟨x, rfl, h⟩
  | succ n ih =>
    rw [steps_succ] at hs
    split at hs
    · rename_i u hu
      obtain ⟨z, hz, k⟩ := step_aside h hu
      obtain ⟨y, hy, e⟩ := ih k hs
      exact ⟨y, by rw [steps_succ_of_step hz, hy], e⟩
    · cases hs
    · cases hs

end Sys2Proof.Machine
end

