-- ==== Sys2Proof/Laws/Invariant.lean ====
section
/-! SUPPORT. What the invariant says of positions, and what keeps it. -/

namespace Sys2Proof.Machine

/-- A position keeps the line discipline from the drive state on, and is its operation's own. -/
def PositionFits (s : State) (seq : List Prim) : Prop :=
  lineDiscipline s.drive seq = true ∧ seq.all (ownPrimitive s.cur) = true

/-- Settling keeps a position fitting, and leaves it settled at the start of its primitive. -/
theorem settle_fits (seq : List Prim) (s : State) (h : PositionFits s seq) :
    PositionFits s (settle seq s).seq ∧ settled (settle seq s).seq = true
    ∧ elapsedFits (settle seq s).seq 0 = true ∧ (settle seq s).elapsed = 0 := by
  induction seq generalizing s with
  | nil => exact ⟨h, rfl, rfl, rfl⟩
  | cons p rest ih =>
    have h0 := h
    obtain ⟨h1, h2⟩ := h
    simp only [List.all_cons, Bool.and_eq_true] at h2
    cases p with
    | storePres => exact ih (storePres s) ⟨by simpa [lineDiscipline] using h1, h2.2⟩
    | storeSr k => exact ih (storeSr k s) ⟨by simpa [lineDiscipline] using h1, h2.2⟩
    | storeSp i => exact ih (storeSp i s) ⟨by simpa [lineDiscipline] using h1, h2.2⟩
    | failIfAbsent =>
      simp only [lineDiscipline, Bool.and_eq_true] at h1
      by_cases hp : s.pres = true
      · rw [show settle (.failIfAbsent :: rest) s = setPosition [] 0 s by rw [settle, if_pos hp]]
        exact ⟨⟨by simpa [lineDiscipline] using h1.1, List.all_nil⟩, rfl, rfl, rfl⟩
      · simp only [settle, hp]
        exact ih s ⟨h1.2, h2.2⟩
    | drive d n =>
      cases n with
      | zero => exact ih s ⟨by simpa [lineDiscipline] using h1, h2.2⟩
      | succ n => exact ⟨h0, rfl, rfl, rfl⟩
    | hold d => exact ⟨h0, rfl, rfl, rfl⟩
    | holdIfParasite => exact ⟨h0, rfl, rfl, rfl⟩
    | sample => exact ⟨h0, rfl, rfl, rfl⟩
    | send c => exact ⟨h0, rfl, rfl, rfl⟩

/-- What a tick of an operation leads to: completion with the line not LOW, or a fitting position; the flags kept. -/
def PlayFits (s t : State) : Prop :=
  (∃ u, t = complete u ∧ u.drive ≠ .low ∧ u.cur = s.cur ∧ u.present = s.present ∧ u.errAbsent = s.errAbsent
     ∧ u.errCrc = s.errCrc ∧ u.rst = s.rst)
  ∨ (PositionFits t t.seq ∧ settled t.seq = true ∧ elapsedFits t.seq t.elapsed = true ∧ t.cur = s.cur ∧ t.done = s.done
     ∧ t.errAbsent = s.errAbsent
     ∧ t.errCrc = s.errCrc ∧ t.present = s.present ∧ t.rst = s.rst)

/-- A tick of an operation at a fitting position. -/
theorem play_fits (seq : List Prim) (s : State) (h : PositionFits s seq) (he : elapsedFits seq s.elapsed = true) :
    PlayFits s (play seq s) := by
  induction seq generalizing s with
  | nil => exact .inl ⟨s, rfl, by simpa [PositionFits, lineDiscipline] using h.1, rfl, rfl, rfl, rfl, rfl⟩
  | cons p rest ih =>
    have h0 := h
    obtain ⟨h1, h2⟩ := h
    simp only [List.all_cons, Bool.and_eq_true] at h2
    have he0 : (∀ d n, p ≠ .drive d n) → elapsedFits rest s.elapsed = true := by
      intro hn
      have : s.elapsed = 0 := by
        cases p <;> simp_all [elapsedFits]
      rw [this]; cases rest with | nil => rfl | cons q r => cases q <;> rfl
    cases p with
    | storePres => exact ih (storePres s) ⟨by simpa [lineDiscipline] using h1, h2.2⟩ (he0 (by simp))
    | storeSr k => exact ih (storeSr k s) ⟨by simpa [lineDiscipline] using h1, h2.2⟩ (he0 (by simp))
    | storeSp i => exact ih (storeSp i s) ⟨by simpa [lineDiscipline] using h1, h2.2⟩ (he0 (by simp))
    | sample =>
      simp only [lineDiscipline, Bool.and_eq_true] at h1
      exact ih (takeSample s) ⟨h1.2, h2.2⟩ (he0 (by simp))
    | failIfAbsent =>
      simp only [lineDiscipline, Bool.and_eq_true] at h1
      by_cases hp : s.pres = true
      · rw [play, if_pos hp]
        exact .inl ⟨s, rfl, by simpa using h1.1, rfl, rfl, rfl, rfl, rfl⟩
      · rw [play, if_neg hp]
        exact ih s ⟨h1.2, h2.2⟩ (he0 (by simp))
    | hold d =>
      simp only [lineDiscipline, Bool.and_eq_true] at h1
      have hr : rest = [] := by simpa using h1.1
      subst hr
      exact ih (setDrive d s) ⟨by simpa [lineDiscipline] using h1.2, rfl⟩ (he0 (by simp))
    | holdIfParasite =>
      simp only [lineDiscipline, Bool.and_eq_true] at h1
      have hr : rest = [] := by simpa using h1.1
      subst hr
      simp only [play]
      refine .inl ⟨_, rfl, ?_, ?_⟩
      · split <;> simp_all
      · split <;> simp
    | send c => exact .inr ⟨h0, rfl, rfl, rfl, rfl, rfl, rfl, rfl, rfl⟩
    | drive d n =>
      cases n with
      | zero =>
        refine ih s ⟨by simpa [lineDiscipline] using h1, h2.2⟩ ?_
        have : s.elapsed = 0 := by simpa [elapsedFits] using he
        rw [this]; cases rest with | nil => rfl | cons q r => cases q <;> rfl
      | succ n =>
        simp only [play, driveTick]
        split
        · rename_i hlt
          exact .inr ⟨⟨by simpa [lineDiscipline] using h1, by simpa using h2⟩,
            rfl, by simp [elapsedFits, hlt], rfl, rfl, rfl, rfl, rfl, rfl⟩
        · have := settle_fits rest (setDrive d s) ⟨by simpa [lineDiscipline] using h1, h2.2⟩
          obtain ⟨a, b, c, e, hs⟩ := settle_frame rest (setDrive d s)
          rw [hs] at this ⊢
          exact .inr ⟨this.1, this.2.1, this.2.2.1, rfl, rfl, rfl, rfl, rfl, rfl⟩

/-- A tick of a `Drive` does not complete the operation. -/
theorem play_drive (d : Drive) (n : Nat) (rest : List Prim) (s : State) :
    (play (.drive d (n + 1) :: rest) s).cur = s.cur ∧ (play (.drive d (n + 1) :: rest) s).temp = s.temp := by
  simp only [play, driveTick]
  split
  · exact ⟨rfl, rfl⟩
  · obtain ⟨_, _, _, _, e⟩ := settle_frame rest (setDrive d s)
    rw [e]
    exact ⟨rfl, rfl⟩

/-- After a sample with the line held released the operation goes on: it does not complete at that tick. -/
theorem play_staysReleased (seq : List Prim) (s : State) (h : staysReleased seq = true) :
    (play seq s).cur = s.cur ∧ (play seq s).temp = s.temp := by
  induction seq generalizing s with
  | nil => cases h
  | cons q rest ih =>
    cases q with
    | drive d n =>
      cases n with
      | zero => exact ih s h
      | succ n => exact play_drive d n rest s
    | _ => cases h

/-- A tick of an operation at a settled position: it completes with the bytes it has read, or it does not complete. -/
theorem play_settled (seq : List Prim) (s : State) (h : settled seq = true) (hl : lineDiscipline s.drive seq = true) :
    (∃ d, play seq s = complete (setDrive d s)) ∨ (play seq s).cur = s.cur ∧ (play seq s).temp = s.temp := by
  cases seq with
  | nil => exact .inl ⟨s.drive, rfl⟩
  | cons q rest =>
    cases q with
    | drive d n =>
      cases n with
      | zero => cases h
      | succ n => exact .inr (play_drive d n rest s)
    | hold d =>
      simp only [lineDiscipline, Bool.and_eq_true, List.isEmpty_iff] at hl
      rw [hl.1]
      exact .inl ⟨d, rfl⟩
    | holdIfParasite =>
      simp only [lineDiscipline, Bool.and_eq_true, List.isEmpty_iff] at hl
      rw [hl.1]
      refine .inl ⟨if s.parasite then .high else s.drive, ?_⟩
      simp only [play]
      split <;> rfl
    | sample =>
      simp only [lineDiscipline, Bool.and_eq_true] at hl
      exact .inr (play_staysReleased rest (takeSample s) hl.1.2)
    | send c => exact .inr ⟨rfl, rfl⟩
    | _ => cases h

/-- Completion with the line not LOW and no error yet gives a state that meets the invariant. -/
theorem complete_inv (u : State) (hd : u.drive ≠ .low) (hr : u.rst = false)
   (ha : u.errAbsent = false) (hc : u.errCrc = false) : Inv (complete u) := by
  constructor
  · intro; simp
  · simp [settled]
  · simp [elapsedFits]
  · simp [lineDiscipline, hd]
  · simp
  · simp
  · simp only [complete_errAbsent, complete_done, complete_present]
    unfold operationResults finishStartConv finishReadTemp finishScratchpad
    repeat' split
    all_goals simp_all [setPresentFromSample, raise, setErrorFlag, finishInit, finishReset, finishReadBit, finishReadByte]
  · simp only [complete_errCrc, complete_done, complete_present]
    unfold operationResults finishStartConv finishReadTemp finishScratchpad
    repeat' split
    all_goals simp_all [setPresentFromSample, raise, setErrorFlag, finishInit, finishReset, finishReadBit, finishReadByte]
  · simp [hr]

/-- Write slots leave the line released, whatever it was. -/
theorem lineDiscipline_slots (c : Config) (hc : c.admitted = true) (bs : List Bool) (d : Drive) (rest : List Prim)
    (hne : bs ≠ []) :
    lineDiscipline d (bs.flatMap (slotWrite c) ++ rest) = lineDiscipline .rel rest := by
  have := admitted_facts hc
  obtain ⟨r, hr⟩ : ∃ r, c.tRec = r + 1 := ⟨c.tRec - 1, by omega⟩
  induction bs generalizing d with
  | nil => exact absurd rfl hne
  | cons b bs ih =>
    have key : ∀ l, lineDiscipline d (slotWrite c b ++ l) = lineDiscipline .rel l := by
      intro l
      obtain ⟨x, hx⟩ : ∃ x, c.tLow1 = x + 1 := ⟨c.tLow1 - 1, by omega⟩
      obtain ⟨y, hy⟩ : ∃ y, c.tSlot = y + 1 := ⟨c.tSlot - 1, by omega⟩
      obtain ⟨z, hz⟩ : ∃ z, c.tSlot - c.tLow1 = z + 1 := ⟨c.tSlot - c.tLow1 - 1, by omega⟩
      cases b
      · simp [slotWrite, slotWrite0, hr, lineDiscipline, hy]
      · simp only [slotWrite, slotWrite1, hr, if_true, List.cons_append, List.nil_append, hx, lineDiscipline]
        rw [show c.tSlot - (x+1) = z + 1 by omega]
        simp [lineDiscipline]
    simp only [List.flatMap_cons, List.append_assoc]
    rw [key]
    by_cases hb : bs = []
    · subst hb; simp
    · exact ih _ hb


/-- Write slots are any operation's own. -/
theorem ownPrimitive_slots (c : Config) (bs : List Bool) (cur : Option Op) :
    (bs.flatMap (slotWrite c)).all (ownPrimitive cur) = true := by
  simp only [List.all_flatMap]
  simp [slotWrite, slotWrite0, slotWrite1, ownPrimitive]

/-- A write slot begins with a LOW that takes ticks. -/
theorem slotWrite_settled (c : Config) (hc : c.admitted = true) (v : Bool) (rest : List Prim) :
    settled (slotWrite c v ++ rest) = true := by
  have F := admitted_facts hc
  obtain ⟨x, hx⟩ : ∃ x, c.tLow1 = x + 1 := ⟨c.tLow1 - 1, by omega⟩
  obtain ⟨y, hy⟩ : ∃ y, c.tSlot = y + 1 := ⟨c.tSlot - 1, by omega⟩
  cases v
  · simp [slotWrite, slotWrite0, hy, settled]
  · simp [slotWrite, slotWrite1, hx, settled]

/-- So does a byte. -/
theorem byteWrite_settled (c : Config) (hc : c.admitted = true) (v : Byte) (rest : List Prim) :
    settled (byteWrite c v ++ rest) = true := by
  obtain ⟨b, bs, h⟩ : ∃ b bs, bitsLsbFirst v = b :: bs := ⟨_, _, rfl⟩
  rw [byteWrite, h, List.flatMap_cons, List.append_assoc]
  exact slotWrite_settled c hc _ _

/-- Every procedure fits, from a line that is not LOW. -/
theorem procedure_fits (op : Op) (s : State) (hc : s.cfg.admitted = true) :
    lineDiscipline s.drive (procedure op s) = true ∧ (procedure op s).all (ownPrimitive (some op)) = true
    ∧ elapsedFits (procedure op s) 0 = true ∧ settled (procedure op s) = true := by
  have F := admitted_facts hc
  have ne8 : ∀ v, bitsLsbFirst v ≠ [] := by intro v; simp [bitsLsbFirst]
  have pre : ∀ d l, lineDiscipline d (resetPresence s.cfg ++ l) = lineDiscipline .rel l := by
    intro d l
    obtain ⟨a, ha⟩ : ∃ a, s.cfg.tRstl = a + 1 := ⟨s.cfg.tRstl - 1, by omega⟩
    obtain ⟨b, hb⟩ : ∃ b, s.cfg.tPds = b + 1 := ⟨s.cfg.tPds - 1, by omega⟩
    obtain ⟨e, he⟩ : ∃ e, s.cfg.tRsth - s.cfg.tPds = e + 1 := ⟨s.cfg.tRsth - s.cfg.tPds - 1, by omega⟩
    simp only [resetPresence, List.cons_append, List.nil_append, ha, hb, lineDiscipline]
    rw [show s.cfg.tRsth - (b+1) = e + 1 by omega]
    simp [lineDiscipline, staysReleased]
  have rd : ∀ d l, lineDiscipline d (slotRead s.cfg ++ l) = lineDiscipline .rel l := by
    intro d l
    obtain ⟨a, ha⟩ : ∃ a, s.cfg.tLowr = a + 1 := ⟨s.cfg.tLowr - 1, by omega⟩
    obtain ⟨b, hb⟩ : ∃ b, s.cfg.tRds = b + 1 := ⟨s.cfg.tRds - 1, by omega⟩
    obtain ⟨r, hr⟩ : ∃ r, s.cfg.tRec = r + 1 := ⟨s.cfg.tRec - 1, by omega⟩
    obtain ⟨e, he⟩ : ∃ e, s.cfg.tSlot - s.cfg.tLowr - s.cfg.tRds = e + 1 :=
      ⟨s.cfg.tSlot - s.cfg.tLowr - s.cfg.tRds - 1, by omega⟩
    simp only [slotRead, List.cons_append, List.nil_append, hr, ha, hb, lineDiscipline]
    rw [show s.cfg.tSlot - (a+1) - (b+1) = e + 1 by omega]
    simp [lineDiscipline, staysReleased]
  have rb : ∀ l, lineDiscipline .rel (byteRead s.cfg ++ l) = lineDiscipline .rel l := by
    intro l
    simp [byteRead, bitRead, List.range_succ, rd, lineDiscipline]
  have rb' : ∀ d l, lineDiscipline d (byteRead s.cfg ++ l) = lineDiscipline .rel l := by
    intro d l
    simp [byteRead, bitRead, List.range_succ, rd, lineDiscipline]
  have srd : lineDiscipline .rel (scratchpadRead s.cfg) = true := by
    rw [scratchpadRead_nine hc]
    simp [scratchpadByteRead, List.range_succ, rb, lineDiscipline]
  have ef : ∀ l, elapsedFits l 0 = true := by intro l; cases l with | nil => rfl | cons q r => cases q <;> rfl
  have ownrd : ∀ cur, (byteRead s.cfg).all (ownPrimitive cur) = true := by
    intro cur; simp [byteRead, bitRead, slotRead, List.range_succ, ownPrimitive]
  have pos : ∀ {n : Nat} {d : Drive} {l : List Prim}, 1 ≤ n → settled (.drive d n :: l) = true := by
    intro n d l h; obtain ⟨m, rfl⟩ : ∃ m, n = m + 1 := ⟨n - 1, by omega⟩; rfl
  refine ⟨?_, ?_, ef _, ?_⟩
  · cases op with
    | init => simp [procedure, lineDiscipline]
    | reset =>
      have := pre s.drive []
      simp only [List.append_nil] at this
      exact this
    | writeBit =>
      have := lineDiscipline_slots s.cfg hc [s.dataBit] s.drive [] (by simp)
      simp only [List.flatMap_cons, List.flatMap_nil, List.append_nil] at this
      exact this
    | readBit =>
      have := rd s.drive []
      simp only [List.append_nil] at this
      exact this
    | writeByte =>
      have := lineDiscipline_slots s.cfg hc (bitsLsbFirst s.data) s.drive [] (ne8 _)
      simp only [List.append_nil] at this
      exact this
    | readByte =>
      have := rb' s.drive []
      simp only [List.append_nil] at this
      exact this
    | startConv =>
      simp only [procedure, startConvProcedure, preface, List.append_assoc, pre]
      simp [lineDiscipline]
    | readTemp =>
      simp only [procedure, readTempProcedure, preface, List.append_assoc, pre]
      simp [lineDiscipline, srd]
  · cases op with
    | init => simp [procedure, ownPrimitive]
    | reset => simp [procedure, resetPresence, ownPrimitive]
    | writeBit =>
      have := ownPrimitive_slots s.cfg [s.dataBit] (some .writeBit)
      simp only [List.flatMap_cons, List.flatMap_nil, List.append_nil] at this
      exact this
    | readBit => simp [procedure, slotRead, ownPrimitive]
    | writeByte => exact ownPrimitive_slots s.cfg (bitsLsbFirst s.data) (some .writeByte)
    | readByte => exact ownrd _
    | startConv => simp [procedure, startConvProcedure, preface, resetPresence, ownPrimitive]
    | readTemp =>
      have := ownrd (some .readTemp)
      simp only [procedure, readTempProcedure, preface, resetPresence, List.all_append,
        scratchpadRead, scratchpadByteRead, List.all_flatMap, this]
      simp [ownPrimitive]
  · cases op with
    | init => rfl
    | reset => exact pos (by omega)
    | writeBit => simpa [procedure] using slotWrite_settled s.cfg hc s.dataBit []
    | readBit => exact pos (by omega)
    | writeByte => simpa [procedure] using byteWrite_settled s.cfg hc s.data []
    | readByte => exact pos (by omega)
    | startConv => exact pos (by omega)
    | readTemp => exact pos (by omega)

/-- The hardware reset gives a state that meets the invariant. -/
theorem hardReset_inv (s : State) : Inv (hardReset s) := by
  constructor <;> simp [settled, elapsedFits, lineDiscipline]
  simp [State.status, State.spu, State.busy, bit]
  intro _; decide

/-- The invariant looks at these fields only. -/
theorem inv_congr {s t : State} (h : Inv s) (h1 : t.cur = s.cur) (h2 : t.seq = s.seq) (h3 : t.elapsed = s.elapsed)
   (h4 : t.drive = s.drive) (h5 : t.done = s.done) (h6 : t.errAbsent = s.errAbsent) (h7 : t.errCrc = s.errCrc)
    (h8 : t.present = s.present)
    (h9 : t.rst = true → s.rst = true ∧ t.cmdErr = s.cmdErr ∧ t.data = s.data ∧ t.parasite = s.parasite
      ∧ t.temp = s.temp) : Inv t := by
  obtain ⟨a, st, b, c, d, e, f, g, k⟩ := h
  constructor
  · rw [h1, h2, h3]; exact a
  · rw [h2]; exact st
  · rw [h2, h3]; exact b
  · rw [h4, h2]; exact c
  · rw [h2, h1]; exact d
  · rw [h5, h1]; exact e
  · rw [h6, h5, h8]; exact f
  · rw [h7, h5, h8]; exact g
  · intro hr
    obtain ⟨r, q1, q2, q3, q4⟩ := h9 hr
    have := k r
    simp only [State.status, State.spu, State.busy, h1, h4, h5, h6, h7, h8, q1, q2, q3, q4] at this ⊢
    exact this

/-- A tick event keeps the invariant. -/
theorem tick_inv (s : State) (h : Inv s) : Inv (tickEvent s) := by
  unfold tickEvent
  by_cases hb : s.busy = true
  · have hc : s.cur ≠ none := (busy_iff s).1 hb
    have hdn : s.done = false := by
      cases hx : s.done with
      | false => rfl
      | true => exact absurd (h.doneIdle hx) hc
    have hea : s.errAbsent = false := by
      cases hx : s.errAbsent with
      | false => rfl
      | true => have := (h.absent hx).1; simp_all
    have hec : s.errCrc = false := by
      cases hx : s.errCrc with
      | false => rfl
      | true => have := (h.badCrc hx).1; simp_all
    have hr : s.rst = false := by
      cases hx : s.rst with
      | false => rfl
      | true => exact absurd (h.heldReset hx).1 hc
    simp only [hb, if_true]
    have := play_fits s.seq s ⟨h.line, h.own⟩ h.elapsed
    rcases this with ⟨u, hu, h1, h2, h3, h4, h5, h6⟩ | ⟨h1, hst, h2, h3, h4, h5, h6, h7, h8⟩
    · rw [hu]
      refine inv_congr (complete_inv u h1 (by simp_all) (by simp_all) (by simp_all))
        rfl rfl rfl rfl rfl rfl rfl rfl (by simp_all)
    · constructor
      · intro hn; simp_all
      · exact hst
      · exact h2
      · exact h1.1
      · exact h1.2
      · intro hx; simp_all
      · intro hx; simp_all
      · intro hx; simp_all
      · intro hx; simp_all
  · simp only [hb]
    exact inv_congr h rfl rfl rfl rfl rfl rfl rfl rfl (by simp)

end Sys2Proof.Machine
end

