-- ==== Sys2Proof/Laws/PerInstr.lean ====
section
/-! SUPPORT. Statements made for every instruction, one lemma each. -/

namespace Sys2Proof.Laws.TableRow

/-- A row of spec/opcode_table.json: its format, the fixed bits of its words and their values. -/
structure Row where
  isHost : Bool
  mask : Nat
  value : Nat
  deriving DecidableEq, Repr

/-- A word is one of a row's words. -/
def Row.covers (r : Row) : Code → Bool
  | .host w => r.isHost && w.toNat &&& r.mask == r.value
  | .wire b => !r.isHost && b.toNat &&& r.mask == r.value

/-- The rows of spec/opcode_table.json. -/
def row : Instr → Row
  | .nop _ => ⟨true, 0xF0F, 0x800⟩
  | .init _ => ⟨true, 0xF0F, 0x801⟩
  | .reset _ => ⟨true, 0xF0F, 0x802⟩
  | .writeBit _ => ⟨true, 0xF0F, 0x803⟩
  | .readBit _ => ⟨true, 0xF0F, 0x804⟩
  | .writeByte _ => ⟨true, 0xF0F, 0x805⟩
  | .readByte _ => ⟨true, 0xF0F, 0x806⟩
  | .startConv _ => ⟨true, 0xF0F, 0x807⟩
  | .readTemp _ => ⟨true, 0xF0F, 0x808⟩
  | .reservedOp9 _ => ⟨true, 0xF0F, 0x809⟩
  | .reservedOpAB _ _ => ⟨true, 0xF0E, 0x80A⟩
  | .reservedOpCF _ _ => ⟨true, 0xF0C, 0x80C⟩
  | .wrData _ => ⟨true, 0xF00, 0xA00⟩
  | .wrConfig _ => ⟨true, 0xF00, 0xB00⟩
  | .wrStatus _ => ⟨true, 0xF00, 0x900⟩
  | .wrTempL _ => ⟨true, 0xF00, 0xC00⟩
  | .wrTempH _ => ⟨true, 0xF00, 0xD00⟩
  | .wrCdlyL _ => ⟨true, 0xF00, 0xE00⟩
  | .wrCdlyH _ => ⟨true, 0xF00, 0xF00⟩
  | .rdCtrl _ => ⟨true, 0xF00, 0x000⟩
  | .rdStatus _ => ⟨true, 0xF00, 0x100⟩
  | .rdData _ => ⟨true, 0xF00, 0x200⟩
  | .rdConfig _ => ⟨true, 0xF00, 0x300⟩
  | .rdTempL _ => ⟨true, 0xF00, 0x400⟩
  | .rdTempH _ => ⟨true, 0xF00, 0x500⟩
  | .rdCdlyL _ => ⟨true, 0xF00, 0x600⟩
  | .rdCdlyH _ => ⟨true, 0xF00, 0x700⟩
  | .skipRom => ⟨false, 0xFF, 0xCC⟩
  | .convertT => ⟨false, 0xFF, 0x44⟩
  | .readScratchpad => ⟨false, 0xFF, 0xBE⟩

/-- An instruction's word is one of its row's words. -/
def Statement (i : Instr) : Prop := (row i).covers (encode i) = true

theorem nop (ign : BitVec 4) : Statement (.nop ign) := by
  unfold Statement
  revert ign
  decide

theorem init (ign : BitVec 4) : Statement (.init ign) := by
  unfold Statement
  revert ign
  decide

theorem reset (ign : BitVec 4) : Statement (.reset ign) := by
  unfold Statement
  revert ign
  decide

theorem writeBit (ign : BitVec 4) : Statement (.writeBit ign) := by
  unfold Statement
  revert ign
  decide

theorem readBit (ign : BitVec 4) : Statement (.readBit ign) := by
  unfold Statement
  revert ign
  decide

theorem writeByte (ign : BitVec 4) : Statement (.writeByte ign) := by
  unfold Statement
  revert ign
  decide

theorem readByte (ign : BitVec 4) : Statement (.readByte ign) := by
  unfold Statement
  revert ign
  decide

theorem startConv (ign : BitVec 4) : Statement (.startConv ign) := by
  unfold Statement
  revert ign
  decide

theorem readTemp (ign : BitVec 4) : Statement (.readTemp ign) := by
  unfold Statement
  revert ign
  decide

theorem reservedOp9 (ign : BitVec 4) : Statement (.reservedOp9 ign) := by
  unfold Statement
  revert ign
  decide

theorem reservedOpAB (ign : BitVec 4) (lo : BitVec 1) : Statement (.reservedOpAB ign lo) := by
  unfold Statement
  revert ign lo
  decide

theorem reservedOpCF (ign : BitVec 4) (lo : BitVec 2) : Statement (.reservedOpCF ign lo) := by
  unfold Statement
  revert ign lo
  decide

theorem wrData (d : Byte) : Statement (.wrData d) := by
  unfold Statement
  revert d
  decide

theorem wrConfig (d : Byte) : Statement (.wrConfig d) := by
  unfold Statement
  revert d
  decide

theorem wrStatus (d : Byte) : Statement (.wrStatus d) := by
  unfold Statement
  revert d
  decide

theorem wrTempL (d : Byte) : Statement (.wrTempL d) := by
  unfold Statement
  revert d
  decide

theorem wrTempH (d : Byte) : Statement (.wrTempH d) := by
  unfold Statement
  revert d
  decide

theorem wrCdlyL (d : Byte) : Statement (.wrCdlyL d) := by
  unfold Statement
  revert d
  decide

theorem wrCdlyH (d : Byte) : Statement (.wrCdlyH d) := by
  unfold Statement
  revert d
  decide

theorem rdCtrl (d : Byte) : Statement (.rdCtrl d) := by
  unfold Statement
  revert d
  decide

theorem rdStatus (d : Byte) : Statement (.rdStatus d) := by
  unfold Statement
  revert d
  decide

theorem rdData (d : Byte) : Statement (.rdData d) := by
  unfold Statement
  revert d
  decide

theorem rdConfig (d : Byte) : Statement (.rdConfig d) := by
  unfold Statement
  revert d
  decide

theorem rdTempL (d : Byte) : Statement (.rdTempL d) := by
  unfold Statement
  revert d
  decide

theorem rdTempH (d : Byte) : Statement (.rdTempH d) := by
  unfold Statement
  revert d
  decide

theorem rdCdlyL (d : Byte) : Statement (.rdCdlyL d) := by
  unfold Statement
  revert d
  decide

theorem rdCdlyH (d : Byte) : Statement (.rdCdlyH d) := by
  unfold Statement
  revert d
  decide

theorem skipRom : Statement .skipRom := by
  unfold Statement
  decide

theorem convertT : Statement .convertT := by
  unfold Statement
  decide

theorem readScratchpad : Statement .readScratchpad := by
  unfold Statement
  decide

end Sys2Proof.Laws.TableRow
end

