-- ==== Sys2Proof/Laws/Waveforms.lean ====
section
/-! SUPPORT. Stretches of an undisturbed run: the pins at every tick of a `Drive`, a bit slot, a byte and the reset, and
the state each leads to. -/

namespace Sys2Proof.Machine

/-- An operation in progress in `s` goes on for `n` ticks to `m`: only the tick number, the position, the drive state and
the scratch elements may differ. -/
structure During (s m : State) (n : Nat) : Prop where
  tick : m.tick = s.tick + n
  cfg : m.cfg = s.cfg
  levels : m.levels = s.levels
  agenda : m.agenda = s.agenda
  rst : m.rst = s.rst
  divPhase : m.divPhase = s.divPhase
  rdata : m.rdata = s.rdata
  present : m.present = s.present
  errAbsent : m.errAbsent = s.errAbsent
  errCrc : m.errCrc = s.errCrc
  cmdErr : m.cmdErr = s.cmdErr
  done : m.done = s.done
  data : m.data = s.data
  parasite : m.parasite = s.parasite
  temp : m.temp = s.temp
  cur : m.cur = s.cur
  draws : m.draws = s.draws

theorem During.trans {s m u : State} {a b : Nat} (h : During s m a) (k : During m u b) : During s u (a + b) where
  tick := by rw [k.tick, h.tick, Nat.add_assoc]
  cfg := k.cfg.trans h.cfg
  levels := k.levels.trans h.levels
  agenda := k.agenda.trans h.agenda
  rst := k.rst.trans h.rst
  divPhase := k.divPhase.trans h.divPhase
  rdata := k.rdata.trans h.rdata
  present := k.present.trans h.present
  errAbsent := k.errAbsent.trans h.errAbsent
  errCrc := k.errCrc.trans h.errCrc
  cmdErr := k.cmdErr.trans h.cmdErr
  done := k.done.trans h.done
  data := k.data.trans h.data
  parasite := k.parasite.trans h.parasite
  temp := k.temp.trans h.temp
  cur := k.cur.trans h.cur
  draws := k.draws.trans h.draws

/-- Settling keeps what an operation in progress keeps. -/
theorem During.settle {s m : State} {n : Nat} (h : During s m n) (seq : List Prim) :
    During s (Machine.settle seq m) n := by
  obtain ⟨_, _, _, _, e⟩ := settle_frame seq m
  rw [e]
  exact ⟨h.1, h.2, h.3, h.4, h.5, h.6, h.7, h.8, h.9, h.10, h.11, h.12, h.13, h.14, h.15, h.16, h.17⟩

/-- Settling stops at once at what acts. -/
theorem settle_drive (d : Drive) {n : Nat} (hn : 1 ≤ n) (rest : List Prim) (s : State) :
    settle (.drive d n :: rest) s = setPosition (.drive d n :: rest) 0 s := by
  obtain ⟨m, rfl⟩ : ∃ m, n = m + 1 := ⟨n - 1, by omega⟩
  rfl

@[simp] theorem settle_nil (s : State) : settle [] s = setPosition [] 0 s := rfl
@[simp] theorem settle_sample (rest : List Prim) (s : State) :
    settle (.sample :: rest) s = setPosition (.sample :: rest) 0 s := rfl
@[simp] theorem settle_send (c : WireCmd) (rest : List Prim) (s : State) :
    settle (.send c :: rest) s = setPosition (.send c :: rest) 0 s := rfl

/-- A run of `n` ticks, one a step, from `s` to `t`, with drive state `w j` after its tick j. -/
def Stretch (s t : State) (n : Nat) (w : Nat → Drive) : Prop :=
  steps n s = .next t ∧ During s t n
    ∧ ∀ j < n, ∃ m, steps (j + 1) s = .next m ∧ During s m (j + 1) ∧ m.drive = w j

theorem Stretch.congr {s t : State} {n : Nat} {w v : Nat → Drive} (h : Stretch s t n w)
    (e : ∀ j < n, w j = v j) : Stretch s t n v :=
  ⟨h.1, h.2.1, fun j hj => by
    obtain ⟨m, a, b, c⟩ := h.2.2 j hj
    exact ⟨m, a, b, by rw [c, e j hj]⟩⟩

/-- Stretches compose. -/
theorem Stretch.append {s t u : State} {a b : Nat} {w v : Nat → Drive}
    (h : Stretch s t a w) (k : Stretch t u b v) :
    Stretch s u (a + b) (fun j => if j < a then w j else v (j - a)) := by
  refine ⟨by rw [steps_add h.1, k.1], h.2.1.trans k.2.1, fun j hj => ?_⟩
  by_cases hja : j < a
  · obtain ⟨m, x, y, z⟩ := h.2.2 j hja
    exact ⟨m, x, y, by simp [hja, z]⟩
  · obtain ⟨m, x, y, z⟩ := k.2.2 (j - a) (by omega)
    refine ⟨m, ?_, ?_, by simp [hja, z]⟩
    · rw [show j + 1 = a + (j - a + 1) by omega, steps_add h.1, x]
    · have := h.2.1.trans y
      rwa [show a + (j - a + 1) = j + 1 by omega] at this

/-- What an undisturbed run needs of a state. -/
structure Undisturbed (s : State) : Prop where
  admitted : s.cfg.admitted = true
  quiet : s.agenda = []
  busy : s.busy = true
  start : s.elapsed = 0

theorem During.undisturbed {s m : State} {n : Nat} (h : During s m n) (u : Undisturbed s) (he : m.elapsed = 0) :
    Undisturbed m :=
  ⟨by rw [h.cfg, u.admitted], by rw [h.agenda, u.quiet], by
    have := u.busy
    simp only [State.busy] at this ⊢
    rw [h.cur, this], he⟩

@[simp] theorem settle_elapsed (seq : List Prim) (s : State) : (settle seq s).elapsed = 0 := by
  obtain ⟨_, _, _, _, h⟩ := settle_frame seq s
  rw [h]

/-- `Drive(d, n)`. -/
theorem stretch_drive (s : State) (u : Undisturbed s) {d : Drive} {n : Nat} {rest : List Prim}
    (hs : s.seq = .drive d n :: rest) (hn : 1 ≤ n) :
    Stretch s (settle rest (setTick (s.tick + n) (setDrive d s))) n (fun _ => d) := by
  have hd : ∀ k, During s (setTick (s.tick + k) (setDrive d s)) k := fun k =>
    ⟨rfl, rfl, rfl, rfl, rfl, rfl, rfl, rfl, rfl, rfl, rfl, rfl, rfl, rfl, rfl, rfl, rfl⟩
  have hw := steps_drive_whole s u.admitted u.quiet u.busy hs u.start hn
  refine ⟨hw, (hd n).settle rest, fun j hj => ?_⟩
  by_cases hl : j + 1 < n
  · have h0 := u.start
    refine ⟨_, steps_drive j s u.admitted u.quiet u.busy hs (by omega), ?_, rfl⟩
    exact ⟨show s.tick + 1 + j = s.tick + (j + 1) by omega,
      rfl, rfl, rfl, rfl, rfl, rfl, rfl, rfl, rfl, rfl, rfl, rfl, rfl, rfl, rfl, rfl⟩
  · obtain rfl : n = j + 1 := by omega
    refine ⟨_, hw, (hd _).settle rest, ?_⟩
    obtain ⟨_, _, _, _, e⟩ := settle_frame rest (setTick (s.tick + (j + 1)) (setDrive d s))
    rw [e]
    rfl

/-- A sample and the `Drive` after it. -/
theorem stretch_sample_drive (s : State) (u : Undisturbed s) {d : Drive} {n : Nat} {rest : List Prim}
    (hs : s.seq = .sample :: .drive d n :: rest) (hn : 1 ≤ n) :
    Stretch s (settle rest (setTick (s.tick + n) (setDrive d (takeSample s)))) n (fun _ => d) := by
  have hstep := step_sample s u.admitted u.quiet u.busy hs hn
  have hsteps : ∀ k, steps (k + 1) s = steps (k + 1) (setPosition (.drive d n :: rest) s.elapsed (takeSample s)) := by
    intro k
    rw [steps_succ, steps_succ, hstep]
  have h := stretch_drive (setPosition (.drive d n :: rest) s.elapsed (takeSample s))
    ⟨u.admitted, u.quiet, u.busy, u.start⟩ rfl hn
  have hkeep : During s (setPosition (.drive d n :: rest) s.elapsed (takeSample s)) 0 :=
    ⟨rfl, rfl, rfl, rfl, rfl, rfl, rfl, rfl, rfl, rfl, rfl, rfl, rfl, rfl, rfl, rfl, rfl⟩
  have he : settle rest (setTick (s.tick + n) (setDrive d
        (setPosition (.drive d n :: rest) s.elapsed (takeSample s))))
      = settle rest (setTick (s.tick + n) (setDrive d (takeSample s))) :=
    settle_congr rest (setTick (s.tick + n) (setDrive d (takeSample s))) _ _
  obtain ⟨h1, h2, h3⟩ := h
  refine ⟨?_, ?_, fun j hj => ?_⟩
  · obtain ⟨m, rfl⟩ : ∃ m, n = m + 1 := ⟨n - 1, by omega⟩
    rw [hsteps m, h1]
    exact congrArg _ he
  · rw [← he]
    have := hkeep.trans h2
    rwa [Nat.zero_add] at this
  · obtain ⟨m, a, b, c⟩ := h3 j hj
    have := hkeep.trans b
    rw [Nat.zero_add] at this
    exact ⟨m, by rw [hsteps j, a], this, c⟩

/-- The state with another sampled bit. -/
def setSample (b : Bool) (s : State) : State := { s with smp := b }

/-- Of two drive states in a row the later shows. -/
theorem drive_drive (n m : Nat) (d e : Drive) (x : State) :
    setTick n (setDrive d (setTick m (setDrive e x))) = setTick n (setDrive d x) := rfl

/-- A sample after a `Drive` is the level at the tick that follows. -/
theorem drive_sample (n m : Nat) (d e : Drive) (x : State) :
    setTick n (setDrive d (takeSample (setTick m (setDrive e x))))
      = setTick n (setDrive d (setSample (x.line m) x)) := rfl

/-- A stretch and the `Drive` after it. -/
theorem Stretch.drive {s x : State} {a n : Nat} {w : Nat → Drive} {d : Drive} {rest : List Prim}
    (h : Stretch s (settle (.drive d n :: rest) x) a w) (u : Undisturbed s) (hn : 1 ≤ n) :
    Stretch s (settle rest (setTick (x.tick + n) (setDrive d x))) (a + n) (fun j => if j < a then w j else d) := by
  rw [settle_drive d hn rest x] at h
  have k := stretch_drive (setPosition (.drive d n :: rest) 0 x) (h.2.1.undisturbed u rfl) rfl hn
  exact h.append ((settle_congr rest (setTick (x.tick + n) (setDrive d x)) (.drive d n :: rest) 0) ▸ k)

/-- A stretch, then a sample and the `Drive` after it. -/
theorem Stretch.sample {s x : State} {a n : Nat} {w : Nat → Drive} {d : Drive} {rest : List Prim}
    (h : Stretch s (settle (.sample :: .drive d n :: rest) x) a w) (u : Undisturbed s) (hn : 1 ≤ n) :
    Stretch s (settle rest (setTick (x.tick + n) (setDrive d (takeSample x)))) (a + n)
      (fun j => if j < a then w j else d) := by
  rw [settle_sample] at h
  have k := stretch_sample_drive (setPosition (.sample :: .drive d n :: rest) 0 x) (h.2.1.undisturbed u rfl) rfl hn
  exact h.append ((settle_congr rest (setTick (x.tick + n) (setDrive d (takeSample x)))
    (.sample :: .drive d n :: rest) 0) ▸ k)

/-- `SlotWrite(v)` (41_transport.md R86, R87). -/
theorem stretch_slotWrite (s : State) (u : Undisturbed s) (v : Bool) {rest : List Prim}
    (hs : s.seq = slotWrite s.cfg v ++ rest) :
    Stretch s (settle rest (setTick (s.tick + Config.slot s.cfg) (setDrive .rel s))) (Config.slot s.cfg)
      (fun t => if t < slotLow s.cfg v then .low else .rel) := by
  have F := admitted_facts u.admitted
  cases v with
  | false =>
    have h := (stretch_drive s u hs (by omega)).drive u (by omega)
    rw [drive_drive] at h
    have h' : Stretch s (settle rest (setTick (s.tick + s.cfg.tSlot + s.cfg.tRec) (setDrive .rel s)))
      (Config.slot s.cfg) _ := h
    rw [Nat.add_assoc] at h'
    exact h'
  | true =>
    have h := ((stretch_drive s u hs (by omega)).drive u (by omega)).drive u (by omega)
    rw [drive_drive, drive_drive] at h
    have e : s.cfg.tLow1 + (s.cfg.tSlot - s.cfg.tLow1) + s.cfg.tRec = Config.slot s.cfg := by
      unfold Config.slot
      omega
    have e2 : s.tick + s.cfg.tLow1 + (s.cfg.tSlot - s.cfg.tLow1) + s.cfg.tRec = s.tick + Config.slot s.cfg := by
      rw [← e]
      omega
    rw [e] at h
    have h' : Stretch s (settle rest (setTick (s.tick + s.cfg.tLow1 + (s.cfg.tSlot - s.cfg.tLow1) + s.cfg.tRec)
      (setDrive .rel s))) (Config.slot s.cfg) _ := h
    rw [e2] at h'
    refine h'.congr fun j _ => ?_
    simp only [slotLow, if_true]
    by_cases h1 : j < s.cfg.tLow1
    · simp [h1, show j < s.cfg.tLow1 + (s.cfg.tSlot - s.cfg.tLow1) by omega]
    · simp [h1]

/-- `SlotRead()` (R88). -/
theorem stretch_slotRead (s : State) (u : Undisturbed s) {rest : List Prim} (hs : s.seq = slotRead s.cfg ++ rest) :
    Stretch s (settle rest (setTick (s.tick + Config.slot s.cfg) (setDrive .rel
        (setSample (s.line (s.tick + Config.readSampleTime s.cfg)) s)))) (Config.slot s.cfg)
      (fun t => if t < s.cfg.tLowr then .low else .rel) := by
  have F := admitted_facts u.admitted
  have h := ((((stretch_drive s u hs (by omega)).drive u (by omega)).sample u (by omega)).drive u (by omega))
  rw [drive_drive, drive_sample, drive_drive] at h
  have e : s.cfg.tLowr + s.cfg.tRds + (s.cfg.tSlot - s.cfg.tLowr - s.cfg.tRds) + s.cfg.tRec = Config.slot s.cfg := by
    unfold Config.slot
    omega
  have e2 : s.tick + s.cfg.tLowr + s.cfg.tRds + (s.cfg.tSlot - s.cfg.tLowr - s.cfg.tRds) + s.cfg.tRec
      = s.tick + Config.slot s.cfg := by
    rw [← e]
    omega
  have e3 : s.tick + s.cfg.tLowr + s.cfg.tRds = s.tick + Config.readSampleTime s.cfg := by
    unfold Config.readSampleTime
    omega
  rw [e] at h
  have h' : Stretch s (settle rest (setTick
    (s.tick + s.cfg.tLowr + s.cfg.tRds + (s.cfg.tSlot - s.cfg.tLowr - s.cfg.tRds) + s.cfg.tRec)
      (setDrive .rel (setSample (s.line (s.tick + s.cfg.tLowr + s.cfg.tRds)) s)))) (Config.slot s.cfg) _ := h
  rw [e2, e3] at h'
  refine h'.congr fun j _ => ?_
  by_cases h1 : j < s.cfg.tLowr
  · simp [h1, show j < s.cfg.tLowr + s.cfg.tRds by omega,
      show j < s.cfg.tLowr + s.cfg.tRds + (s.cfg.tSlot - s.cfg.tLowr - s.cfg.tRds) by omega]
  · simp [h1]

/-- `ResetPresence()` (42_reset_presence.md R97), the sample stored. -/
theorem stretch_resetPresence (s : State) (u : Undisturbed s) {rest : List Prim}
    (hs : s.seq = resetPresence s.cfg ++ rest) :
    Stretch s (settle rest (setTick (s.tick + Config.presenceTime s.cfg) (setDrive .rel
        (storePres (setSample (s.line (s.tick + Config.presenceSampleTime s.cfg)) s)))))
      (Config.presenceTime s.cfg) (presenceWave s.cfg) := by
  have F := admitted_facts u.admitted
  have h := (((stretch_drive s u hs (by omega)).drive u (by omega)).sample u (by omega))
  rw [drive_drive, drive_sample] at h
  have e : s.cfg.tRstl + s.cfg.tPds + (s.cfg.tRsth - s.cfg.tPds) = Config.presenceTime s.cfg := by
    unfold Config.presenceTime
    omega
  have e2 : s.tick + s.cfg.tRstl + s.cfg.tPds + (s.cfg.tRsth - s.cfg.tPds) = s.tick + Config.presenceTime s.cfg := by
    rw [← e]
    omega
  have e3 : s.tick + s.cfg.tRstl + s.cfg.tPds = s.tick + Config.presenceSampleTime s.cfg := by
    unfold Config.presenceSampleTime
    omega
  rw [e] at h
  have h' : Stretch s (settle rest (setTick
    (s.tick + s.cfg.tRstl + s.cfg.tPds + (s.cfg.tRsth - s.cfg.tPds))
      (setDrive .rel (storePres (setSample (s.line (s.tick + s.cfg.tRstl + s.cfg.tPds)) s)))))
      (Config.presenceTime s.cfg) _ := h
  rw [e2, e3] at h'
  refine h'.congr fun j _ => ?_
  unfold presenceWave
  by_cases h1 : j < s.cfg.tRstl
  · simp [h1, show j < s.cfg.tRstl + s.cfg.tPds by omega]
  · simp [h1]

/-! Slots and bytes, one after another. -/

theorem slot_pos {c : Config} (h : c.admitted = true) : 1 ≤ Config.slot c := by
  have F := admitted_facts h
  unfold Config.slot
  omega

theorem settle_slotWrite {c : Config} (h : c.admitted = true) (v : Bool) (rest : List Prim) (x : State) :
    settle (slotWrite c v ++ rest) x = setPosition (slotWrite c v ++ rest) 0 x := by
  have F := admitted_facts h
  cases v
  · exact settle_drive .low (by omega) _ x
  · exact settle_drive .low (by omega) _ x

theorem settle_slotRead {c : Config} (h : c.admitted = true) (rest : List Prim) (x : State) :
    settle (slotRead c ++ rest) x = setPosition (slotRead c ++ rest) 0 x := by
  have F := admitted_facts h
  exact settle_drive .low (by omega) _ x

/-- The wave of a slot followed by the wave of the slots after it. -/
theorem slots_wave {S : Nat} (hS : 1 ≤ S) {n : Nat} (f : Nat → Nat → Drive) :
    ∀ j < (n + 1) * S, (if j < S then f 0 j else f ((j - S) / S + 1) ((j - S) % S)) = f (j / S) (j % S) := by
  intro j _
  by_cases h : j < S
  · simp [h, Nat.div_eq_of_lt h, Nat.mod_eq_of_lt h]
  · obtain ⟨i, rfl⟩ : ∃ i, j = i + S := ⟨j - S, by omega⟩
    simp [h, Nat.add_div_right i hS]

/-- The bits of `bs`, one write slot each (R89). -/
theorem stretch_bits (bs : List Bool) (s : State) (u : Undisturbed s) {rest : List Prim} (hne : bs ≠ [])
    (hs : s.seq = bs.flatMap (slotWrite s.cfg) ++ rest) :
    Stretch s (settle rest (setTick (s.tick + bs.length * Config.slot s.cfg) (setDrive .rel s)))
      (bs.length * Config.slot s.cfg)
      (fun t => if t % Config.slot s.cfg < slotLow s.cfg (bs.getD (t / Config.slot s.cfg) false) then .low else .rel) := by
  have hS := slot_pos u.admitted
  induction bs generalizing s with
  | nil => exact absurd rfl hne
  | cons b bs ih =>
    rw [List.flatMap_cons, List.append_assoc] at hs
    have h := stretch_slotWrite s u b hs
    by_cases hb : bs = []
    · subst hb
      simp only [List.flatMap_nil, List.nil_append] at h
      rw [show [b].length * Config.slot s.cfg = Config.slot s.cfg by simp]
      refine h.congr fun j hj => ?_
      simp [Nat.mod_eq_of_lt hj, Nat.div_eq_of_lt hj]
    · obtain ⟨c, cs, rfl⟩ : ∃ c cs, bs = c :: cs := List.exists_cons_of_ne_nil hb
      let x := setTick (s.tick + Config.slot s.cfg) (setDrive .rel s)
      have hx : settle ((c :: cs).flatMap (slotWrite s.cfg) ++ rest) x
          = setPosition ((c :: cs).flatMap (slotWrite s.cfg) ++ rest) 0 x := by
        rw [List.flatMap_cons, List.append_assoc]
        exact settle_slotWrite u.admitted c _ x
      change Stretch s (settle ((c :: cs).flatMap (slotWrite s.cfg) ++ rest) x) _ _ at h
      rw [hx] at h
      have k := ih (setPosition ((c :: cs).flatMap (slotWrite s.cfg) ++ rest) 0 x) (h.2.1.undisturbed u rfl)
        (by simp) rfl hS
      have e : settle rest (setTick (s.tick + Config.slot s.cfg + (c :: cs).length * Config.slot s.cfg)
            (setDrive .rel (setPosition ((c :: cs).flatMap (slotWrite s.cfg) ++ rest) 0 x)))
          = settle rest (setTick (s.tick + (b :: c :: cs).length * Config.slot s.cfg) (setDrive .rel s)) := by
        rw [← settle_congr rest (setTick (s.tick + (b :: c :: cs).length * Config.slot s.cfg) (setDrive .rel s))
          ((c :: cs).flatMap (slotWrite s.cfg) ++ rest) 0,
          show s.tick + (b :: c :: cs).length * Config.slot s.cfg
            = s.tick + Config.slot s.cfg + (c :: cs).length * Config.slot s.cfg by
              rw [List.length_cons (as := c :: cs), Nat.succ_mul]; omega]
        rfl
      have l := h.append k
      change Stretch s (settle rest (setTick (s.tick + Config.slot s.cfg + (c :: cs).length * Config.slot s.cfg)
            (setDrive .rel (setPosition ((c :: cs).flatMap (slotWrite s.cfg) ++ rest) 0 x)))) _ _ at l
      rw [e] at l
      change Stretch s _ (Config.slot s.cfg + (c :: cs).length * Config.slot s.cfg) _ at l
      rw [show Config.slot s.cfg + (c :: cs).length * Config.slot s.cfg
        = (b :: c :: cs).length * Config.slot s.cfg by rw [List.length_cons (as := c :: cs), Nat.succ_mul]; omega] at l
      refine l.congr fun j hj => ?_
      have w := slots_wave hS (n := (c :: cs).length)
        (fun k r => if r < slotLow s.cfg ((b :: c :: cs).getD k false) then Drive.low else .rel) j hj
      rw [← w]
      by_cases h1 : j < Config.slot s.cfg
      · simp [h1]
      · simp [h1, x]

/-- `ByteWrite(v)` (R89). -/
theorem stretch_byteWrite (s : State) (u : Undisturbed s) (v : Byte) {rest : List Prim}
    (hs : s.seq = byteWrite s.cfg v ++ rest) :
    Stretch s (settle rest (setTick (s.tick + Config.byteTime s.cfg) (setDrive .rel s)))
      (Config.byteTime s.cfg) (byteWave s.cfg v) := by
  have h := stretch_bits (bitsLsbFirst v) s u (by simp [bitsLsbFirst]) hs
  have hl : (bitsLsbFirst v).length = 8 := rfl
  rw [hl] at h
  refine h.congr fun j hj => ?_
  have hk : j / Config.slot s.cfg < 8 := Nat.div_lt_of_lt_mul (by rwa [Nat.mul_comm])
  unfold byteWave
  rw [show (bitsLsbFirst v).getD (j / Config.slot s.cfg) false = v.getLsbD (j / Config.slot s.cfg) by
    generalize j / Config.slot s.cfg = k at hk ⊢
    match k, hk with
    | 0, _ | 1, _ | 2, _ | 3, _ | 4, _ | 5, _ | 6, _ | 7, _ => rfl]

/-- The scratch elements after read slots from tick t on, their bits stored at the places `ks` (R90). -/
def storeBits : List Nat → Nat → State → State
  | [], _, x => x
  | k :: ks, t, x =>
    storeBits ks (t + Config.slot x.cfg) (storeSr k (setSample (x.line (t + Config.readSampleTime x.cfg)) x))

/-- Read slots change the sampled bit and the shift register. -/
theorem storeBits_frame (ks : List Nat) (t : Nat) (x : State) :
    ∃ b v, storeBits ks t x = { x with smp := b, sr := v } := by
  induction ks generalizing t x with
  | nil => exact ⟨_, _, rfl⟩
  | cons k ks ih =>
    obtain ⟨b, v, h⟩ := ih (t + Config.slot x.cfg) (storeSr k (setSample (x.line (t + Config.readSampleTime x.cfg)) x))
    exact ⟨b, v, h⟩

/-- Read slots do not look at the tick number, the position and the drive state. -/
theorem storeBits_congr (ks : List Nat) (t n : Nat) (d : Drive) (l : List Prim) (e : Nat) (x : State) :
    storeBits ks t (setPosition l e (setTick n (setDrive d x)))
      = setPosition l e (setTick n (setDrive d (storeBits ks t x))) := by
  induction ks generalizing t x with
  | nil => rfl
  | cons k ks ih =>
    exact ih (t + Config.slot x.cfg) (storeSr k (setSample (x.line (t + Config.readSampleTime x.cfg)) x))

/-- Read slots one after another, their bits stored at the places `ks`. -/
theorem stretch_bitReads (ks : List Nat) (s : State) (u : Undisturbed s) {rest : List Prim} (hne : ks ≠ [])
    (hs : s.seq = ks.flatMap (bitRead s.cfg) ++ rest) :
    Stretch s (settle rest (setTick (s.tick + ks.length * Config.slot s.cfg) (setDrive .rel (storeBits ks s.tick s))))
      (ks.length * Config.slot s.cfg) (readWave s.cfg) := by
  have hS := slot_pos u.admitted
  induction ks generalizing s with
  | nil => exact absurd rfl hne
  | cons b bs ih =>
    rw [List.flatMap_cons, List.append_assoc, bitRead, List.append_assoc] at hs
    have h := stretch_slotRead s u hs
    by_cases hb : bs = []
    · subst hb
      rw [show [b].length * Config.slot s.cfg = Config.slot s.cfg by simp]
      refine Stretch.congr (w := fun t => if t < s.cfg.tLowr then .low else .rel) h fun j hj => ?_
      simp [readWave, Nat.mod_eq_of_lt hj]
    · obtain ⟨c, cs, rfl⟩ : ∃ c cs, bs = c :: cs := List.exists_cons_of_ne_nil hb
      let y := storeSr b (setSample (s.line (s.tick + Config.readSampleTime s.cfg)) s)
      let l := (c :: cs).flatMap (bitRead s.cfg) ++ rest
      let x := setTick (s.tick + Config.slot s.cfg) (setDrive .rel y)
      have hx : settle l x = setPosition l 0 x := by
        show settle ((c :: cs).flatMap (bitRead s.cfg) ++ rest) x = setPosition ((c :: cs).flatMap (bitRead s.cfg) ++ rest) 0 x
        rw [List.flatMap_cons, List.append_assoc, bitRead, List.append_assoc]
        exact settle_slotRead u.admitted _ x
      change Stretch s (settle l x) _ _ at h
      rw [hx] at h
      have k := ih (setPosition l 0 x) (h.2.1.undisturbed u rfl) (by simp) rfl hS
      have e : settle rest (setTick (s.tick + Config.slot s.cfg + (c :: cs).length * Config.slot s.cfg)
            (setDrive .rel (storeBits (c :: cs) (s.tick + Config.slot s.cfg) (setPosition l 0 x))))
          = settle rest (setTick (s.tick + (b :: c :: cs).length * Config.slot s.cfg)
              (setDrive .rel (storeBits (b :: c :: cs) s.tick s))) := by
        rw [storeBits_congr (c :: cs) (s.tick + Config.slot s.cfg) (s.tick + Config.slot s.cfg) .rel l 0 y,
          ← settle_congr rest (setTick (s.tick + (b :: c :: cs).length * Config.slot s.cfg)
              (setDrive .rel (storeBits (b :: c :: cs) s.tick s))) l 0,
          show s.tick + (b :: c :: cs).length * Config.slot s.cfg
            = s.tick + Config.slot s.cfg + (c :: cs).length * Config.slot s.cfg by
              rw [List.length_cons (as := c :: cs), Nat.succ_mul]; omega]
        rfl
      have r := h.append k
      change Stretch s (settle rest (setTick (s.tick + Config.slot s.cfg + (c :: cs).length * Config.slot s.cfg)
            (setDrive .rel (storeBits (c :: cs) (s.tick + Config.slot s.cfg) (setPosition l 0 x))))) _ _ at r
      rw [e] at r
      change Stretch s _ (Config.slot s.cfg + (c :: cs).length * Config.slot s.cfg) _ at r
      rw [show Config.slot s.cfg + (c :: cs).length * Config.slot s.cfg
        = (b :: c :: cs).length * Config.slot s.cfg by rw [List.length_cons (as := c :: cs), Nat.succ_mul]; omega] at r
      refine r.congr fun j hj => ?_
      have w := slots_wave hS (n := (c :: cs).length)
        (fun _ r => if r < s.cfg.tLowr then Drive.low else .rel) j hj
      show _ = if j % Config.slot s.cfg < s.cfg.tLowr then Drive.low else .rel
      rw [← w]
      rfl

/-- The one bit of `bit`. -/
theorem getLsbD_bit (b : Bool) (i : Nat) : (bit b).getLsbD i = (decide (i = 0) && b) := by
  cases b <;> cases i <;> simp [bit]

/-- One bit of a byte after one bit is replaced. -/
theorem getLsbD_setBit (v : Byte) (b : Bool) {k i : Nat} (hk : k < 8) (hi : i < 8) :
    (setBit v k b).getLsbD i = if i = k then b else v.getLsbD i := by
  have hm : (1#8 <<< k).getLsbD i = decide (i = k) := by
    rw [BitVec.getLsbD_shiftLeft, BitVec.getLsbD_one]
    by_cases h : i = k
    · subst h
      simp [hi]
    · by_cases h1 : i < k
      · simp [h, h1]
      · simp [h, show ¬ i - k = 0 by omega]
  unfold setBit
  cases b
  · rw [if_neg (by decide), BitVec.getLsbD_and, BitVec.getLsbD_not, hm]
    by_cases h : i = k <;> simp [h, hi, hk]
  · rw [if_pos rfl, BitVec.getLsbD_or, hm]
    by_cases h : i = k <;> simp [h]

/-- The bits of `byteOfBits`. -/
theorem getLsbD_byteOfBits (f : Nat → Bool) {k : Nat} (hk : k < 8) : (byteOfBits f).getLsbD k = f k := by
  unfold byteOfBits
  match k, hk with
  | 0, _ | 1, _ | 2, _ | 3, _ | 4, _ | 5, _ | 6, _ | 7, _ => simp only [BitVec.getLsbD_append, getLsbD_bit]; simp

/-- The shift register after the last `m` read slots of a byte. -/
theorem storeBits_getLsbD (k : Nat) (hk : k < 8) (m : Nat) (hm : m ≤ 8) (t : Nat) (x : State) :
    (storeBits (List.range' (8 - m) m) t x).sr.getLsbD k
      = if 8 - m ≤ k then x.line (t + (k - (8 - m)) * Config.slot x.cfg + Config.readSampleTime x.cfg)
        else x.sr.getLsbD k := by
  induction m generalizing t x with
  | zero => simp [storeBits, show ¬ 8 ≤ k by omega]
  | succ m ih =>
    rw [List.range'_succ, storeBits, show 8 - (m + 1) + 1 = 8 - m by omega, ih (by omega)]
    have h := getLsbD_setBit x.sr (x.line (t + Config.readSampleTime x.cfg)) (k := 8 - (m + 1)) (by omega) hk
    by_cases h1 : 8 - m ≤ k
    · rw [if_pos h1, if_pos (by omega)]
      show x.line _ = x.line _
      rw [show k - (8 - (m + 1)) = k - (8 - m) + 1 by omega, Nat.succ_mul]
      congr 1
      show t + Config.slot x.cfg + _ * Config.slot x.cfg + _ = _
      simp only [storeSr_cfg]
      show t + Config.slot x.cfg + _ * Config.slot x.cfg + Config.readSampleTime x.cfg = _
      omega
    · rw [if_neg h1]
      show (setBit x.sr (8 - (m + 1)) (x.line (t + Config.readSampleTime x.cfg))).getLsbD k = _
      rw [h]
      by_cases h2 : k = 8 - (m + 1)
      · rw [if_pos h2, if_pos (by omega), h2, Nat.sub_self, Nat.zero_mul, Nat.add_zero]
      · rw [if_neg h2, if_neg (by omega)]

/-- The shift register after a byte of read slots from tick t on is the byte on the line (R90). -/
theorem storeBits_byte (t : Nat) (x : State) : (storeBits (List.range 8) t x).sr = byteOnLine x t := by
  apply BitVec.eq_of_getLsbD_eq
  intro k hk
  rw [List.range_eq_range', byteOnLine, getLsbD_byteOfBits _ hk]
  have h := storeBits_getLsbD k hk 8 (Nat.le_refl 8) t x
  rw [Nat.sub_self, if_pos (Nat.zero_le k)] at h
  exact h

/-- `ByteRead()` (R90), followed by the rest of the procedure. -/
theorem stretch_byteRead (s : State) (u : Undisturbed s) {rest : List Prim} (hs : s.seq = byteRead s.cfg ++ rest) :
    ∃ b, Stretch s (settle rest (setTick (s.tick + Config.byteTime s.cfg)
        (setDrive .rel { s with smp := b, sr := byteOnLine s s.tick })))
      (Config.byteTime s.cfg) (readWave s.cfg) := by
  have h := stretch_bitReads (List.range 8) s u (by decide) hs
  obtain ⟨b, v, e⟩ := storeBits_frame (List.range 8) s.tick s
  have hv := storeBits_byte s.tick s
  rw [e] at h hv
  refine ⟨b, ?_⟩
  rw [← hv]
  exact h

/-- The scratch elements after bytes of read slots from tick t on, stored at the places `is` of SP (R106). -/
def storeBytes : List Nat → Nat → State → State
  | [], _, x => x
  | i :: is, t, x =>
    storeBytes is (t + Config.byteTime x.cfg) (storeSp i (storeBits (List.range 8) t x))

/-- Bytes of read slots change the sampled bit, SR and SP. -/
theorem storeBytes_frame (is : List Nat) (t : Nat) (x : State) :
    ∃ b v p, storeBytes is t x = { x with smp := b, sr := v, sp := p } := by
  induction is generalizing t x with
  | nil => exact ⟨_, _, _, rfl⟩
  | cons i is ih =>
    obtain ⟨b, v, e⟩ := storeBits_frame (List.range 8) t x
    obtain ⟨b', v', p', h⟩ := ih (t + Config.byteTime x.cfg) (storeSp i (storeBits (List.range 8) t x))
    refine ⟨b', v', p', ?_⟩
    rw [storeBytes, h, e]
    rfl

/-- Bytes of read slots do not look at the tick number, the position and the drive state. -/
theorem storeBytes_congr (is : List Nat) (t n : Nat) (d : Drive) (l : List Prim) (e : Nat) (x : State) :
    storeBytes is t (setPosition l e (setTick n (setDrive d x)))
      = setPosition l e (setTick n (setDrive d (storeBytes is t x))) := by
  induction is generalizing t x with
  | nil => rfl
  | cons i is ih =>
    rw [storeBytes, storeBits_congr (List.range 8)]
    exact ih (t + Config.byteTime x.cfg) (storeSp i (storeBits (List.range 8) t x))

theorem storeBits_cfg (ks : List Nat) (t : Nat) (x : State) : (storeBits ks t x).cfg = x.cfg := by
  obtain ⟨_, _, e⟩ := storeBits_frame ks t x
  rw [e]

/-- The wave of read slots does not change where it is cut at a whole slot. -/
theorem readWave_add (c : Config) (n j : Nat) : readWave c (n * Config.slot c + j) = readWave c j := by
  unfold readWave
  rw [Nat.mul_comm, Nat.mul_add_mod]

/-- Bytes of read slots one after another (R106). -/
theorem stretch_byteReads (is : List Nat) (s : State) (u : Undisturbed s) {rest : List Prim} (hne : is ≠ [])
    (hs : s.seq = is.flatMap (scratchpadByteRead s.cfg) ++ rest) :
    Stretch s (settle rest (setTick (s.tick + is.length * Config.byteTime s.cfg)
        (setDrive .rel (storeBytes is s.tick s))))
      (is.length * Config.byteTime s.cfg) (readWave s.cfg) := by
  induction is generalizing s with
  | nil => exact absurd rfl hne
  | cons b bs ih =>
    rw [List.flatMap_cons, List.append_assoc, scratchpadByteRead, List.append_assoc] at hs
    have h := stretch_bitReads (List.range 8) s u (by decide) hs
    by_cases hb : bs = []
    · subst hb
      rw [show [b].length * Config.byteTime s.cfg = Config.byteTime s.cfg by simp]
      exact h
    · obtain ⟨c, cs, rfl⟩ : ∃ c cs, bs = c :: cs := List.exists_cons_of_ne_nil hb
      let y := storeSp b (storeBits (List.range 8) s.tick s)
      let l := (c :: cs).flatMap (scratchpadByteRead s.cfg) ++ rest
      let x := setTick (s.tick + Config.byteTime s.cfg) (setDrive .rel y)
      have hx : settle l x = setPosition l 0 x := by
        show settle ((c :: cs).flatMap (scratchpadByteRead s.cfg) ++ rest) x
          = setPosition ((c :: cs).flatMap (scratchpadByteRead s.cfg) ++ rest) 0 x
        rw [List.flatMap_cons, List.append_assoc, scratchpadByteRead, List.append_assoc]
        exact settle_slotRead u.admitted _ x
      change Stretch s (settle l x) _ _ at h
      rw [hx] at h
      have hy : y.cfg = s.cfg := storeBits_cfg (List.range 8) s.tick s
      have hc : (setPosition l 0 x).cfg = s.cfg := hy
      have k := ih (setPosition l 0 x) (h.2.1.undisturbed u rfl) (by simp)
        (show l = _ by rw [hc])
      have e : settle rest (setTick (s.tick + Config.byteTime s.cfg + (c :: cs).length * Config.byteTime s.cfg)
            (setDrive .rel (storeBytes (c :: cs) (s.tick + Config.byteTime s.cfg) (setPosition l 0 x))))
          = settle rest (setTick (s.tick + (b :: c :: cs).length * Config.byteTime s.cfg)
              (setDrive .rel (storeBytes (b :: c :: cs) s.tick s))) := by
        have q : storeBytes (c :: cs) (s.tick + Config.byteTime s.cfg) (setPosition l 0 x)
            = setPosition l 0 (setTick (s.tick + Config.byteTime s.cfg)
                (setDrive .rel (storeBytes (b :: c :: cs) s.tick s))) :=
          storeBytes_congr (c :: cs) (s.tick + Config.byteTime s.cfg) (s.tick + Config.byteTime s.cfg) .rel l 0 y
        rw [q]
        generalize storeBytes (b :: c :: cs) s.tick s = z
        rw [← settle_congr rest (setTick (s.tick + (b :: c :: cs).length * Config.byteTime s.cfg)
              (setDrive .rel z)) l 0,
          show s.tick + (b :: c :: cs).length * Config.byteTime s.cfg
            = s.tick + Config.byteTime s.cfg + (c :: cs).length * Config.byteTime s.cfg by
              rw [List.length_cons (as := c :: cs), Nat.succ_mul]; omega]
        rfl
      have r := h.append k
      rw [hc] at r
      change Stretch s (settle rest (setTick (s.tick + Config.byteTime s.cfg + (c :: cs).length * Config.byteTime s.cfg)
            (setDrive .rel (storeBytes (c :: cs) (s.tick + Config.byteTime s.cfg) (setPosition l 0 x))))) _ _ at r
      rw [e] at r
      change Stretch s _ (Config.byteTime s.cfg + (c :: cs).length * Config.byteTime s.cfg) _ at r
      rw [show Config.byteTime s.cfg + (c :: cs).length * Config.byteTime s.cfg
        = (b :: c :: cs).length * Config.byteTime s.cfg by
          rw [List.length_cons (as := c :: cs), Nat.succ_mul]; omega] at r
      refine r.congr fun j hj => ?_
      show (if j < Config.byteTime s.cfg then readWave s.cfg j else readWave s.cfg (j - Config.byteTime s.cfg)) = _
      by_cases h1 : j < Config.byteTime s.cfg
      · rw [if_pos h1]
      · rw [if_neg h1, ← readWave_add s.cfg 8 (j - Config.byteTime s.cfg)]
        congr 1
        unfold Config.byteTime at h1 ⊢
        omega

/-- SP after the last `m` of the nine bytes. -/
theorem storeBytes_getElem (i : Nat) (hi : i < 9) (m : Nat) (hm : m ≤ 9) (t : Nat) (x : State) :
    (storeBytes (List.range' (9 - m) m) t x).sp[i]
      = if 9 - m ≤ i then byteOnLine x (t + (i - (9 - m)) * Config.byteTime x.cfg) else x.sp[i] := by
  induction m generalizing t x with
  | zero => simp [storeBytes, show ¬ 9 ≤ i by omega]
  | succ m ih =>
    rw [List.range'_succ, storeBytes, show 9 - (m + 1) + 1 = 9 - m by omega, ih (by omega)]
    have hv := storeBits_byte t x
    obtain ⟨b, v, e⟩ := storeBits_frame (List.range 8) t x
    rw [e] at hv ⊢
    by_cases h1 : 9 - m ≤ i
    · rw [if_pos h1, if_pos (by omega), show i - (9 - (m + 1)) = i - (9 - m) + 1 by omega, Nat.succ_mul,
        show t + ((i - (9 - m)) * Config.byteTime x.cfg + Config.byteTime x.cfg)
          = t + Config.byteTime x.cfg + (i - (9 - m)) * Config.byteTime x.cfg by omega]
      rfl
    · rw [if_neg h1]
      show (x.sp.setIfInBounds (9 - (m + 1)) v)[i] = _
      by_cases h2 : i = 9 - (m + 1)
      · subst h2
        rw [if_pos (Nat.le_refl _)]
        simp only [Nat.sub_self, Nat.zero_mul, Nat.add_zero, Vector.getElem_setIfInBounds_self]
        exact hv
      · rw [if_neg (by omega)]
        exact Vector.getElem_setIfInBounds_ne hi (by omega)

/-- SP after the nine bytes from tick t on is the scratchpad on the line (R106). -/
theorem storeBytes_scratchpad (t : Nat) (x : State) :
    (storeBytes (List.range 9) t x).sp = scratchpadOnLine x t := by
  apply Vector.ext
  intro i hi
  have h := storeBytes_getElem i hi 9 (Nat.le_refl 9) t x
  rw [Nat.sub_self, if_pos (Nat.zero_le i)] at h
  rw [List.range_eq_range', h]
  simp [scratchpadOnLine]

/-! Runs with command bytes: the step that runs one takes no tick. -/

/-- A run of `n` ticks from `s` to `t`, with drive state `w j` after its tick j. -/
def Passes (s t : State) (n : Nat) (w : Nat → Drive) : Prop :=
  (∃ k, steps k s = .next t) ∧ During s t n
    ∧ ∀ j < n, ∃ k m, steps k s = .next m ∧ During s m (j + 1) ∧ m.drive = w j

theorem Stretch.passes {s t : State} {n : Nat} {w : Nat → Drive} (h : Stretch s t n w) : Passes s t n w :=
  ⟨⟨n, h.1⟩, h.2.1, fun j hj => ⟨j + 1, h.2.2 j hj⟩⟩

/-- Such runs compose. -/
theorem Passes.append {s t u : State} {a b : Nat} {w v : Nat → Drive} (h : Passes s t a w) (k : Passes t u b v) :
    Passes s u (a + b) (fun j => if j < a then w j else v (j - a)) := by
  obtain ⟨⟨n, hn⟩, hd, hw⟩ := h
  obtain ⟨⟨l, hl⟩, kd, kw⟩ := k
  refine ⟨⟨n + l, by rw [steps_add hn, hl]⟩, hd.trans kd, fun j hj => ?_⟩
  by_cases hja : j < a
  · obtain ⟨i, m, x, y, z⟩ := hw j hja
    exact ⟨i, m, x, y, by simp [hja, z]⟩
  · obtain ⟨i, m, x, y, z⟩ := kw (j - a) (by omega)
    refine ⟨n + i, m, by rw [steps_add hn, x], ?_, by simp [hja, z]⟩
    have := hd.trans y
    rwa [show a + (j - a + 1) = j + 1 by omega] at this

/-- A command byte and its eight slots (43_command_sequencer.md R103, R106). -/
theorem passes_send (s : State) (u : Undisturbed s) {c : WireCmd} {rest : List Prim} (hs : s.seq = .send c :: rest) :
    Passes s (settle rest (setTick (s.tick + Config.byteTime s.cfg) (setDrive .rel s)))
      (Config.byteTime s.cfg) (byteWave s.cfg c.byte) := by
  let x := sendByte c.byte (setPosition rest s.elapsed s)
  have hx : step s = .next x := step_send s u.admitted u.quiet hs
  have hk : During s x 0 := ⟨rfl, rfl, rfl, rfl, rfl, rfl, rfl, rfl, rfl, rfl, rfl, rfl, rfl, rfl, rfl, rfl, rfl⟩
  obtain ⟨h1, h2, h3⟩ := stretch_byteWrite x (hk.undisturbed u rfl) c.byte rfl
  have e : settle rest (setTick (s.tick + Config.byteTime s.cfg) (setDrive .rel x))
      = settle rest (setTick (s.tick + Config.byteTime s.cfg) (setDrive .rel s)) :=
    settle_congr rest (setTick (s.tick + Config.byteTime s.cfg) (setDrive .rel s)) (byteWrite s.cfg c.byte ++ rest) 0
  rw [← e]
  refine ⟨⟨Config.byteTime s.cfg + 1, ?_⟩, ?_, fun j hj => ?_⟩
  · rw [steps_succ_of_step hx]
    exact h1
  · have := hk.trans h2
    rwa [Nat.zero_add] at this
  · obtain ⟨m, a, b, d⟩ := h3 j hj
    have := hk.trans b
    rw [Nat.zero_add] at this
    exact ⟨j + 1 + 1, m, by rw [steps_succ_of_step hx, a], this, d⟩

theorem Passes.congr {s t : State} {n : Nat} {w v : Nat → Drive} (h : Passes s t n w)
    (e : ∀ j < n, w j = v j) : Passes s t n v :=
  ⟨h.1, h.2.1, fun j hj => by
    obtain ⟨k, m, a, b, c⟩ := h.2.2 j hj
    exact ⟨k, m, a, b, by rw [c, e j hj]⟩⟩

/-- Such a run and a command byte after it. -/
theorem Passes.send {s x : State} {a : Nat} {w : Nat → Drive} {c : WireCmd} {rest : List Prim}
    (h : Passes s (settle (.send c :: rest) x) a w) (u : Undisturbed s) :
    Passes s (settle rest (setTick (x.tick + Config.byteTime x.cfg) (setDrive .rel x))) (a + Config.byteTime x.cfg)
      (fun j => if j < a then w j else byteWave x.cfg c.byte (j - a)) := by
  rw [settle_send] at h
  have k := passes_send (setPosition (.send c :: rest) 0 x) (h.2.1.undisturbed u rfl) rfl
  exact h.append ((settle_congr rest (setTick (x.tick + Config.byteTime x.cfg) (setDrive .rel x))
    (.send c :: rest) 0) ▸ k)

/-- The preface with the device present, then two command bytes (43_command_sequencer.md R102, R103, R106). -/
theorem passes_commands (s : State) (u : Undisturbed s) {c : WireCmd} {tail : List Prim}
    (hs : s.seq = preface s.cfg ++ .send .skipRom :: .send c :: tail)
    (hl : s.line (s.tick + Config.presenceSampleTime s.cfg) = false) :
    Passes s (settle tail (setTick (s.tick + Config.commandTime s.cfg)
        (setDrive .rel (storePres (setSample false s))))) (Config.commandTime s.cfg) (commandWave s.cfg c.byte) := by
  rw [preface, List.append_assoc] at hs
  have h := stretch_resetPresence s u hs
  rw [hl] at h
  have h1 : Stretch s (settle (.send .skipRom :: .send c :: tail) (setTick (s.tick + Config.presenceTime s.cfg)
    (setDrive .rel (storePres (setSample false s))))) (Config.presenceTime s.cfg) (presenceWave s.cfg) := h
  have h2 := (h1.passes.send u).send u
  rw [drive_drive, drive_drive] at h2
  have e : Config.presenceTime s.cfg + Config.byteTime s.cfg + Config.byteTime s.cfg = Config.commandTime s.cfg := by
    unfold Config.commandTime
    omega
  have h3 : Passes s (settle tail (setTick
      (s.tick + Config.presenceTime s.cfg + Config.byteTime s.cfg + Config.byteTime s.cfg)
      (setDrive .rel (storePres (setSample false s)))))
      (Config.presenceTime s.cfg + Config.byteTime s.cfg + Config.byteTime s.cfg)
      (fun j => if j < Config.presenceTime s.cfg + Config.byteTime s.cfg
        then (if j < Config.presenceTime s.cfg then presenceWave s.cfg j
          else byteWave s.cfg WireCmd.skipRom.byte (j - Config.presenceTime s.cfg))
        else byteWave s.cfg c.byte (j - (Config.presenceTime s.cfg + Config.byteTime s.cfg))) := h2
  rw [e, show s.tick + Config.presenceTime s.cfg + Config.byteTime s.cfg + Config.byteTime s.cfg
    = s.tick + Config.commandTime s.cfg by rw [← e]; omega] at h3
  have hw : ∀ j, (if j < Config.presenceTime s.cfg + Config.byteTime s.cfg
        then (if j < Config.presenceTime s.cfg then presenceWave s.cfg j
          else byteWave s.cfg WireCmd.skipRom.byte (j - Config.presenceTime s.cfg))
        else byteWave s.cfg c.byte (j - (Config.presenceTime s.cfg + Config.byteTime s.cfg)))
      = commandWave s.cfg c.byte j := by
    intro j
    unfold commandWave
    by_cases h4 : j < Config.presenceTime s.cfg
    · rw [if_pos (by omega), if_pos h4, if_pos h4]
    · by_cases h5 : j < Config.presenceTime s.cfg + Config.byteTime s.cfg
      · rw [if_pos h5, if_neg h4, if_neg h4, if_pos h5]
        rfl
      · rw [if_neg h5, if_neg h4, if_neg h5, Nat.sub_sub]
  exact h3.congr fun j _ => hw j

/-- An absent device leaves nothing of the procedure. -/
theorem settle_failIfAbsent {rest : List Prim} {x : State} (h : x.pres = true) :
    settle (.failIfAbsent :: rest) x = setPosition [] 0 x := by
  rw [settle, if_pos h]

/-- The preface with no device: nothing is left but to complete (R102). -/
theorem stretch_preface_absent (s : State) (u : Undisturbed s) {tail : List Prim}
    (hs : s.seq = preface s.cfg ++ tail) (hl : s.line (s.tick + Config.presenceSampleTime s.cfg) = true) :
    Stretch s (setPosition [] 0 (setTick (s.tick + Config.presenceTime s.cfg)
        (setDrive .rel (storePres (setSample true s))))) (Config.presenceTime s.cfg) (presenceWave s.cfg) := by
  rw [preface, List.append_assoc] at hs
  have h := stretch_resetPresence s u hs
  rw [hl] at h
  have e := settle_failIfAbsent (rest := tail) (x := setTick (s.tick + Config.presenceTime s.cfg)
    (setDrive .rel (storePres (setSample true s)))) rfl
  rw [← e]
  exact h

/-- The state with other readings of the line. -/
def setReadings (b : Bool) (v : Byte) (p : Vector Byte 9) (s : State) : State := { s with smp := b, sr := v, sp := p }

/-- The nine bytes of READ_TEMP (R106): SP is the scratchpad on the line. -/
theorem stretch_scratchpadRead (s : State) (u : Undisturbed s) (hs : s.seq = scratchpadRead s.cfg) :
    ∃ b v, Stretch s
      (setPosition [] 0 (setTick (s.tick + 9 * Config.byteTime s.cfg) (setDrive .rel
        (setReadings b v (scratchpadOnLine s s.tick) s))))
      (9 * Config.byteTime s.cfg) (readWave s.cfg) := by
  have k := stretch_byteReads (List.range 9) s u (rest := []) (by decide) (by rw [List.append_nil, hs, scratchpadRead_nine u.admitted])
  obtain ⟨b, v, p, e⟩ := storeBytes_frame (List.range 9) s.tick s
  have hp : p = scratchpadOnLine s s.tick := by rw [← storeBytes_scratchpad s.tick s, e]
  change storeBytes (List.range 9) s.tick s = setReadings b v p s at e
  rw [e, hp] at k
  exact ⟨b, v, k⟩

/-- What is on the line does not depend on the block. -/
theorem scratchpadOnLine_congr {x s : State} (hc : x.cfg = s.cfg) (hl : x.levels = s.levels) (t : Nat) :
    scratchpadOnLine x t = scratchpadOnLine s t := by
  unfold scratchpadOnLine byteOnLine slotOnLine State.line
  rw [hc, hl]

/-- The position the nine bytes leave does not depend on the one they had. -/
theorem readings_position (b : Bool) (v : Byte) (p : Vector Byte 9) (n : Nat) (d : Drive) (l : List Prim) (e : Nat)
    (x : State) :
    setPosition [] 0 (setTick n (setDrive d (setReadings b v p (setPosition l e x))))
      = setPosition [] 0 (setTick n (setDrive d (setReadings b v p x))) := rfl

/-- READ_TEMP's bus activity with the device present (R106). -/
theorem passes_readTemp (s : State) (u : Undisturbed s) (hs : s.seq = readTempProcedure s.cfg)
    (hl : s.line (s.tick + Config.presenceSampleTime s.cfg) = false) :
    ∃ b v, Passes s
      (setPosition [] 0 (setTick (s.tick + Config.commandTime s.cfg + 9 * Config.byteTime s.cfg) (setDrive .rel
        (setReadings b v (scratchpadOnLine s (s.tick + Config.commandTime s.cfg)) (storePres (setSample false s))))))
      (Config.commandTime s.cfg + 9 * Config.byteTime s.cfg) (readTempWave s.cfg) := by
  have hp : s.seq = preface s.cfg ++ .send .skipRom :: .send .readScratchpad :: scratchpadRead s.cfg := by
    rw [hs, readTempProcedure, List.append_assoc]
    rfl
  have h := passes_commands s u hp hl
  let x := setTick (s.tick + Config.commandTime s.cfg) (setDrive .rel (storePres (setSample false s)))
  have hx : settle (scratchpadRead s.cfg) x = setPosition (scratchpadRead s.cfg) 0 x := by
    rw [scratchpadRead_nine u.admitted]
    exact settle_slotRead u.admitted _ x
  change Passes s (settle (scratchpadRead s.cfg) x) _ _ at h
  rw [hx] at h
  obtain ⟨b, v, k⟩ := stretch_scratchpadRead (setPosition (scratchpadRead s.cfg) 0 x) (h.2.1.undisturbed u rfl) rfl
  rw [scratchpadOnLine_congr (x := setPosition (scratchpadRead s.cfg) 0 x) (s := s) rfl rfl, readings_position] at k
  exact ⟨b, v, h.append k.passes⟩

/-- An operation whose procedure has ended completes at the tick. -/
theorem step_complete (s : State) (u : Undisturbed s) (hs : s.seq = []) :
    step s = .next (setTick (s.tick + 1) (complete s)) := by
  rw [step_quiet s u.admitted u.quiet (by simp [hs])]
  unfold tickEvent
  rw [if_pos u.busy, hs, play]

end Sys2Proof.Machine
end

