-- ==== Sys2Proof/WellFormed.lean ====
section
/-! DEFINITION. Which instructions software may write: reserved and ignored bits as 0 (30_encoding.md R61, R66). The
hardware runs the others too and ignores those bits, so no meaning and no decoding asks for well-formedness. -/

namespace Sys2Proof

/-- R66: CTRL bits 7:4 and CONFIG bits 7:1 are written as 0. R61: D is written as 0 in a read. A write to a read-only
register has no field software must clear (R127). -/
def Instr.wellFormed : Instr → Bool
  | .nop ign => ign == 0
  | .init ign => ign == 0
  | .reset ign => ign == 0
  | .writeBit ign => ign == 0
  | .readBit ign => ign == 0
  | .writeByte ign => ign == 0
  | .readByte ign => ign == 0
  | .startConv ign => ign == 0
  | .readTemp ign => ign == 0
  | .reservedOp9 ign => ign == 0
  | .reservedOpAB ign _ => ign == 0
  | .reservedOpCF ign _ => ign == 0
  | .wrData _ => true
  | .wrConfig d => d.extractLsb' 1 7 == 0
  | .wrStatus _ => true
  | .wrTempL _ => true
  | .wrTempH _ => true
  | .wrCdlyL _ => true
  | .wrCdlyH _ => true
  | .rdCtrl d => d == 0
  | .rdStatus d => d == 0
  | .rdData d => d == 0
  | .rdConfig d => d == 0
  | .rdTempL d => d == 0
  | .rdTempH d => d == 0
  | .rdCdlyL d => d == 0
  | .rdCdlyH d => d == 0
  | .skipRom => true
  | .convertT => true
  | .readScratchpad => true

end Sys2Proof
end

