-- ==== Sys2Proof/Tests/Slice0.lean ====
section
/-! SUPPORT. The model's own tests. Expected values come from spec/30_encoding.md and spec/95_test_vectors.md; each test
names its place. The witnesses at the end meet the hypotheses of the statements in Obligations.lean, together. -/

namespace Sys2Proof.Machine.Tests

/-! ## Well-formedness: each check refuses an ill-formed term -/

theorem test_wellFormed_refuses_ctrl_bits :
    (Instr.nop 0x1).wellFormed = false ∧ (Instr.init 0x8).wellFormed = false
    ∧ (Instr.reset 0x2).wellFormed = false ∧ (Instr.writeBit 0x4).wellFormed = false
    ∧ (Instr.readBit 0xF).wellFormed = false ∧ (Instr.writeByte 0x1).wellFormed = false
    ∧ (Instr.readByte 0x3).wellFormed = false ∧ (Instr.startConv 0x8).wellFormed = false
    ∧ (Instr.readTemp 0x1).wellFormed = false ∧ (Instr.reservedOp9 0x1).wellFormed = false
    ∧ (Instr.reservedOpAB 0x1 0).wellFormed = false ∧ (Instr.reservedOpCF 0x1 0).wellFormed = false := by decide

theorem test_wellFormed_refuses_config_bits :
    (Instr.wrConfig 0x02).wellFormed = false ∧ (Instr.wrConfig 0x80).wellFormed = false := by decide

theorem test_wellFormed_refuses_read_data :
    (Instr.rdCtrl 0x01).wellFormed = false ∧ (Instr.rdStatus 0x80).wellFormed = false
    ∧ (Instr.rdData 0x01).wellFormed = false ∧ (Instr.rdConfig 0x01).wellFormed = false
    ∧ (Instr.rdTempL 0x01).wellFormed = false ∧ (Instr.rdTempH 0x01).wellFormed = false
    ∧ (Instr.rdCdlyL 0x01).wellFormed = false ∧ (Instr.rdCdlyH 0x01).wellFormed = false := by decide

/-! ## Decoding: a word of every row, written out from 30_encoding.md R61 to R65 and R70 -/

theorem test_decode_ctrl_writes :
    decodeHost 0b100000000000#12 = (.nop 0) ∧ decodeHost 0b100000000001#12 = (.init 0)
    ∧ decodeHost 0b100000000010#12 = (.reset 0) ∧ decodeHost 0b100000000011#12 = (.writeBit 0)
    ∧ decodeHost 0b100000000100#12 = (.readBit 0) ∧ decodeHost 0b100000000101#12 = (.writeByte 0)
    ∧ decodeHost 0b100000000110#12 = (.readByte 0) ∧ decodeHost 0b100000000111#12 = (.startConv 0)
    ∧ decodeHost 0b100010101000#12 = (.readTemp 0xA) ∧ decodeHost 0b100000001001#12 = (.reservedOp9 0)
    ∧ decodeHost 0b100000001010#12 = (.reservedOpAB 0 0)
    ∧ decodeHost 0b100000001011#12 = (.reservedOpAB 0 1)
    ∧ decodeHost 0b100000001100#12 = (.reservedOpCF 0 0)
    ∧ decodeHost 0b100000001111#12 = (.reservedOpCF 0 3) := by decide

theorem test_decode_register_writes :
    decodeHost 0b100111111111#12 = (.wrStatus 0xFF) ∧ decodeHost 0b101011001100#12 = (.wrData 0xCC)
    ∧ decodeHost 0b101100000001#12 = (.wrConfig 0x01)
    ∧ decodeHost 0b110000010010#12 = (.wrTempL 0x12)
    ∧ decodeHost 0b110100110100#12 = (.wrTempH 0x34)
    ∧ decodeHost 0b111000000000#12 = (.wrCdlyL 0) ∧ decodeHost 0b111100000000#12 = (.wrCdlyH 0) := by
  decide

theorem test_decode_register_reads :
    decodeHost 0b000000000000#12 = (.rdCtrl 0) ∧ decodeHost 0b000100000000#12 = (.rdStatus 0)
    ∧ decodeHost 0b001000000000#12 = (.rdData 0) ∧ decodeHost 0b001101010101#12 = (.rdConfig 0x55)
    ∧ decodeHost 0b010000000000#12 = (.rdTempL 0) ∧ decodeHost 0b010100000000#12 = (.rdTempH 0)
    ∧ decodeHost 0b011000000000#12 = (.rdCdlyL 0) ∧ decodeHost 0b011100000000#12 = (.rdCdlyH 0) := by
  decide

theorem test_decode_command_bytes :
    decode (.wire 0b11001100#8) = .ok .skipRom ∧ decode (.wire 0b01000100#8) = .ok .convertT
    ∧ decode (.wire 0b10111110#8) = .ok .readScratchpad
    ∧ decode (.wire 0b01001110#8) = .error (.notACommandByte 0x4E) := ⟨rfl, rfl, rfl, rfl⟩

/-- The decoder on table words. -/
theorem test_decode_table_words :
    decodeTableWord 12 0x807 = some (.startConv 0) ∧ decodeTableWord 16 0xB01 = some (.wrConfig 0x01)
    ∧ decodeTableWord 8 0xBE = some .readScratchpad ∧ decodeTableWord 16 0x1807 = none := by decide

/-- What the decoder rejects, by name. -/
theorem test_decode_rejects :
    decodeBytes [0x07, 0x18] = .error (.moreThanTwelveBits 0x18) ∧ decodeBytes [] = .error (.badLength 0)
    ∧ decodeBytes [0x00] = .error (.notACommandByte 0x00) := ⟨rfl, rfl, rfl⟩

/-! ## One step of an instruction -/

/-- The next state of an outcome, for a test that knows there is one. -/
def stateOf : Host.Outcome State Fault Refusal → State
  | .next t => t
  | .fault _ => State.reset
  | .refused _ => State.reset

/-- Idle, after an operation with the device present: STATUS 0x42. -/
def idle42 : State := { State.reset with present := true, done := true }

/-- Busy with READ_BYTE, the device seen present before: STATUS 0x03. -/
def busy03 : State := stateOf (exec (.readByte 0) { idle42 with data := 0xCC })

/-- A READ_TEMP at its completion, these nine bytes read, TEMP 0x1234 before. -/
def readTempEnd (sp : Vector Byte 9) : State :=
  { State.reset with cur := some .readTemp, temp := 0x1234, sp := sp }

/-- A START_CONV at its completion in parasite mode, the device present. -/
def startConvEnd : State :=
  { State.reset with cur := some .startConv, parasite := true, seq := [.holdIfParasite] }

/-- 95_test_vectors.md 2.6, rows 1 and 2. -/
theorem test_nop_idle : (stateOf (exec (.nop 0xF) idle42)).status = 0x42 := by decide

/-- 2.6: `WR CTRL, 0x00` while busy. -/
theorem test_nop_busy : (stateOf (exec (.nop 0) busy03)).status = 0x13 := by decide

/-- 2.6: INIT, STATUS 0x62 before: 0x23 right after. -/
theorem test_init_accepted : (stateOf (exec (.init 0) { idle42 with drive := .high })).status = 0x23 := by decide

/-- 2.6: INIT completes at the next tick, STATUS 0x40. -/
theorem test_init_completes :
    (stateOf (step (stateOf (exec (.init 0) { idle42 with drive := .high })))).status = 0x40 := by decide

/-- 60_exceptions.md R143: the timebase restarts with each operation. -/
theorem test_accept_restarts_timebase :
    (stateOf (exec (.init 0) { idle42 with divPhase := 3 })).divPhase = 0
    ∧ (stateOf (exec (.init 0) { busy03 with divPhase := 3 })).divPhase = 3 := by decide

/-- 2.6: RESET, STATUS 0x52 before. -/
theorem test_reset_accepted : (stateOf (exec (.reset 0) { idle42 with cmdErr := true })).status = 0x03 := by decide

/-- 2.2: WRITE_BIT sends bit 0 of 0xFE only: LOW 90, REL 5. -/
theorem test_writeBit_zero :
    (stateOf (exec (.writeBit 0) { State.reset with data := 0xFE })).seq = [.drive .low 90, .drive .rel 5] := by decide

/-- 2.2: WRITE_BIT of 1: LOW 2, REL 93. -/
theorem test_writeBit_one :
    (stateOf (exec (.writeBit 0) { State.reset with data := 0x01 })).seq
      = [.drive .low 2, .drive .rel 88, .drive .rel 5] := by decide

/-- 2.2: READ_BIT: LOW at 0..1, the sample at op tick 7, 95 ticks. -/
theorem test_readBit_slot :
    (stateOf (exec (.readBit 0) State.reset)).seq
      = [.drive .low 2, .drive .rel 5, .sample, .drive .rel 83, .drive .rel 5] := by decide

/-- E6: WRITE_BYTE of 0xB0 starts with bits 0, 0, 0, 0, 1. -/
theorem test_writeByte_order :
    (stateOf (exec (.writeByte 0) { State.reset with data := 0xB0 })).seq.take 10
      = [.drive .low 90, .drive .rel 5, .drive .low 90, .drive .rel 5, .drive .low 90, .drive .rel 5,
        .drive .low 90, .drive .rel 5, .drive .low 2, .drive .rel 88] := by decide

/-- 2.2: READ_BYTE stores the first slot's bit at place 0 and the last at place 7. -/
theorem test_readByte_order :
    (busy03.seq.filter fun p => match p with | .storeSr _ => true | _ => false)
      = [.storeSr 0, .storeSr 1, .storeSr 2, .storeSr 3, .storeSr 4, .storeSr 5, .storeSr 6, .storeSr 7] := by decide

/-- E11: START_CONV sends CC, then 44. -/
theorem test_startConv_sends :
    (stateOf (exec (.startConv 0) State.reset)).seq.drop 6 = [.send .skipRom, .send .convertT, .holdIfParasite] := by
  decide

/-- 2.4: START_CONV completes in parasite mode: STATUS 0x62, the line HIGH. -/
theorem test_startConv_pullUp :
    (stateOf (step startConvEnd)).status = 0x62 ∧ (stateOf (step startConvEnd)).drive = .high := by decide

/-- 2.4: READ_TEMP of E1's scratchpad: STATUS 0x42, TEMP 0x0191. -/
theorem test_readTemp_good :
    (stateOf (step (readTempEnd #v[0x91, 0x01, 0x4B, 0x46, 0x7F, 0xFF, 0x0F, 0x10, 0x25]))).status = 0x42
    ∧ (stateOf (step (readTempEnd #v[0x91, 0x01, 0x4B, 0x46, 0x7F, 0xFF, 0x0F, 0x10, 0x25]))).temp = 0x0191 := by
  decide

/-- E5: READ_TEMP with a bad CRC: STATUS 0x4A, TEMP kept. -/
theorem test_readTemp_bad :
    (stateOf (step (readTempEnd #v[0x91, 0x01, 0x4B, 0x46, 0x7F, 0xFF, 0x0F, 0x10, 0x26]))).status = 0x4A
    ∧ (stateOf (step (readTempEnd #v[0x91, 0x01, 0x4B, 0x46, 0x7F, 0xFF, 0x0F, 0x10, 0x26]))).temp = 0x1234 := by
  decide

/-- 2.6: 0x809 with STATUS 0x4A before. -/
theorem test_reserved9 :
    (stateOf (exec (.reservedOp9 0) { idle42 with errCrc := true })).status = 0x5A := by decide

/-- 30_encoding.md R64: 0xB is reserved. -/
theorem test_reservedAB : (stateOf (exec (.reservedOpAB 0 1) idle42)).status = 0x52 := by decide

/-- 2.6: 0x80F with STATUS 0x42 before. -/
theorem test_reservedCF : (stateOf (exec (.reservedOpCF 0 3) idle42)).status = 0x52 := by decide

/-- 2.6: `WR DATA, 0x00` while busy with DATA 0xCC. -/
theorem test_wrData_busy :
    (stateOf (exec (.wrData 0x00) busy03)).data = 0xCC ∧ (stateOf (exec (.wrData 0x00) busy03)).status = 0x13 := by
  decide

/-- 2.6: `WR CONFIG, 0xFF` while idle. -/
theorem test_wrConfig_idle : (stateOf (exec (.wrConfig 0xFF) idle42)).config = 0x01 := by decide

/-- 2.6: `WR CONFIG, 1` while busy. -/
theorem test_wrConfig_busy :
    (stateOf (exec (.wrConfig 0x01) busy03)).config = 0x00 ∧ (stateOf (exec (.wrConfig 0x01) busy03)).status = 0x13 := by
  decide

/-- 2.6: writes to read-only registers, busy: no effect, no CMD_ERR. -/
theorem test_readOnly_writes :
    (stateOf (exec (.wrStatus 0xFF) busy03)).status = 0x03 ∧ (stateOf (exec (.wrTempL 0x12) busy03)).temp = 0
    ∧ (stateOf (exec (.wrTempH 0x34) busy03)).status = 0x03
    ∧ (stateOf (exec (.wrCdlyL 0) busy03)).cfg.convDelayMs = 1000
    ∧ (stateOf (exec (.wrCdlyH 0) busy03)).status = 0x03 := by decide

/-- 2.6 and P1: the reads. -/
theorem test_reads :
    (stateOf (exec (.rdCtrl 0) busy03)).rdata = 0x00 ∧ (stateOf (exec (.rdStatus 0) busy03)).rdata = 0x03
    ∧ (stateOf (exec (.rdData 0) busy03)).rdata = 0xCC
    ∧ (stateOf (exec (.rdConfig 0) { State.reset with parasite := true })).rdata = 0x01
    ∧ (stateOf (exec (.rdTempL 0) { State.reset with temp := 0x0191 })).rdata = 0x91
    ∧ (stateOf (exec (.rdTempH 0) { State.reset with temp := 0x0191 })).rdata = 0x01
    ∧ (stateOf (exec (.rdCdlyL 0) busy03)).rdata = 0xE8 ∧ (stateOf (exec (.rdCdlyH 0) busy03)).rdata = 0x03 := by
  decide

/-- 2.2: 0xCC goes out as bits 0, 0, 1. -/
theorem test_skipRom_bits :
    (stateOf (exec .skipRom State.reset)).seq.take 5
      = [.drive .low 90, .drive .rel 5, .drive .low 90, .drive .rel 5, .drive .low 2] := by decide

/-- 2.4: the last slot of 0x44 carries 0: LOW 90, REL 5. -/
theorem test_convertT_last_slot :
    (stateOf (exec .convertT State.reset)).seq.drop 16 = [.drive .low 90, .drive .rel 5] := by decide

/-- 30_encoding.md R70: 0xBE goes out as bits 0, 1. -/
theorem test_readScratchpad_bits :
    (stateOf (exec .readScratchpad State.reset)).seq.take 3 = [.drive .low 90, .drive .rel 5, .drive .low 2] := by
  decide

/-- 2.8: a hardware reset in mid-operation: no completion. -/
theorem test_hardware_reset :
    (stateOf (step { busy03 with agenda := [.reset], temp := 0x0191 })).status = 0x00
    ∧ (stateOf (step { busy03 with agenda := [.reset], temp := 0x0191 })).temp = 0x0000 := by decide

/-! ## CRC and decoder vectors -/

/-- 95_test_vectors.md 2.1. -/
theorem test_crc_vectors :
    crc8 defaultConfig.crcTable [] = 0x00 ∧ crc8 defaultConfig.crcTable [0x01] = 0x5E
    ∧ crc8 defaultConfig.crcTable [0x80] = 0x8C ∧ crc8 defaultConfig.crcTable [0xCC, 0x44] = 0xDE
    ∧ crc8 defaultConfig.crcTable [0x91, 0x01, 0x4B, 0x46, 0x7F, 0xFF, 0x0F, 0x10] = 0x25
    ∧ crc8 defaultConfig.crcTable [0x02, 0x1C, 0xB8, 0x01, 0x00, 0x00, 0x00] = 0xA2 := by decide

/-- 2.5: each resolution, and a bad CRC. -/
theorem test_decoder_vectors :
    decodeScratchpad defaultConfig.crcTable #v[0x91, 0x01, 0x4B, 0x46, 0x1F, 0xFF, 0x0F, 0x10, 0xB5] = some 0x0190
    ∧ decodeScratchpad defaultConfig.crcTable #v[0x97, 0x01, 0x4B, 0x46, 0x3F, 0xFF, 0x0F, 0x10, 0x56] = some 0x0194
    ∧ decodeScratchpad defaultConfig.crcTable #v[0xFF, 0xFF, 0x4B, 0x46, 0x5F, 0xFF, 0x0F, 0x10, 0x36] = some 0xFFFE
    ∧ decodeScratchpad defaultConfig.crcTable #v[0x5E, 0xFF, 0x4B, 0x46, 0x7F, 0xFF, 0x02, 0x10, 0xB6] = some 0xFF5E
    ∧ decodeScratchpad defaultConfig.crcTable #v[0x91, 0x01, 0x4B, 0x46, 0x7F, 0xFF, 0x0F, 0x10, 0x26] = none := by
  decide

/-! ## Witnesses: concrete states and operands that meet each statement's hypotheses together, clause by clause -/

/-- Reset state with answers of the line and pending events. -/
def fresh (levels : List (Nat × Bool)) (agenda : List Event) : State := State.resetWith defaultConfig levels agenda

/-- READ_BYTE accepted right after reset. -/
def running : State := accept .readByte State.reset

/-- An operation that ends at the next tick. -/
def ending (op : Op) : State := { State.reset with cur := some op }

theorem witness_admitted : State.reset.cfg.admitted = true := by decide

theorem witness_ready : Ready State.reset := ⟨by decide, rfl, rfl, rfl⟩

/-- No device: the line is high at the presence sample. -/
theorem witness_ready_absent :
    Ready (fresh [(1060, true)] [])
    ∧ (fresh [(1060, true)] []).line
        ((fresh [(1060, true)] []).tick + Config.presenceSampleTime (fresh [(1060, true)] []).cfg) = true :=
  ⟨⟨by decide, rfl, rfl, rfl⟩, by decide⟩

/-- A device: the line is low at the presence sample. -/
theorem witness_ready_present :
    Ready (fresh [(1060, false)] [])
    ∧ (fresh [(1060, false)] []).line
        ((fresh [(1060, false)] []).tick + Config.presenceSampleTime (fresh [(1060, false)] []).cfg) = false :=
  ⟨⟨by decide, rfl, rfl, rfl⟩, by decide⟩

/-- A device on the line and parasite mode: START_CONV ends with the pull-up. -/
theorem witness_ready_parasite :
    (let s := { fresh [(1060, false)] [] with parasite := true };
      Ready s ∧ s.line (s.tick + Config.presenceSampleTime s.cfg) = false ∧ s.parasite = true) :=
  ⟨⟨by decide, rfl, rfl, rfl⟩, by decide, rfl⟩

/-- The answers of a device that sends these nine bytes to READ_TEMP: its presence, then bit k of byte i at tick
3000 + 760 i + 95 k + 7 (95_test_vectors.md 2.4: reset 1480, two bytes of 760, slots of 95, sample at 7). -/
def sends (sp : Vector Byte 9) : List (Nat × Bool) :=
  (1060, false) :: (List.range 9).flatMap fun i =>
    (List.range 8).map fun k => (3000 + 760 * i + 95 * k + 7, (sp.toList.getD i 0).getLsbD k)

/-- E1's nine bytes on the line, and the same with a bad CRC byte (E5). -/
theorem witness_ReadTempDecodesTheBytesOnTheLine :
    (let s := fresh (sends #v[0x91, 0x01, 0x4B, 0x46, 0x7F, 0xFF, 0x0F, 0x10, 0x25]) [];
      Ready s ∧ s.line (s.tick + Config.presenceSampleTime s.cfg) = false
      ∧ decodeScratchpad s.cfg.crcTable (scratchpadOnLine s (s.tick + Config.commandTime s.cfg)) = some 0x0191)
    ∧ (let s := fresh (sends #v[0x91, 0x01, 0x4B, 0x46, 0x7F, 0xFF, 0x0F, 0x10, 0x26]) [];
      Ready s ∧ s.line (s.tick + Config.presenceSampleTime s.cfg) = false
      ∧ decodeScratchpad s.cfg.crcTable (scratchpadOnLine s (s.tick + Config.commandTime s.cfg)) = none) :=
  ⟨⟨⟨by decide, rfl, rfl, rfl⟩, by decide, by decide⟩, ⟨by decide, rfl, rfl, rfl⟩, by decide, by decide⟩

theorem witness_inv_reset : Inv State.reset := by constructor <;> decide

theorem witness_inv_running : Inv running := by constructor <;> decide

theorem witness_EncodeOfDecodeIsIdentity :
    decode (.host 0x8F0) = .ok (.nop 0xF) ∧ decode (.wire 0xBE) = .ok .readScratchpad := ⟨rfl, rfl⟩

theorem witness_ReservedBitsAreIgnoredAndReadZero :
    decode (.host (hostWord 1 .ctrl 0xF7)) = .ok (.startConv 0xF)
    ∧ decode (.host (hostWord 1 .ctrl (0xF7 &&& 0x0F))) = .ok (.startConv 0) := ⟨rfl, rfl⟩

theorem witness_StepRunsThePendingHostWord :
    (let s := fresh [] [.txn 0x807];
      s.cfg.admitted = true ∧ s.agenda = .txn 0x807 :: [] ∧ s.rst = false ∧ decode (.host 0x807) = .ok (.startConv 0))
    ∧ (let s := { fresh [] [.txn 0x100] with rst := true };
      s.cfg.admitted = true ∧ s.agenda = .txn 0x100 :: [] ∧ (0x100 : HostWord).getLsbD 11 = false
      ∧ decode (.host 0x100) = .ok (.rdStatus 0)) :=
  ⟨⟨by decide, rfl, rfl, rfl⟩, by decide, rfl, rfl, rfl⟩

theorem witness_StepRunsTheCommandByteReached :
    (let s := { State.reset with cur := some .startConv, seq := [.send .skipRom] };
      s.cfg.admitted = true ∧ tickNext s = true ∧ s.seq = .send .skipRom :: []
      ∧ decode (.wire WireCmd.skipRom.byte) = .ok .skipRom)
    ∧ (let s := { fresh [] [.tick] with cur := some .readTemp, seq := [.send .readScratchpad] };
      s.cfg.admitted = true ∧ tickNext s = true ∧ s.seq = .send .readScratchpad :: []
      ∧ decode (.wire WireCmd.readScratchpad.byte) = .ok .readScratchpad) :=
  ⟨⟨by decide, rfl, rfl, rfl⟩, by decide, rfl, rfl, rfl⟩

theorem witness_WithFetchWordIsRunNext :
    State.reset.cfg.admitted = true ∧ decode (.host 0xFFF) = .ok (.wrCdlyH 0xFF) ∧ decode (.host 0x000) = .ok (.rdCtrl 0)
    ∧ decode (.wire 0x44) = .ok .convertT := ⟨by decide, rfl, rfl, rfl⟩

/-- 00_scope.md R7: T_RSTL is at least 1000; R6: SP_LEN is 9, REG_WIDTH 8, ADDR_WIDTH 3. -/
theorem witness_IllegalParametersAreRefused :
    (State.resetWith { defaultConfig with tRstl := 999 } [] []).cfg.legal = false
    ∧ (let c := (State.resetWith { defaultConfig with spLen := 10 } [] []).cfg;
      c.legal = true ∧ c.widthsCovered = false)
    ∧ (let c := (State.resetWith { defaultConfig with regWidth := 16 } [] []).cfg;
      c.legal = true ∧ c.widthsCovered = false)
    ∧ (let c := (State.resetWith { defaultConfig with addrWidth := 2 } [] []).cfg;
      c.legal = true ∧ c.widthsCovered = false) := by decide

/-- The tick that comes when nothing is pending, and a pending one. -/
theorem witness_IdleTickChangesNothing :
    (State.reset.cfg.admitted = true ∧ State.reset.cur = none ∧ State.reset.seq = [] ∧ State.reset.agenda = [])
    ∧ (let s := fresh [] [.tick, .txn 0x100];
      s.cfg.admitted = true ∧ s.cur = none ∧ s.seq = [] ∧ s.agenda = .tick :: [.txn 0x100]) := by decide

/-- A divider of three cycles, and the shortest one. -/
theorem witness_DividerMakesOneTick :
    (let s := State.resetWith { defaultConfig with clksPerUs := 3 } [] [.clk, .clk, .clk, .txn 0x100];
      s.cfg.admitted = true ∧ 1 ≤ s.cfg.clksPerUs ∧ s.divPhase = 0
      ∧ s.agenda = List.replicate s.cfg.clksPerUs .clk ++ [.txn 0x100])
    ∧ (let s := fresh [] [.clk];
      s.cfg.admitted = true ∧ 1 ≤ s.cfg.clksPerUs ∧ s.divPhase = 0
      ∧ s.agenda = List.replicate s.cfg.clksPerUs .clk ++ []) := by decide

/-- The four clauses, at both ends of the operation codes and of the reserved codes. -/
theorem witness_CtrlWriteFollowsTheAcceptanceProcedure :
    running.busy = true ∧ State.reset.busy = false
    ∧ decode (.host (hostWord 1 .ctrl 0xF0)) = .ok (.nop 0xF) ∧ (0xF0 : Byte).extractLsb' 0 4 = 0
    ∧ decode (.host (hostWord 1 .ctrl 0x01)) = .ok (.init 0)
    ∧ (0x01 : Byte).extractLsb' 0 4 ≠ 0 ∧ ((0x01 : Byte).extractLsb' 0 4).toNat ≤ 8
    ∧ decode (.host (hostWord 1 .ctrl 0x08)) = .ok (.readTemp 0)
    ∧ (0x08 : Byte).extractLsb' 0 4 ≠ 0 ∧ ((0x08 : Byte).extractLsb' 0 4).toNat ≤ 8
    ∧ decode (.host (hostWord 1 .ctrl 0x09)) = .ok (.reservedOp9 0) ∧ 8 < ((0x09 : Byte).extractLsb' 0 4).toNat
    ∧ decode (.host (hostWord 1 .ctrl 0x0F)) = .ok (.reservedOpCF 0 3) ∧ 8 < ((0x0F : Byte).extractLsb' 0 4).toNat :=
  ⟨rfl, rfl, rfl, rfl, rfl, by decide, by decide, rfl, by decide, by decide, rfl, by decide, rfl, by decide⟩

theorem witness_OperationsAreAcceptedWhenIdle : State.reset.cur = none := rfl

/-- Idle and busy, for the statements with both clauses: NOP, the reserved codes, DATA, CONFIG, INIT. -/
theorem witness_idle_and_busy : State.reset.busy = false ∧ running.busy = true := ⟨rfl, rfl⟩

/-- Nothing pending; both kinds of time to come; a status read, a refused write and a clock cycle, with the operation in
progress all along. -/
theorem witness_RefusedCtrlWriteLeavesTheOperationAlone :
    decode (.host (hostWord 1 .ctrl 0x00)) = .ok (.nop 0)
    ∧ (running.busy = true ∧ (∀ e ∈ running.agenda, e = .tick ∨ e = .clk)
      ∧ steps 1 running = .next (tickEvent running))
    ∧ (let s := { running with agenda := [.clk, .tick] };
      s.busy = true ∧ (∀ e ∈ s.agenda, e = .tick ∨ e = .clk) ∧ steps 1 s = .next (nextEvent s))
    ∧ (let s := { running with agenda := [.txn 0x100, .txn 0x807, .clk] };
      (∀ e ∈ s.agenda, e = .tick ∨ e = .clk ∨ ∃ w, e = .txn w)
      ∧ (∀ k < 2, ∀ u, steps k s = .next u → u.busy = true)
      ∧ steps 2 s = .next { running with agenda := [.clk], rdata := 0x01, cmdErr := true }) := by
  refine ⟨rfl, ⟨rfl, by decide, rfl⟩, ⟨rfl, by decide, rfl⟩, ?_, ?_, rfl⟩
  · simp
  · intro k hk u hu
    match k, hk with
    | 0, _ => cases hu; rfl
    | 1, _ => cases hu; rfl

theorem witness_RegisterReadsReturnTheirValues : State.reset.cfg.convDelayMs = 1000 := rfl

theorem witness_ReadsAreIdempotent :
    decode (.host (hostWord 0 .tempH 0x00)) = .ok (.rdTempH 0x00)
    ∧ decode (.host (hostWord 0 .tempH 0xFF)) = .ok (.rdTempH 0xFF) := ⟨rfl, rfl⟩

theorem witness_PinsAndSpuFollowTheDriveState :
    State.reset.drive = .rel ∧ (setDrive .low State.reset).drive = .low
    ∧ (setDrive .high State.reset).drive = .high := ⟨rfl, rfl, rfl⟩

theorem witness_EveryStepKeepsTheInvariant : Inv running ∧ step running = .next (tickEvent running) :=
  ⟨witness_inv_running, rfl⟩

theorem witness_NoRunShowsBothOperationErrors :
    steps 1 (State.resetWith defaultConfig [(0, true)] [.txn 0x808]) =
      .next (stateOf (exec (.readTemp 0) (State.resetWith defaultConfig [(0, true)] []))) := rfl

theorem witness_startConvEnd_inv : Inv startConvEnd := by constructor <;> decide

theorem witness_PullUpStartsOnlyWithStartConv :
    Inv startConvEnd ∧ step startConvEnd = .next (tickEvent startConvEnd)
    ∧ startConvEnd.drive ≠ .high ∧ (tickEvent startConvEnd).drive = .high :=
  ⟨witness_startConvEnd_inv, rfl, by decide, by decide⟩

/-- By the tick of a READ_BYTE, and by a hardware reset. -/
theorem witness_PullUpEndsOnlyAtATickOfAnOperationOrAReset :
    (let s := setDrive .high running;
      step s = .next (nextEvent s) ∧ s.drive = .high ∧ (nextEvent s).drive ≠ .high)
    ∧ (let s := setDrive .high (fresh [] [.reset]);
      step s = .next (nextEvent s) ∧ s.drive = .high ∧ (nextEvent s).drive ≠ .high) :=
  ⟨⟨rfl, rfl, by decide⟩, rfl, rfl, by decide⟩

/-- A READ_BIT at its sample, the line high. -/
def sampling : State :=
  { fresh [(7, true)] [] with cur := some .readBit, tick := 7, seq := [.sample, .drive .rel 83, .drive .rel 5] }

theorem witness_SamplesAreTakenOnlyFromAReleasedLine :
    Inv sampling ∧ step sampling = .next (tickEvent sampling) ∧ sampling.busy = true
    ∧ (tickEvent sampling).busy = true ∧ (tickEvent sampling).smp ≠ sampling.smp :=
  ⟨by constructor <;> decide, rfl, rfl, rfl, by decide⟩

theorem witness_NoResultShowsBeforeCompletion :
    step running = .next (tickEvent running) ∧ running.busy = true ∧ (tickEvent running).busy = true := ⟨rfl, rfl, rfl⟩

/-- E1's scratchpad. -/
def goodScratchpad : Vector Byte 9 := #v[0x91, 0x01, 0x4B, 0x46, 0x7F, 0xFF, 0x0F, 0x10, 0x25]

/-- By a READ_TEMP, and by a hardware reset. -/
theorem witness_TempChangesOnlyByASuccessfulReadTemp :
    (let s := readTempEnd goodScratchpad;
      Inv s ∧ step s = .next (tickEvent s) ∧ (tickEvent s).temp ≠ s.temp)
    ∧ (let s := { fresh [] [.rstHold] with temp := 0x0191 };
      Inv s ∧ step s = .next (nextEvent s) ∧ (nextEvent s).temp ≠ s.temp) :=
  ⟨⟨by constructor <;> decide, rfl, by decide⟩, by constructor <;> decide, rfl, by decide⟩

/-- By READ_BYTE, by READ_BIT, by a write, and by a hardware reset. -/
theorem witness_DataChangesOnlyByItsWriteAReadOrReset :
    (let s := { ending .readByte with sr := 0x91 };
      step s = .next (tickEvent s) ∧ (tickEvent s).data ≠ s.data)
    ∧ (let s := { ending .readBit with smp := true };
      step s = .next (tickEvent s) ∧ (tickEvent s).data ≠ s.data)
    ∧ (let s := fresh [] [.txn 0xACC];
      step s = .next { s with agenda := [], data := 0xCC } ∧ (0xCC : Byte) ≠ s.data)
    ∧ (let s := { fresh [] [.reset] with data := 0xCC };
      step s = .next (nextEvent s) ∧ (nextEvent s).data ≠ s.data) :=
  ⟨⟨rfl, by decide⟩, ⟨rfl, by decide⟩, ⟨rfl, by decide⟩, rfl, by decide⟩

/-- By a write, and by a hardware reset. -/
theorem witness_ConfigChangesOnlyByItsWriteOrReset :
    (let s := fresh [] [.txn 0xBFF];
      step s = .next { s with agenda := [], parasite := true } ∧ true ≠ s.parasite)
    ∧ (let s := { fresh [] [.reset] with parasite := true };
      step s = .next (nextEvent s) ∧ (nextEvent s).parasite ≠ s.parasite) :=
  ⟨⟨rfl, by decide⟩, rfl, by decide⟩

/-- By INIT, RESET, START_CONV, READ_TEMP, and by a hardware reset. -/
theorem witness_PresentChangesOnlyAtCompletionOrReset :
    (let s := { ending .init with present := true, seq := [.hold .rel] };
      step s = .next (tickEvent s) ∧ (tickEvent s).present ≠ s.present)
    ∧ (let s := ending .reset;
      step s = .next (tickEvent s) ∧ (tickEvent s).present ≠ s.present)
    ∧ (let s := ending .startConv;
      step s = .next (tickEvent s) ∧ (tickEvent s).present ≠ s.present)
    ∧ (let s := { ending .readTemp with present := true, pres := true };
      step s = .next (tickEvent s) ∧ (tickEvent s).present ≠ s.present)
    ∧ (let s := { fresh [] [.reset] with present := true };
      step s = .next (nextEvent s) ∧ (nextEvent s).present ≠ s.present) :=
  ⟨⟨rfl, by decide⟩, ⟨rfl, by decide⟩, ⟨rfl, by decide⟩, ⟨rfl, by decide⟩, rfl, by decide⟩

/-- All four bits at once, by an acceptance and by a hardware reset. -/
theorem witness_ErrorBitsClearOnlyByAcceptanceOrReset :
    (let s := { fresh [] [.txn 0x802] with errAbsent := true, errCrc := true, cmdErr := true, done := true };
      let t := accept .reset { s with agenda := [] };
      step s = .next t ∧ (s.errAbsent = true ∧ t.errAbsent = false) ∧ (s.errCrc = true ∧ t.errCrc = false)
      ∧ (s.cmdErr = true ∧ t.cmdErr = false) ∧ (s.done = true ∧ t.done = false))
    ∧ (let s := { fresh [] [.reset] with errAbsent := true, errCrc := true, cmdErr := true, done := true };
      let t := nextEvent s;
      step s = .next t ∧ (s.errAbsent = true ∧ t.errAbsent = false) ∧ (s.errCrc = true ∧ t.errCrc = false)
      ∧ (s.cmdErr = true ∧ t.cmdErr = false) ∧ (s.done = true ∧ t.done = false)) :=
  ⟨⟨rfl, by decide⟩, rfl, by decide⟩

/-- It goes on, it ends, it is abandoned; and one starts. -/
theorem witness_OneOperationAtATime :
    (step running = .next (tickEvent running) ∧ running.cur = some .readByte)
    ∧ (step (ending .init) = .next (tickEvent (ending .init)) ∧ (ending .init).cur = some .init)
    ∧ (let s := { fresh [] [.reset] with cur := some .readByte };
      step s = .next (nextEvent s) ∧ s.cur = some .readByte)
    ∧ (let s := fresh [] [.txn 0x806];
      step s = .next running ∧ s.cur = none ∧ running.cur ≠ none) :=
  ⟨⟨rfl, rfl⟩, ⟨rfl, rfl⟩, ⟨rfl, rfl⟩, rfl, rfl, by decide⟩

theorem witness_CdlyNeverChanges :
    steps 1 running = .next (tickEvent running) ∧ running.cfg.convDelayMs = 1000
    ∧ exec (.rdCdlyL 0) (tickEvent running) = .next (hostRead .cdlyL (tickEvent running))
    ∧ exec (.rdCdlyH 0) (hostRead .cdlyL (tickEvent running))
        = .next (hostRead .cdlyH (hostRead .cdlyL (tickEvent running))) := ⟨rfl, rfl, rfl, rfl⟩

theorem witness_HardwareResetLoadsTheTable :
    (let s := { running with agenda := [.reset] };
      s.cfg.admitted = true ∧ s.agenda = (if false then Event.rstHold else .reset) :: [])
    ∧ (let s := { running with agenda := [.rstHold, .tick] };
      s.cfg.admitted = true ∧ s.agenda = (if true then Event.rstHold else .reset) :: [.tick]) := by decide

theorem witness_HeldResetIgnoresWritesAndReadsResetValues :
    (let s := { fresh [] [.txn 0xACC] with rst := true };
      Inv s ∧ s.cfg.admitted = true ∧ s.rst = true ∧ s.agenda = .txn 0xACC :: [] ∧ (0xACC : HostWord).getLsbD 11 = true)
    ∧ (let s := { fresh [] [.txn 0x700] with rst := true };
      Inv s ∧ s.cfg.admitted = true ∧ s.rst = true ∧ s.agenda = .txn 0x700 :: []
      ∧ (0x700 : HostWord).getLsbD 11 = false) :=
  ⟨⟨by constructor <;> decide, by decide⟩, by constructor <;> decide, by decide⟩

/-- A good CRC and a bad one. -/
theorem witness_DecodeChecksTheCrcThenMasks :
    (let sp := goodScratchpad;
      crc8 defaultConfig.crcTable [sp[0], sp[1], sp[2], sp[3], sp[4], sp[5], sp[6], sp[7]] = sp[8])
    ∧ (let sp := goodScratchpad.set 8 0x26;
      crc8 defaultConfig.crcTable [sp[0], sp[1], sp[2], sp[3], sp[4], sp[5], sp[6], sp[7]] ≠ sp[8]) := by decide

/-- Two scratchpads of 95_test_vectors.md 2.5 that differ in bits 7 and 4:0 of SP[4]. -/
theorem witness_UnusedScratchpadBitsMatterOnlyToTheCrc :
    let sp := goodScratchpad;
    let sq : Vector Byte 9 := #v[0x91, 0x01, 0x4B, 0x46, 0x60, 0xFF, 0x0F, 0x10, 0x87];
    sp[0] = sq[0] ∧ sp[1] = sq[1] ∧ sp[4] &&& 0x60 = sq[4] &&& 0x60
    ∧ decodeScratchpad defaultConfig.crcTable sp = some 0x0191
    ∧ decodeScratchpad defaultConfig.crcTable sq = some 0x0191 := by decide

end Sys2Proof.Machine.Tests
end

section
/-! The registers and pins as functions of the state: what follows the drive state, and the reset values
(10_state.md R27, R34, R41). -/

namespace Sys2Proof.Machine

/-- 45_host_control.md R128: bit 5 of STATUS is SPU. -/
theorem State.status_getLsbD_five (s : State) : s.status.getLsbD 5 = s.spu := by
  simp only [State.status, bit, BitVec.getLsbD_append, BitVec.getLsbD_ofBool]
  simp

/-- The pins and STATUS.SPU depend on nothing but the drive state. -/
theorem pins_and_spu_of_drive {s : State} {d : Drive} (h : s.drive = d) :
    s.dqOe = (d != .rel) ∧ s.dqO = (d == .high) ∧ s.status.getLsbD 5 = (d == .high) := by
  subst h
  exact ⟨rfl, rfl, s.status_getLsbD_five⟩

/-- Settles O24: SPU and the pins are functions of the drive state, read off at each of its three values. -/
theorem pinsAndSpuFollowTheDriveState : Obligations.PinsAndSpuFollowTheDriveState := by
  intro s
  refine ⟨fun hrel => ?_, fun hlow => ?_, fun hhigh => ?_⟩
  · exact pins_and_spu_of_drive hrel
  · exact pins_and_spu_of_drive hlow
  · exact pins_and_spu_of_drive hhigh

/-- Settles O51: the line is released, so the pins are those of REL; every other value is a field of the reset state, or
is computed from its fields. -/
theorem resetStateHasTheValuesOfTheTable : Obligations.ResetStateHasTheValuesOfTheTable := by
  have hdrive : State.reset.drive = .rel := rfl
  obtain ⟨hoe, ho, -⟩ := pins_and_spu_of_drive hdrive
  exact ⟨rfl, rfl, rfl, rfl, rfl, rfl, hdrive, hoe, ho, rfl⟩

end Sys2Proof.Machine
end

section
/-! Host reads: the fields of a host word, and why a second read repeats the first (20_memory.md R51). -/

namespace Sys2Proof.Machine

/-- 30_encoding.md R61: bit 11 of a host word is its write bit. -/
theorem isWrite_hostWord (write : BitVec 1) (r : Reg) (d : Byte) :
    HostWord.isWrite (hostWord write r d) = write.getLsbD 0 := by
  rw [HostWord.isWrite, hostWord, BitVec.getLsbD_append, BitVec.getLsbD_append]
  rfl

/-- R61: bits 10 to 8 of a host word are the register's offset. -/
theorem extractLsb'_offset_hostWord (write : BitVec 1) (r : Reg) (d : Byte) :
    (hostWord write r d).extractLsb' 8 3 = r.offset := by
  have habove : (hostWord write r d).extractLsb' 8 3 = (write ++ r.offset).extractLsb' 0 3 :=
    BitVec.extractLsb'_append_eq_of_le (Nat.le_refl 8)
  rw [habove, BitVec.extractLsb'_append_eq_right]

/-- R61: bits 7 to 0 of a host word are its D field. -/
theorem extractLsb'_data_hostWord (write : BitVec 1) (r : Reg) (d : Byte) :
    (hostWord write r d).extractLsb' 0 8 = d :=
  BitVec.extractLsb'_append_eq_right

/-- 10_state.md R19: a register is found at its offset. -/
theorem ofOffset_offset (r : Reg) : Reg.ofOffset r.offset = r := by
  cases r <;> rfl

/-- 30_encoding.md R62: the word of a host read decodes to the read of its register. -/
theorem decode_hostWord_read (r : Reg) (d : Byte) : decode (.host (hostWord 0 r d)) = .ok (decodeRead r d) := by
  have hread : HostWord.isWrite (hostWord 0 r d) = false := isWrite_hostWord 0 r d
  rw [decode, decodeHost_read _ hread, extractLsb'_offset_hostWord, extractLsb'_data_hostWord, ofOffset_offset]

/-- No register's read value depends on what the last read left on h_rdata. -/
theorem readReg_hostRead (r q : Reg) (s : State) : readReg r (hostRead q s) = readReg r s := by
  cases r <;> rfl

/-- R51: a second read of the same register leaves the state as the first left it. -/
theorem hostRead_hostRead (r : Reg) (s : State) : hostRead r (hostRead r s) = hostRead r s := by
  rw [hostRead, readReg_hostRead]
  rfl

/-- Settles O23: both words run as the host read of their register, which writes only h_rdata and is idempotent. -/
theorem readsAreIdempotent : Obligations.ReadsAreIdempotent := by
  intro s r d e i j hi hj
  obtain rfl : decodeRead r d = i := Except.ok.inj ((decode_hostWord_read r d).symm.trans hi)
  obtain rfl : decodeRead r e = j := Except.ok.inj ((decode_hostWord_read r e).symm.trans hj)
  refine ⟨hostRead r s, exec_read r d s, rfl, ?_⟩
  rw [exec_read, hostRead_hostRead]

end Sys2Proof.Machine
end

section
/-! Reserved bits: ignored in a CTRL write, read as 0 in CONFIG and STATUS (30_encoding.md R66). -/

namespace Sys2Proof.Machine

/-- 30_encoding.md R62: the word of a host write decodes to the write of its register. -/
theorem decode_hostWord_write (r : Reg) (d : Byte) : decode (.host (hostWord 1 r d)) = .ok (decodeWrite r d) := by
  have hwrite : HostWord.isWrite (hostWord 1 r d) = true := isWrite_hostWord 1 r d
  simp only [decode, decodeHost, hwrite, extractLsb'_offset_hostWord, extractLsb'_data_hostWord, ofOffset_offset, if_true]

/-- R63: the operation code is what the mask 0x0F leaves of D. -/
theorem extractLsb'_op_and_mask (v : Byte) : (v &&& 0x0F).extractLsb' 0 4 = v.extractLsb' 0 4 := by
  have hmask : (0x0F : Byte).extractLsb' 0 4 = BitVec.allOnes 4 := rfl
  rw [BitVec.extractLsb'_and, hmask, BitVec.and_allOnes]

/-- R66: a CTRL write's meaning, one arm per operation code, does not depend on D[7:4]. -/
theorem exec_decodeOp_ign (ign ign' op : BitVec 4) (s : State) :
    exec (decodeOp ign op) s = exec (decodeOp ign' op) s := by
  unfold decodeOp
  split <;> rfl

/-- R66: a CTRL write and the same write with bits 7:4 cleared have the same operation code. -/
theorem exec_ctrlWrite_and_mask (v : Byte) (s : State) :
    exec (decodeWrite .ctrl (v &&& 0x0F)) s = exec (decodeWrite .ctrl v) s := by
  simp only [decodeWrite, extractLsb'_op_and_mask]
  exact exec_decodeOp_ign _ _ _ s

/-- R66: CONFIG has nothing but its bit 0. -/
theorem State.config_and_reserved (s : State) : s.config &&& 0xFE = 0 := by
  rw [State.config]
  cases s.parasite <;> rfl

/-- R66, 45_host_control.md R128: bit 7 of STATUS is 0. -/
theorem State.status_getLsbD_seven (s : State) : s.status.getLsbD 7 = false := by
  simp only [State.status, BitVec.getLsbD_append]
  rfl

/-- Settles O6: a CTRL write runs by its operation code alone, and the two reads return values whose reserved bits are
constants. -/
theorem reservedBitsAreIgnoredAndReadZero : Obligations.ReservedBitsAreIgnoredAndReadZero := by
  refine ⟨fun v s i j hi hj => ?_, fun s d => ⟨?_, ?_⟩⟩
  · obtain rfl : decodeWrite .ctrl v = i := Except.ok.inj ((decode_hostWord_write .ctrl v).symm.trans hi)
    obtain rfl : decodeWrite .ctrl (v &&& 0x0F) = j := Except.ok.inj ((decode_hostWord_write .ctrl _).symm.trans hj)
    exact (exec_ctrlWrite_and_mask v s).symm
  · exact ⟨hostRead .config s, exec_read .config d s, s.config_and_reserved⟩
  · exact ⟨hostRead .status s, exec_read .status d s, s.status_getLsbD_seven⟩

end Sys2Proof.Machine
end

section
/-! The CRC-8 engine: the table loop as a fold, its agreement with the bitwise loop, and the residue
(40_crc.md R80 to R83). -/

namespace Sys2Proof.Machine

/-- R80: the table loop is a left fold over the bytes. -/
theorem crcFrom_eq_foldl (table : Vector Byte 256) (acc : Byte) (bs : List Byte) :
    crcFrom table acc bs = bs.foldl (fun a b => crcEntry table (a ^^^ b)) acc := by
  induction bs generalizing acc with
  | nil => rfl
  | cons b bs ih => exact ih _

/-- R80: a last byte is combined with the CRC so far through the table. -/
theorem crc8_concat (table : Vector Byte 256) (bs : List Byte) (b : Byte) :
    crc8 table (bs ++ [b]) = crcEntry table (crc8 table bs ^^^ b) := by
  simp only [crc8, crcFrom_eq_foldl, List.foldl_append, List.foldl_cons, List.foldl_nil]

/-- Settles O54: the loop starts at 0, and as a left fold it combines a last byte last. -/
theorem crcFollowsTheTableLoop : Obligations.CrcFollowsTheTableLoop := by
  intro table bs b
  exact ⟨rfl, crc8_concat table bs b⟩

/-- R81: what is left of an earlier accumulator `a` after `k` shifts can be taken out of the bit step, when its bit `k`
goes into the data bit instead. -/
theorem crcBitStep_xor_shift (z a b : Byte) (k : Nat) :
    crcBitStep (z ^^^ a >>> k) (b.getLsbD k) = crcBitStep z ((a ^^^ b).getLsbD k) ^^^ a >>> (k + 1) := by
  have hmix : ((z ^^^ a >>> k).getLsbD 0 != b.getLsbD k) = (z.getLsbD 0 != (a ^^^ b).getLsbD k) := by
    simp
  have hshift : (z ^^^ a >>> k) >>> 1 = z >>> 1 ^^^ a >>> (k + 1) := by
    rw [BitVec.ushiftRight_xor_distrib, BitVec.shiftRight_add]
  rw [crcBitStep, crcBitStep, hmix, hshift]
  split
  · ac_rfl
  · rfl

/-- R81: `n` bit steps from the accumulator `a` are `n` bit steps from 0 on the data exclusive-or `a`, with the rest of
`a` exclusive-ored in. -/
theorem foldl_crcBitStep (a b : Byte) (n : Nat) :
    (List.range n).foldl (fun z k => crcBitStep z (b.getLsbD k)) a
      = (List.range n).foldl (fun z k => crcBitStep z ((a ^^^ b).getLsbD k)) 0 ^^^ a >>> n := by
  induction n with
  | zero => simp
  | succ n ih =>
    simp only [List.range_succ, List.foldl_append, List.foldl_cons, List.foldl_nil, ih]
    exact crcBitStep_xor_shift _ a b n

/-- R81: one byte of the bitwise loop depends on the exclusive or of accumulator and byte only: after eight shifts
nothing of the accumulator is left. -/
theorem crcByteBitwise_eq_zero_xor (a b : Byte) : crcByteBitwise a b = crcByteBitwise 0 (a ^^^ b) := by
  have hgone : a >>> 8 = 0#8 := BitVec.ushiftRight_eq_zero (Nat.le_refl 8)
  rw [crcByteBitwise, foldl_crcBitStep, hgone, BitVec.xor_zero, crcByteBitwise]

/-- R79: entry `i` of the default table is the bitwise CRC of the single byte `i`. -/
theorem crcEntry_default (i : Byte) : crcEntry defaultConfig.crcTable i = crcByteBitwise 0 i := by
  revert i
  decide

/-- Settles O55: both loops fold over the bytes, and their steps are equal: each depends on the exclusive or of
accumulator and byte only, and the default table lists the bitwise step's values. -/
theorem defaultTableAgreesWithTheBitwiseLoop : Obligations.DefaultTableAgreesWithTheBitwiseLoop := by
  intro bs
  have hstep : (fun a b => crcEntry defaultConfig.crcTable (a ^^^ b)) = crcByteBitwise := by
    funext a b
    rw [crcEntry_default, ← crcByteBitwise_eq_zero_xor]
  rw [crc8, crcFrom_eq_foldl, hstep, crc8Bitwise]

/-- R81: a bit step without data leaves 0 from 0 only: a bit shifted out comes back in the constant 0x8C. -/
theorem crcBitStep_false_eq_zero_iff (z : Byte) : crcBitStep z false = 0 ↔ z = 0 := by
  revert z
  decide

/-- R81: no number of bit steps without data clears an accumulator other than 0. -/
theorem foldl_crcBitStep_false_eq_zero_iff (ks : List Nat) (z : Byte) :
    ks.foldl (fun a _ => crcBitStep a false) z = 0 ↔ z = 0 := by
  induction ks generalizing z with
  | nil => rfl
  | cons _ _ ih => exact (ih _).trans (crcBitStep_false_eq_zero_iff z)

/-- R81: the bitwise loop takes no byte but 0 from the accumulator 0 to 0: the byte acts as an accumulator that eight
bit steps without data cannot clear. -/
theorem crcByteBitwise_zero_eq_zero_iff (i : Byte) : crcByteBitwise 0 i = 0 ↔ i = 0 := by
  have hacc : crcByteBitwise i 0 = crcByteBitwise 0 i := by
    rw [crcByteBitwise_eq_zero_xor i 0]
    exact congrArg _ BitVec.xor_zero
  rw [← hacc, crcByteBitwise]
  simpa using foldl_crcBitStep_false_eq_zero_iff (List.range 8) i

/-- R83: with the default table the CRC of a sequence and one more byte is 0 exactly when that byte is the CRC of the
sequence. -/
theorem crc8_default_concat_eq_zero_iff (bs : List Byte) (b : Byte) :
    crc8 defaultConfig.crcTable (bs ++ [b]) = 0 ↔ crc8 defaultConfig.crcTable bs = b := by
  rw [crc8_concat, crcEntry_default, crcByteBitwise_zero_eq_zero_iff]
  exact BitVec.xor_eq_zero_iff

/-- A scratchpad is its first eight bytes and its CRC byte. -/
theorem toList_eq_take_concat (sp : Vector Byte 9) : sp.toList = sp.toList.take 8 ++ [sp[8]] := by
  have hlen : sp.toList.length = 9 := Vector.length_toList
  have hall : sp.toList.take (8 + 1) = sp.toList := List.take_of_length_le (Nat.le_of_eq hlen)
  have hcut : sp.toList.take (8 + 1) = sp.toList.take 8 ++ [sp.toList[8]] :=
    List.take_succ_eq_append_getElem (by omega)
  rw [hall, Vector.getElem_toList] at hcut
  exact hcut

/-- Settles O56: both sentences are the residue equivalence, the second for the nine bytes cut before the last. -/
theorem crcResidueIsZero : Obligations.CrcResidueIsZero := by
  refine ⟨fun bs => ?_, fun sp => ?_⟩
  · exact (crc8_default_concat_eq_zero_iff bs _).mpr rfl
  · have hresidue := crc8_default_concat_eq_zero_iff (sp.toList.take 8) sp[8]
    rw [← toList_eq_take_concat] at hresidue
    exact hresidue.symm

end Sys2Proof.Machine
end

section
/-! The scratchpad decoder: Decode read off its two branches, and the bytes and bits each of its parts depends on
(44_scratchpad_decoder.md R109 to R114, R118). -/

namespace Sys2Proof.Machine

/-- R110: the bytes under the CRC, one by one. -/
theorem crcPayload_eq_list (sp : Vector Byte 9) :
    crcPayload sp = [sp[0], sp[1], sp[2], sp[3], sp[4], sp[5], sp[6], sp[7]] := by
  match sp with
  | ⟨⟨[_, _, _, _, _, _, _, _, _]⟩, _⟩ => rfl

/-- R110: Decode fails when the CRC of SP[0..7] is not SP[8]. -/
theorem decodeScratchpad_of_crc_ne {table : Vector Byte 256} {sp : Vector Byte 9}
    (hbad : crc8 table (crcPayload sp) ≠ sp[8]) : decodeScratchpad table sp = none := by
  simp [decodeScratchpad, crcMatches, hbad]

/-- R111 to R114: what Decode answers when the CRC of SP[0..7] is SP[8]. -/
theorem decodeScratchpad_of_crc_eq {table : Vector Byte 256} {sp : Vector Byte 9}
    (hgood : crc8 table (crcPayload sp) = sp[8]) :
    decodeScratchpad table sp
      = some (rawTemperature sp &&& resolutionMask (resolutionOf (resolutionField sp))) := by
  simp [decodeScratchpad, crcMatches, hgood]

/-- R109: Decode has no other success than R114's: a decoded value is the masked raw register. -/
theorem eq_of_decodeScratchpad_eq_some {table : Vector Byte 256} {sp : Vector Byte 9} {x : Half}
    (h : decodeScratchpad table sp = some x) :
    x = rawTemperature sp &&& resolutionMask (resolutionOf (resolutionField sp)) := by
  by_cases hcrc : crc8 table (crcPayload sp) = sp[8]
  · rw [decodeScratchpad_of_crc_eq hcrc] at h
    exact (Option.some.inj h).symm
  · rw [decodeScratchpad_of_crc_ne hcrc] at h
    cases h

/-- R112: the resolution field is what the mask 0x60 leaves of SP[4]. -/
theorem extractLsb'_resolution_and_mask (b : Byte) : (b &&& 0x60).extractLsb' 5 2 = b.extractLsb' 5 2 := by
  have hmask : (0x60 : Byte).extractLsb' 5 2 = BitVec.allOnes 2 := rfl
  rw [BitVec.extractLsb'_and, hmask, BitVec.and_allOnes]

/-- R112, R118: the resolution field does not depend on SP[4] bits 7 and 4:0. -/
theorem resolutionField_congr {sp sq : Vector Byte 9} (h : sp[4] &&& (0x60 : Byte) = sq[4] &&& (0x60 : Byte)) :
    resolutionField sp = resolutionField sq := by
  rw [resolutionField, ← extractLsb'_resolution_and_mask, h, extractLsb'_resolution_and_mask, resolutionField]

/-- R112: the resolution field bit by bit, bit 6 of SP[4] high. -/
theorem resolutionField_eq_append (sp : Vector Byte 9) :
    resolutionField sp = BitVec.ofBool (sp[4].getLsbD 6) ++ BitVec.ofBool (sp[4].getLsbD 5) := by
  refine BitVec.eq_of_getLsbD_eq fun i hi => ?_
  rw [resolutionField, BitVec.getLsbD_extractLsb', BitVec.getLsbD_append]
  obtain rfl | rfl : i = 0 ∨ i = 1 := by omega
  · simp
  · simp

/-- Settles O59: a decoded value is made of the raw register and the resolution field, which are functions of SP[0],
SP[1] and SP[4] bits 6:5. -/
theorem unusedScratchpadBitsMatterOnlyToTheCrc : Obligations.UnusedScratchpadBitsMatterOnlyToTheCrc := by
  intro table sp sq x y h0 h1 h4 hx hy
  have hraw : rawTemperature sp = rawTemperature sq := by rw [rawTemperature, rawTemperature, h0, h1]
  rw [eq_of_decodeScratchpad_eq_some hx, eq_of_decodeScratchpad_eq_some hy, hraw, resolutionField_congr h4]

/-- Settles O57: the two branches of Decode, and the mask of each of the four values of SP[4] bits 6 and 5. -/
theorem decodeChecksTheCrcThenMasks : Obligations.DecodeChecksTheCrcThenMasks := by
  intro table sp
  rw [← crcPayload_eq_list]
  refine ⟨decodeScratchpad_of_crc_ne, fun hgood => ?_⟩
  rw [decodeScratchpad_of_crc_eq hgood, resolutionField_eq_append]
  cases sp[4].getLsbD 6 <;> cases sp[4].getLsbD 5 <;> rfl

end Sys2Proof.Machine
end

section
/-! Host writes that start no operation: what a refusable write does idle and busy, and the writes that never have an
effect (45_host_control.md R121, R123, R125, R127). -/

namespace Sys2Proof.Machine

/-- 45_host_control.md R124 to R126: while idle a refusable write has its own effect. -/
theorem refusedWhileBusy_of_idle (f : State → State) {s : State} (h : s.busy = false) :
    refusedWhileBusy f s = f s := by
  simp [refusedWhileBusy, h]

/-- R124 to R126: while busy a refusable write sets CMD_ERR, whatever its own effect is. -/
theorem refusedWhileBusy_of_busy (f : State → State) {s : State} (h : s.busy = true) :
    refusedWhileBusy f s = { s with cmdErr := true } := by
  simp [refusedWhileBusy, h, raise, setErrorFlag]

/-- R123: while idle a reserved operation code sets CMD_ERR. -/
theorem reservedOperation_of_idle {s : State} (h : s.busy = false) :
    reservedOperation s = { s with cmdErr := true } :=
  refusedWhileBusy_of_idle (raise .commandError) h

/-- Settles O16: NOP is a refusable write whose own effect is the identity. -/
theorem nopWhileIdleChangesNothing : Obligations.NopWhileIdleChangesNothing := by
  intro s ign
  refine ⟨fun hidle => ?_, fun hbusy => ?_⟩
  · exact congrArg Host.Outcome.next (refusedWhileBusy_of_idle id hidle)
  · exact congrArg Host.Outcome.next (refusedWhileBusy_of_busy id hbusy)

/-- Settles O17: the three reserved instructions run as one operation, which while idle does nothing but set CMD_ERR. -/
theorem reservedCodesSetCommandError : Obligations.ReservedCodesSetCommandError := by
  intro s ign b c hidle
  have hreserved : Host.Outcome.next (φ := Fault) (ρ := Refusal) (reservedOperation s)
      = .next { s with cmdErr := true } := by
    rw [reservedOperation_of_idle hidle]
  exact ⟨hreserved, hreserved, hreserved⟩

/-- Settles O19: a DATA write is a refusable write whose own effect is to store the byte. -/
theorem dataWriteIsTakenOnlyWhenIdle : Obligations.DataWriteIsTakenOnlyWhenIdle := by
  intro s d
  refine ⟨fun hidle => ?_, fun hbusy => ?_⟩
  · exact congrArg Host.Outcome.next (refusedWhileBusy_of_idle (fun t => { t with data := d }) hidle)
  · exact congrArg Host.Outcome.next (refusedWhileBusy_of_busy _ hbusy)

/-- R127: a write to a read-only register has no effect, idle or busy. -/
theorem exec_decodeWrite_readOnly (d : Byte) (s : State) :
    ∀ r ∈ [Reg.status, .tempL, .tempH, .cdlyL, .cdlyH], exec (decodeWrite r d) s = .next s := by
  intro r hr
  cases r with
  | ctrl | data | config => simp at hr
  | status | tempL | tempH | cdlyL | cdlyH => rfl

/-- Settles O21: each of the five instructions is the write of a read-only register. -/
theorem readOnlyWritesHaveNoEffect : Obligations.ReadOnlyWritesHaveNoEffect := by
  intro s d
  have hkeep := exec_decodeWrite_readOnly d s
  exact ⟨hkeep .status (by decide), hkeep .tempL (by decide), hkeep .tempH (by decide), hkeep .cdlyL (by decide),
    hkeep .cdlyH (by decide)⟩

end Sys2Proof.Machine
end

section
/-! What clears the results in STATUS: nothing but an acceptance and a hardware reset (60_exceptions.md R138). -/

namespace Sys2Proof.Machine

/-- R138: of the four bits that acceptance and the hardware reset clear, each that stands in `s` stands in `t`. -/
structure KeepsResultBits (s t : State) : Prop where
  errAbsent : s.errAbsent = true → t.errAbsent = true
  errCrc : s.errCrc = true → t.errCrc = true
  cmdErr : s.cmdErr = true → t.cmdErr = true
  done : s.done = true → t.done = true

theorem KeepsResultBits.refl (s : State) : KeepsResultBits s s := ⟨id, id, id, id⟩

theorem KeepsResultBits.trans {s t u : State} (h : KeepsResultBits s t) (k : KeepsResultBits t u) :
    KeepsResultBits s u :=
  ⟨k.errAbsent ∘ h.errAbsent, k.errCrc ∘ h.errCrc, k.cmdErr ∘ h.cmdErr, k.done ∘ h.done⟩

/-- Where the bits are kept, none of the four is cleared. -/
theorem KeepsResultBits.none_cleared {s t : State} (h : KeepsResultBits s t) :
    ¬((s.errAbsent = true ∧ t.errAbsent = false) ∨ (s.errCrc = true ∧ t.errCrc = false)
      ∨ (s.cmdErr = true ∧ t.cmdErr = false) ∨ (s.done = true ∧ t.done = false)) := by
  rintro (⟨hs, ht⟩ | ⟨hs, ht⟩ | ⟨hs, ht⟩ | ⟨hs, ht⟩)
  · simp [h.errAbsent hs] at ht
  · simp [h.errCrc hs] at ht
  · simp [h.cmdErr hs] at ht
  · simp [h.done hs] at ht

/-- R134: an error sets a bit and clears none. -/
theorem raise_keepsResultBits (e : ErrorKind) (s : State) : KeepsResultBits s (raise e s) := by
  cases e with
  | deviceAbsent => exact ⟨fun _ => rfl, id, id, id⟩
  | integrityFailure => exact ⟨id, fun _ => rfl, id, id⟩
  | commandError => exact ⟨id, id, fun _ => rfl, id⟩

theorem setPresentFromSample_keepsResultBits (s : State) : KeepsResultBits s (setPresentFromSample s) :=
  ⟨id, id, id, id⟩

theorem finishStartConv_keepsResultBits (s : State) : KeepsResultBits s (finishStartConv s) := by
  have hpresent := setPresentFromSample_keepsResultBits s
  unfold finishStartConv
  split
  · exact hpresent.trans (raise_keepsResultBits .deviceAbsent _)
  · exact hpresent

theorem finishScratchpad_keepsResultBits (s : State) : KeepsResultBits s (finishScratchpad s) := by
  unfold finishScratchpad
  split
  · exact ⟨id, id, id, id⟩
  · exact raise_keepsResultBits .integrityFailure s

theorem finishReadTemp_keepsResultBits (s : State) : KeepsResultBits s (finishReadTemp s) := by
  have hpresent := setPresentFromSample_keepsResultBits s
  unfold finishReadTemp
  split
  · exact hpresent.trans (raise_keepsResultBits .deviceAbsent _)
  · exact hpresent.trans (finishScratchpad_keepsResultBits _)

/-- No operation's results clear a bit: they may set ERR_ABSENT or ERR_CRC. -/
theorem operationResults_keepsResultBits (s : State) : KeepsResultBits s (operationResults s) := by
  unfold operationResults
  cases s.cur with
  | none => exact .refl s
  | some op =>
    cases op with
    | writeBit | writeByte => exact .refl s
    | init | reset | readBit | readByte => exact ⟨id, id, id, id⟩
    | startConv => exact finishStartConv_keepsResultBits s
    | readTemp => exact finishReadTemp_keepsResultBits s

/-- 10_state.md R39: completion sets DONE and clears nothing. -/
theorem complete_keepsResultBits (s : State) : KeepsResultBits s (complete s) := by
  obtain ⟨habsent, hcrc, hcmd, -⟩ := operationResults_keepsResultBits s
  exact ⟨habsent, hcrc, hcmd, fun _ => rfl⟩

/-- One tick of an operation clears no bit, whether the operation completes or goes on. -/
theorem play_keepsResultBits (seq : List Prim) (s : State) : KeepsResultBits s (play seq s) := by
  obtain ⟨drive, smp, pres, sr, sp, hcomplete | ⟨seq', elapsed, hgoesOn⟩⟩ := play_cases seq s
  · rw [hcomplete]
    have hbefore : KeepsResultBits s { s with drive := drive, smp := smp, pres := pres, sr := sr, sp := sp } :=
      ⟨id, id, id, id⟩
    exact hbefore.trans (complete_keepsResultBits _)
  · rw [hgoesOn]
    exact ⟨id, id, id, id⟩

theorem tickEvent_keepsResultBits (s : State) : KeepsResultBits s (tickEvent s) := by
  have hplay : KeepsResultBits s (if s.busy then play s.seq s else s) := by
    split
    · exact play_keepsResultBits s.seq s
    · exact .refl s
  exact ⟨hplay.errAbsent, hplay.errCrc, hplay.cmdErr, hplay.done⟩

theorem clockEdge_keepsResultBits (s : State) : KeepsResultBits s (clockEdge s) := by
  unfold clockEdge
  split <;> exact ⟨id, id, id, id⟩

theorem setAgenda_keepsResultBits (l : List Event) (s : State) : KeepsResultBits s (setAgenda l s) :=
  ⟨id, id, id, id⟩

/-- Of the events, only the two that begin a hardware reset can clear a bit. -/
theorem nextEvent_keepsResultBits (s : State) : resetNext s = true ∨ KeepsResultBits s (nextEvent s) := by
  unfold nextEvent
  cases hagenda : s.agenda with
  | nil => exact .inr (tickEvent_keepsResultBits s)
  | cons event rest =>
    have htaken := setAgenda_keepsResultBits rest s
    cases event with
    | tick => exact .inr (htaken.trans (tickEvent_keepsResultBits _))
    | clk => exact .inr (htaken.trans (clockEdge_keepsResultBits _))
    | txn w => exact .inr htaken
    | reset | rstHold => exact .inl (by simp [resetNext, hagenda])
    | rstRelease => exact .inr ⟨id, id, id, id⟩

/-- Of the instructions, only an accepted operation can clear a bit: a NOP, a reserved code and a refused write do not. -/
theorem exec_keepsResultBits {i : Instr} {s t : State} (h : exec i s = .next t) :
    (s.cur = none ∧ t.cur ≠ none) ∨ KeepsResultBits s t := by
  obtain ⟨u, hu, hcases⟩ := exec_cases i s
  obtain rfl : u = t := Host.Outcome.next.inj (hu.symm.trans h)
  rcases hcases with rfl | ⟨r, rfl⟩ | rfl | ⟨op, hidle, rfl⟩ | ⟨d, -, -, rfl⟩ | ⟨d, -, -, rfl⟩ | ⟨c, -, rfl⟩
  · exact .inr (.refl _)
  · exact .inr ⟨id, id, id, id⟩
  · exact .inr (raise_keepsResultBits .commandError s)
  · exact .inl ⟨hidle, by simp⟩
  · exact .inr ⟨id, id, id, id⟩
  · exact .inr ⟨id, id, id, id⟩
  · exact .inr ⟨id, id, id, id⟩

/-- R138: a step is a hardware reset, or an acceptance, or it clears none of the four bits. -/
theorem step_keepsResultBits {s t : State} (h : step s = .next t) :
    resetNext s = true ∨ (s.cur = none ∧ t.cur ≠ none) ∨ KeepsResultBits s t := by
  rcases step_cases s (admitted_of_step h) with ⟨w, rest, -, -, hword⟩ | ⟨c, rest, -, -, hbyte⟩ | ⟨-, hevent⟩
  · exact .inr ((exec_keepsResultBits (hword.symm.trans h)).imp_right (setAgenda_keepsResultBits rest s).trans)
  · obtain rfl := Host.Outcome.next.inj (hbyte.symm.trans h)
    exact .inr (.inr ⟨id, id, id, id⟩)
  · obtain rfl := Host.Outcome.next.inj (hevent.symm.trans h)
    exact (nextEvent_keepsResultBits s).imp_right .inr

/-- Settles O48: of the three things a step can be, the one that clears none of the bits is excluded. -/
theorem errorBitsClearOnlyByAcceptanceOrReset : Obligations.ErrorBitsClearOnlyByAcceptanceOrReset := by
  intro s t hstep hcleared
  rcases step_keepsResultBits hstep with hreset | hstarts | hkeeps
  · exact .inl hreset
  · exact .inr hstarts
  · exact absurd hcleared hkeeps.none_cleared

end Sys2Proof.Machine
end

section
/-! Encoding: the words of the two formats taken apart and put together again (30_encoding.md R60 to R66, R70). -/

namespace Sys2Proof.Machine

/-- 30_encoding.md R63: the word of a CTRL write decodes by its operation code. -/
theorem decode_ctrlWord (ign op : BitVec 4) : decode (.host (ctrlWord ign op)) = .ok (decodeOp ign op) := by
  have hign : (ign ++ op : Byte).extractLsb' 4 4 = ign := BitVec.extractLsb'_append_eq_left
  have hop : (ign ++ op : Byte).extractLsb' 0 4 = op := BitVec.extractLsb'_append_eq_right
  rw [ctrlWord, decode_hostWord_write, decodeWrite, hign, hop]

/-- R64: the codes 0xA and 0xB, by their bit 0. -/
theorem decodeOp_reservedAB (ign : BitVec 4) (lo : BitVec 1) :
    decodeOp ign ((0b101 : BitVec 3) ++ lo) = .reservedOpAB ign lo := by
  revert ign lo
  decide

/-- R64: the codes 0xC to 0xF, by their bits 1:0. -/
theorem decodeOp_reservedCF (ign : BitVec 4) (lo : BitVec 2) :
    decodeOp ign ((0b11 : BitVec 2) ++ lo) = .reservedOpCF ign lo := by
  revert ign lo
  decide

/-- Settles O1: CTRL writes by their operation code, register writes and reads by the fields of their word, and the three
command bytes. -/
theorem decodeOfEncodeIsIdentity : Obligations.DecodeOfEncodeIsIdentity := by
  intro i
  cases i with
  | nop ign => exact decode_ctrlWord ign 0x0
  | init ign => exact decode_ctrlWord ign 0x1
  | reset ign => exact decode_ctrlWord ign 0x2
  | writeBit ign => exact decode_ctrlWord ign 0x3
  | readBit ign => exact decode_ctrlWord ign 0x4
  | writeByte ign => exact decode_ctrlWord ign 0x5
  | readByte ign => exact decode_ctrlWord ign 0x6
  | startConv ign => exact decode_ctrlWord ign 0x7
  | readTemp ign => exact decode_ctrlWord ign 0x8
  | reservedOp9 ign => exact decode_ctrlWord ign 0x9
  | reservedOpAB ign lo => exact (decode_ctrlWord ign _).trans (congrArg _ (decodeOp_reservedAB ign lo))
  | reservedOpCF ign lo => exact (decode_ctrlWord ign _).trans (congrArg _ (decodeOp_reservedCF ign lo))
  | wrData d => exact decode_hostWord_write .data d
  | wrConfig d => exact decode_hostWord_write .config d
  | wrStatus d => exact decode_hostWord_write .status d
  | wrTempL d => exact decode_hostWord_write .tempL d
  | wrTempH d => exact decode_hostWord_write .tempH d
  | wrCdlyL d => exact decode_hostWord_write .cdlyL d
  | wrCdlyH d => exact decode_hostWord_write .cdlyH d
  | rdCtrl d => exact decode_hostWord_read .ctrl d
  | rdStatus d => exact decode_hostWord_read .status d
  | rdData d => exact decode_hostWord_read .data d
  | rdConfig d => exact decode_hostWord_read .config d
  | rdTempL d => exact decode_hostWord_read .tempL d
  | rdTempH d => exact decode_hostWord_read .tempH d
  | rdCdlyL d => exact decode_hostWord_read .cdlyL d
  | rdCdlyH d => exact decode_hostWord_read .cdlyH d
  | skipRom | convertT | readScratchpad => rfl

/-- R63 to R65: encoding a decoded operation code loses no bit of it. -/
theorem encode_decodeOp (ign op : BitVec 4) : encode (decodeOp ign op) = .host (ctrlWord ign op) := by
  revert ign op
  decide

/-- R62: encoding a decoded write gives the write's word. -/
theorem encode_decodeWrite (r : Reg) (d : Byte) : encode (decodeWrite r d) = .host (hostWord 1 r d) := by
  cases r with
  | ctrl =>
    have hd : d.extractLsb' 4 4 ++ d.extractLsb' 0 4 = d :=
      (BitVec.extractLsb'_append_extractLsb'_eq_extractLsb' rfl).trans BitVec.extractLsb'_eq_self
    rw [decodeWrite, encode_decodeOp, ctrlWord]
    exact congrArg (fun v => Code.host (hostWord 1 .ctrl v)) hd
  | status | data | config | tempL | tempH | cdlyL | cdlyH => rfl

/-- R62: encoding a decoded read gives the read's word, its ignored D field included. -/
theorem encode_decodeRead (r : Reg) (d : Byte) : encode (decodeRead r d) = .host (hostWord 0 r d) := by
  cases r <;> rfl

/-- 10_state.md R19: an offset is that of the register found at it. -/
theorem offset_ofOffset (a : BitVec 3) : (Reg.ofOffset a).offset = a := by
  revert a
  decide

/-- 30_encoding.md R61: a host word is its write bit, its register and its D field. -/
theorem hostWord_fields (w : HostWord) :
    hostWord (BitVec.ofBool (HostWord.isWrite w)) (Reg.ofOffset (w.extractLsb' 8 3)) (w.extractLsb' 0 8) = w := by
  have hbit : BitVec.ofBool (HostWord.isWrite w) = w.extractLsb' 11 1 := by
    refine BitVec.eq_of_getLsbD_eq fun i hi => ?_
    obtain rfl : i = 0 := by omega
    simp [HostWord.isWrite]
  have htop : w.extractLsb' 11 1 ++ w.extractLsb' 8 3 = w.extractLsb' 8 4 :=
    BitVec.extractLsb'_append_extractLsb'_eq_extractLsb' rfl
  have hall : w.extractLsb' 8 4 ++ w.extractLsb' 0 8 = w :=
    (BitVec.extractLsb'_append_extractLsb'_eq_extractLsb' rfl).trans BitVec.extractLsb'_eq_self
  rw [hostWord, hbit, offset_ofOffset, htop]
  exact hall

/-- R62: encoding a decoded host word gives the word. -/
theorem encode_decodeHost (w : HostWord) : encode (decodeHost w) = .host w := by
  have hfields := hostWord_fields w
  unfold decodeHost
  cases hw : HostWord.isWrite w with
  | true =>
    rw [hw] at hfields
    exact (encode_decodeWrite _ _).trans (congrArg Code.host hfields)
  | false =>
    rw [hw] at hfields
    exact (encode_decodeRead _ _).trans (congrArg Code.host hfields)

/-- R70: a byte that decodes is that of a command, and decodes to it. -/
theorem decodeWire_eq_ok {b : Byte} {i : Instr} (h : decodeWire b = .ok i) :
    ∃ c : WireCmd, b = c.byte ∧ i = c.instr := by
  unfold decodeWire at h
  split at h
  · rename_i hb
    exact ⟨.skipRom, BitVec.eq_of_toNat_eq hb, (Except.ok.inj h).symm⟩
  · rename_i hb
    exact ⟨.convertT, BitVec.eq_of_toNat_eq hb, (Except.ok.inj h).symm⟩
  · rename_i hb
    exact ⟨.readScratchpad, BitVec.eq_of_toNat_eq hb, (Except.ok.inj h).symm⟩
  · cases h

/-- Settles O2: a host word is put together from the fields it decodes by; a command byte that decodes is one of three. -/
theorem encodeOfDecodeIsIdentity : Obligations.EncodeOfDecodeIsIdentity := by
  intro c i h
  cases c with
  | host w =>
    obtain rfl : decodeHost w = i := Except.ok.inj h
    exact encode_decodeHost w
  | wire b =>
    obtain ⟨cmd, rfl, rfl⟩ := decodeWire_eq_ok h
    cases cmd <;> rfl

/-- Settles O3: decoding a host word is total, and so is running an instruction. -/
theorem everyHostWordDecodesAndRuns : Obligations.EveryHostWordDecodesAndRuns := by
  intro w
  refine ⟨decodeHost w, rfl, fun s => ?_⟩
  obtain ⟨t, ht, -⟩ := exec_cases (decodeHost w) s
  exact ⟨t, ht⟩

/-- Settles O4: each word is taken apart by the decoder. -/
theorem wordsOfTheSpecDecode : Obligations.WordsOfTheSpecDecode :=
  ⟨rfl, rfl, rfl, rfl, rfl, rfl, rfl, rfl, rfl, rfl, rfl, rfl⟩

/-- Settles O5: the bytes that decode are those of the three commands. -/
theorem exactlyThreeBytesAreCommands : Obligations.ExactlyThreeBytesAreCommands := by
  intro b
  constructor
  · rintro ⟨i, hi⟩
    obtain ⟨c, rfl, -⟩ := decodeWire_eq_ok hi
    cases c with
    | skipRom => exact .inl rfl
    | convertT => exact .inr (.inl rfl)
    | readScratchpad => exact .inr (.inr rfl)
  · rintro (rfl | rfl | rfl)
    · exact decodeWire_byte .skipRom
    · exact decodeWire_byte .convertT
    · exact decodeWire_byte .readScratchpad

/-- R75: the line of a register write assembles to a word that decodes to the write. -/
theorem assemble_wr_decodes (r : Reg) (d : Byte) : (assemble (.wr r d)).map decodeHost = some (decodeWrite r d) :=
  congrArg some (Except.ok.inj (decode_hostWord_write r d))

/-- R75: the line of a register read assembles to a word that decodes to the read. -/
theorem assemble_rd_decodes (r : Reg) : (assemble (.rd r)).map decodeHost = some (decodeRead r 0) :=
  congrArg some (Except.ok.inj (decode_hostWord_read r 0))

/-- R75: the line of an operation assembles to a word that decodes by the operation's code. -/
theorem assemble_op_decodes (op : BitVec 4) : (assemble (.op op)).map decodeHost = some (decodeOp 0 op) :=
  congrArg some (Except.ok.inj (decode_ctrlWord 0 op))

/-- R75: an operation's line stands for the CTRL write of its code. -/
theorem assemble_op_eq_wr_ctrl (op : BitVec 4) : assemble (.op op) = assemble (.wr .ctrl (op.setWidth 8)) := by
  revert op
  decide

/-- Settles O26: every line assembles to the word of its register or operation code, which decodes by those fields. -/
theorem assemblerLinesDecodeToTheirInstructions : Obligations.AssemblerLinesDecodeToTheirInstructions := by
  refine ⟨fun d => ?_, ?_⟩
  · exact ⟨assemble_wr_decodes .status d, assemble_wr_decodes .data d, assemble_wr_decodes .config d,
      assemble_wr_decodes .tempL d, assemble_wr_decodes .tempH d, assemble_wr_decodes .cdlyL d,
      assemble_wr_decodes .cdlyH d⟩
  · exact ⟨assemble_rd_decodes .ctrl, assemble_rd_decodes .status, assemble_rd_decodes .data,
      assemble_rd_decodes .config, assemble_rd_decodes .tempL, assemble_rd_decodes .tempH, assemble_rd_decodes .cdlyL,
      assemble_rd_decodes .cdlyH, assemble_op_decodes 0x0, assemble_op_decodes 0x1, assemble_op_decodes 0x2,
      assemble_op_decodes 0x3, assemble_op_decodes 0x4, assemble_op_decodes 0x5, assemble_op_decodes 0x6,
      assemble_op_decodes 0x7, assemble_op_decodes 0x8, assemble_op_decodes 0x9, assemble_op_decodes 0xA,
      assemble_op_decodes 0xB, assemble_op_decodes 0xC, assemble_op_decodes 0xD, assemble_op_decodes 0xE,
      assemble_op_decodes 0xF, assemble_op_eq_wr_ctrl⟩

end Sys2Proof.Machine
end

section
/-! One step: which agent moves, and that the block never stops (20_memory.md R54, R55; 00_scope.md R7; 10_state.md R36;
93_implementation_defined.md). -/

namespace Sys2Proof.Machine

theorem tickNext_iff (s : State) : tickNext s = true ↔ s.agenda = [] ∨ ∃ rest, s.agenda = .tick :: rest := by
  unfold tickNext
  split <;> simp_all

/-- 20_memory.md R54: a pending host word that is not ignored is what a step runs. -/
theorem step_txn {s : State} {w : HostWord} {rest : List Event} (hadm : s.cfg.admitted = true)
    (ha : s.agenda = .txn w :: rest) (hrun : ignoredByReset s w = false) :
    step s = exec (decodeHost w) (setAgenda rest s) := by
  have hfetch : fetch s = some (.host w, setAgenda rest s) := by simp [fetch, ha, hrun]
  simp [step, hadm, stepAdmitted, hfetch, decode]

/-- 10_state.md R37: a command byte that is reached when a tick is next is what a step runs. -/
theorem step_command {s : State} {c : WireCmd} {rest : List Prim} (hadm : s.cfg.admitted = true)
    (htick : tickNext s = true) (hs : s.seq = .send c :: rest) :
    step s = .next (sendByte c.byte (setPosition rest s.elapsed s)) := by
  have hfetch : fetch s = some (.wire c.byte, setPosition rest s.elapsed s) := by
    rcases (tickNext_iff s).1 htick with ha | ⟨r, ha⟩ <;> simp [fetch, ha, hs]
  simp [step, hadm, stepAdmitted, hfetch, decode, decodeWire_byte_eq, exec_instr]

/-- Where no word is fetched, a step is the next event. -/
theorem step_event {s : State} (hadm : s.cfg.admitted = true) (hfetch : fetch s = none) :
    step s = .next (nextEvent s) := by
  simp [step, hadm, stepAdmitted, hfetch]

/-- Settles O7: the word is not ignored, so it is fetched and run. -/
theorem stepRunsThePendingHostWord : Obligations.StepRunsThePendingHostWord := by
  intro s w rest i hadm ha hrst hi
  obtain rfl : decodeHost w = i := Except.ok.inj hi
  have hrun : ignoredByReset s w = false := by
    rcases hrst with hreleased | hread
    · simp [ignoredByReset, hreleased]
    · rw [ignoredByReset, HostWord.isWrite, hread, Bool.and_false]
  exact step_txn hadm ha hrun

/-- Settles O8: the byte is fetched and run, and running it sends it. -/
theorem stepRunsTheCommandByteReached : Obligations.StepRunsTheCommandByteReached := by
  intro s c rest i hadm htick hs hi
  obtain rfl : c.instr = i := Except.ok.inj ((decodeWire_byte_eq c).symm.trans hi)
  rw [step_command hadm htick hs, exec_instr]
  rfl

/-- The two bytes of a host word, low byte first (log 10), are read as the word. -/
theorem ofBytes_hostWord (w : HostWord) :
    Code.ofBytes [BitVec.ofNat 8 w.toNat, BitVec.ofNat 8 (w.toNat / 2 ^ 8)] = .ok (.host w) := by
  have hw := w.isLt
  have hhigh : (BitVec.ofNat 8 (w.toNat / 2 ^ 8)).extractLsb' 4 4 = 0 := by
    apply BitVec.eq_of_toNat_eq
    simp only [BitVec.extractLsb'_toNat, BitVec.toNat_ofNat, Nat.shiftRight_eq_div_pow, BitVec.ofNat_eq_ofNat]
    omega
  have hwhole : (BitVec.ofNat 8 (w.toNat / 2 ^ 8)).extractLsb' 0 4 ++ BitVec.ofNat 8 w.toNat = w := by
    have hlow : BitVec.ofNat 8 w.toNat = w.extractLsb' 0 8 := by
      apply BitVec.eq_of_toNat_eq
      simp
    have htop : (BitVec.ofNat 8 (w.toNat / 2 ^ 8)).extractLsb' 0 4 = w.extractLsb' 8 4 := by
      apply BitVec.eq_of_toNat_eq
      simp only [BitVec.extractLsb'_toNat, BitVec.toNat_ofNat, Nat.shiftRight_eq_div_pow]
      omega
    rw [hlow, htop]
    exact (BitVec.extractLsb'_append_extractLsb'_eq_extractLsb' rfl).trans BitVec.extractLsb'_eq_self
  rw [Code.ofBytes, if_pos hhigh, hwhole]

/-- A host word's number as a table word of 16 bits is laid out as the word's two bytes. -/
theorem tableBytes_hostWord (w : HostWord) :
    tableBytes 16 w.toNat = some [BitVec.ofNat 8 w.toNat, BitVec.ofNat 8 (w.toNat / 2 ^ 8)] := by
  have hw := w.isLt
  rw [tableBytes, if_neg (by decide), if_pos (by omega)]

/-- A command byte's number as a table word of 8 bits is laid out as the byte. -/
theorem tableBytes_byte (b : Byte) : tableBytes 8 b.toNat = some [b] := by
  rw [tableBytes, if_pos (by decide), if_pos b.isLt, BitVec.ofNat_toNat, BitVec.setWidth_eq]

/-- The command of a byte, and the operation that sends it where none is in progress (43_command_sequencer.md R103, R106). -/
theorem commandOfByte_byte (c : WireCmd) :
    commandOfByte c.byte = some (c, if c.byte = 0xBE then .readTemp else .startConv) := by
  cases c <;> rfl

/-- Settles O9: the two layouts give back the word and the byte, which stand where the next step fetches. -/
theorem withFetchWordIsRunNext : Obligations.WithFetchWordIsRunNext := by
  refine ⟨fun s w i hadm hi => ?_, fun s b i hadm hi => ?_⟩
  · obtain rfl : decodeHost w = i := Except.ok.inj hi
    have hdecoded : decodeTableWord 16 w.toNat = some (decodeHost w) := by
      simp only [decodeTableWord, tableBytes_hostWord, decodeBytes, ofBytes_hostWord, decode, Except.toOption]
    have hplaced : s.withFetchWord 16 w.toNat = withHostWord s w := by
      simp only [State.withFetchWord, tableBytes_hostWord, withFetchBytes, ofBytes_hostWord]
    refine ⟨hdecoded, ?_⟩
    rw [hplaced]
    exact step_txn hadm rfl rfl
  · obtain ⟨c, rfl, rfl⟩ := decodeWire_eq_ok hi
    have hdecoded : decodeTableWord 8 c.byte.toNat = some c.instr := by
      simp only [decodeTableWord, tableBytes_byte, decodeBytes, Code.ofBytes, decode, decodeWire_byte_eq,
        Except.toOption]
    have hplaced : s.withFetchWord 8 c.byte.toNat = withCommandByte s c.byte := by
      simp only [State.withFetchWord, tableBytes_byte, withFetchBytes, Code.ofBytes]
    refine ⟨hdecoded, ?_⟩
    rw [hplaced, withCommandByte, commandOfByte_byte, exec_instr]
    exact step_command hadm rfl rfl

/-- Settles O11: the two refusals of a parameter set that is not admitted. -/
theorem illegalParametersAreRefused : Obligations.IllegalParametersAreRefused := by
  intro s
  refine ⟨fun hillegal => ?_, fun hlegal hwidth => ?_⟩
  · simp [step, Config.admitted, parameterRefusal, hillegal]
  · simp [step, Config.admitted, parameterRefusal, hlegal, hwidth]

/-- 10_state.md R42: a tick event passes over an idle block. -/
theorem tickEvent_of_idle {s : State} (hidle : s.cur = none) : tickEvent s = setTick (s.tick + 1) s := by
  simp [tickEvent, (idle_iff s).2 hidle]

/-! The next event, one equation per event other than the resets. -/

theorem nextEvent_nil {s : State} (ha : s.agenda = []) : nextEvent s = tickEvent s := by
  rw [nextEvent, ha]

theorem nextEvent_tick {s : State} {rest : List Event} (ha : s.agenda = .tick :: rest) :
    nextEvent s = tickEvent (setAgenda rest s) := by
  rw [nextEvent, ha]

theorem nextEvent_clk {s : State} {rest : List Event} (ha : s.agenda = .clk :: rest) :
    nextEvent s = clockEdge (setAgenda rest s) := by
  rw [nextEvent, ha]

theorem nextEvent_txn {s : State} {w : HostWord} {rest : List Event} (ha : s.agenda = .txn w :: rest) :
    nextEvent s = setAgenda rest s := by
  rw [nextEvent, ha]

/-- Settles O12: with no operation and no position no word is fetched, and the tick event passes over the block. -/
theorem idleTickChangesNothing : Obligations.IdleTickChangesNothing := by
  intro s hadm hidle hseq
  refine ⟨fun ha => ?_, fun rest ha => ?_⟩
  · rw [step_event hadm (by simp [fetch, ha, hseq]), nextEvent_nil ha, tickEvent_of_idle hidle]
    rfl
  · rw [step_event hadm (by simp [fetch, ha, hseq]), nextEvent_tick ha, tickEvent_of_idle (s := setAgenda rest s) hidle]
    rfl

/-- 10_state.md R36: a pending clock cycle is a step of its own. -/
theorem step_clk {s : State} {rest : List Event} (hadm : s.cfg.admitted = true) (ha : s.agenda = .clk :: rest) :
    step s = .next (clockEdge (setAgenda rest s)) := by
  rw [step_event hadm (by rw [fetch, ha]), nextEvent_clk ha]

/-- R36: clock cycles within one period of the divider move its phase. -/
theorem steps_clk (k : Nat) {s : State} {rest : List Event} (hadm : s.cfg.admitted = true)
    (ha : s.agenda = List.replicate k .clk ++ rest) (hk : s.divPhase + k < s.cfg.clksPerUs) :
    steps k s = .next { s with divPhase := s.divPhase + k, agenda := rest } := by
  induction k generalizing s with
  | zero =>
    obtain rfl : s.agenda = rest := ha
    rfl
  | succ k ih =>
    rw [List.replicate_succ, List.cons_append] at ha
    have hedge : clockEdge (setAgenda (List.replicate k .clk ++ rest) s)
        = { s with divPhase := s.divPhase + 1, agenda := List.replicate k .clk ++ rest } :=
      if_pos (show s.divPhase + 1 < s.cfg.clksPerUs by omega)
    have hrest := ih (s := { s with divPhase := s.divPhase + 1, agenda := List.replicate k .clk ++ rest }) hadm rfl
      (show s.divPhase + 1 + k < s.cfg.clksPerUs by omega)
    rw [steps_succ_of_step (step_clk hadm ha), hedge, hrest, show s.divPhase + (k + 1) = s.divPhase + 1 + k by omega]

/-- Settles O13: all cycles but the last move the phase, and the last makes the tick event. -/
theorem dividerMakesOneTick : Obligations.DividerMakesOneTick := by
  intro s rest hadm hone hphase ha
  obtain ⟨k, hk⟩ : ∃ k, s.cfg.clksPerUs = k + 1 := ⟨s.cfg.clksPerUs - 1, by omega⟩
  rw [hk, List.replicate_succ', List.append_assoc] at ha
  have hmost := steps_clk k hadm ha (by omega)
  have hlast : clockEdge (setAgenda rest { s with divPhase := s.divPhase + k, agenda := [.clk] ++ rest })
      = { s with divPhase := 0, agenda := .tick :: rest } :=
    if_neg (show ¬s.divPhase + k + 1 < s.cfg.clksPerUs by omega)
  have hstep := step_clk (s := { s with divPhase := s.divPhase + k, agenda := [.clk] ++ rest }) (rest := rest) hadm rfl
  rw [hk, steps_add hmost, steps_succ_of_step hstep, hlast, steps_zero]

/-- 10_state.md R41: STATUS after a hardware reset. -/
theorem hardReset_status (s : State) : (hardReset s).status = 0 := by
  have hspu : (hardReset s).spu = false := rfl
  simp [State.status, hspu, State.busy, bit]

/-- R41: CONFIG after a hardware reset. -/
theorem hardReset_config (s : State) : (hardReset s).config = 0 := by
  simp [State.config, bit]

/-- Settles O52: the event of a hardware reset is the next one, and its state has the table's values. -/
theorem hardwareResetLoadsTheTable : Obligations.HardwareResetLoadsTheTable := by
  intro s rest held hadm ha
  have hstep : step s = .next (hardReset { s with agenda := rest, rst := held }) := by
    cases held with
    | false => rw [step_event hadm (by simp [fetch, ha]), nextEvent, ha, if_neg (by decide)]
    | true => rw [step_event hadm (by simp [fetch, ha]), nextEvent, ha, if_pos rfl]
  exact ⟨_, hstep, rfl, hardReset_status _, rfl, hardReset_config _, rfl, rfl, rfl, rfl, rfl, rfl, rfl, rfl, rfl, rfl, rfl, rfl, rfl⟩

end Sys2Proof.Machine
end

section
/-! What one step can do, said once, and the invariant that every step keeps (10_state.md R37, R39; 60_exceptions.md R131,
R132; 70_reset_and_hazards.md R147). -/

namespace Sys2Proof.Machine

/-- One tick of an operation completes it, from a state that differs in the position, the drive state and the scratch
elements only, or leads to such a state. -/
theorem play_during (seq : List Prim) (s : State) :
    (∃ u, During s u 0 ∧ play seq s = complete u) ∨ During s (play seq s) 0 := by
  obtain ⟨drive, smp, pres, sr, sp, hcomplete | ⟨seq', elapsed, hgoesOn⟩⟩ := play_cases seq s
  · refine .inl ⟨{ s with drive := drive, smp := smp, pres := pres, sr := sr, sp := sp }, ?_, hcomplete⟩
    exact ⟨rfl, rfl, rfl, rfl, rfl, rfl, rfl, rfl, rfl, rfl, rfl, rfl, rfl, rfl, rfl, rfl, rfl⟩
  · rw [hgoesOn]
    exact .inr ⟨rfl, rfl, rfl, rfl, rfl, rfl, rfl, rfl, rfl, rfl, rfl, rfl, rfl, rfl, rfl, rfl, rfl⟩

/-- What a step from `s` can lead to. -/
inductive StepEffect (s : State) : State → Prop where
  /-- A hardware reset (70_reset_and_hazards.md R147). -/
  | reset (l : List Event) (b : Bool) (hreset : resetNext s = true) :
    StepEffect s (hardReset { s with agenda := l, rst := b })
  /-- Nothing but CMD_ERR, h_rdata, the divider, the queue, the tick number and the reset input: an idle tick, a clock cycle,
  a read, a write that is refused or has no effect, the release of `rst`. While `rst` is held no write is run. -/
  | hostSide (c : Bool) (r : Byte) (p : Nat) (l : List Event) (n : Nat) (b : Bool)
    (hrst : b = true → s.rst = true ∧ c = s.cmdErr) :
    StepEffect s { aside c r p l s with tick := n, rst := b }
  /-- The acceptance of an operation (45_host_control.md R120). -/
  | accepted (w : HostWord) (rest : List Event) (op : Op) (ha : s.agenda = .txn w :: rest)
    (hwrite : HostWord.isWrite w = true) (hrst : s.rst = false) (hidle : s.cur = none) :
    StepEffect s (accept op (setAgenda rest s))
  /-- A DATA write (R125). -/
  | dataWritten (w : HostWord) (rest : List Event) (d : Byte) (ha : s.agenda = .txn w :: rest)
    (hw : decodeHost w = .wrData d) (hrst : s.rst = false) (hidle : s.cur = none) :
    StepEffect s { setAgenda rest s with data := d }
  /-- A CONFIG write (R126). -/
  | configWritten (w : HostWord) (rest : List Event) (d : Byte) (ha : s.agenda = .txn w :: rest)
    (hw : decodeHost w = .wrConfig d) (hrst : s.rst = false) (hidle : s.cur = none) :
    StepEffect s { setAgenda rest s with parasite := parasiteOf d }
  /-- A command byte goes to the position (43_command_sequencer.md R103, R106). -/
  | commandSent (c : WireCmd) (rest : List Prim) (hs : s.seq = .send c :: rest) :
    StepEffect s (sendByte c.byte (setPosition rest s.elapsed s))
  /-- A tick of the operation in progress (10_state.md R39). -/
  | played (l : List Event) (hbusy : s.busy = true) (htick : tickNext s = true) :
    StepEffect s (tickEvent (setAgenda l s))

/-- The effect of a pending host word. -/
theorem exec_effect {s t : State} {w : HostWord} {rest : List Event} (ha : s.agenda = .txn w :: rest)
    (hrun : ignoredByReset s w = false) (h : exec (decodeHost w) (setAgenda rest s) = .next t) : StepEffect s t := by
  cases hw : HostWord.isWrite w with
  | false =>
    rw [decodeHost_read w hw, exec_read] at h
    obtain rfl := Host.Outcome.next.inj h
    exact .hostSide s.cmdErr (readReg _ (setAgenda rest s)) s.divPhase rest s.tick s.rst (fun hb => ⟨hb, rfl⟩)
  | true =>
    have hrst : s.rst = false := by simpa [ignoredByReset, hw] using hrun
    have hfree : s.rst = true → s.rst = true ∧ true = s.cmdErr := fun hb => by simp [hrst] at hb
    obtain ⟨u, hu, hcases⟩ := exec_cases (decodeHost w) (setAgenda rest s)
    obtain rfl : u = t := Host.Outcome.next.inj (hu.symm.trans h)
    rcases hcases with rfl | ⟨r, rfl⟩ | rfl | ⟨op, hidle, rfl⟩ | ⟨d, hd, hidle, rfl⟩ | ⟨d, hd, hidle, rfl⟩ | ⟨c, hc, -⟩
    · exact .hostSide s.cmdErr s.rdata s.divPhase rest s.tick s.rst (fun hb => ⟨hb, rfl⟩)
    · exact .hostSide s.cmdErr (readReg r (setAgenda rest s)) s.divPhase rest s.tick s.rst (fun hb => ⟨hb, rfl⟩)
    · exact .hostSide true s.rdata s.divPhase rest s.tick s.rst hfree
    · exact .accepted w rest op ha hw hrst hidle
    · exact .dataWritten w rest d ha hd hrst hidle
    · exact .configWritten w rest d ha hd hrst hidle
    · exact absurd hc (decodeHost_ne_instr w c)

theorem setAgenda_eq_self {s : State} {l : List Event} (h : s.agenda = l) : setAgenda l s = s := by
  subst h
  rfl

/-- The effect of a tick event, once its event is off the queue. -/
theorem tickEvent_effect {s : State} (l : List Event) (htick : tickNext s = true) :
    StepEffect s (tickEvent (setAgenda l s)) := by
  cases hbusy : s.busy with
  | true => exact .played l hbusy htick
  | false =>
    rw [tickEvent_of_idle (s := setAgenda l s) ((idle_iff s).1 hbusy)]
    exact .hostSide s.cmdErr s.rdata s.divPhase l (s.tick + 1) s.rst (fun hb => ⟨hb, rfl⟩)

/-- The effect of a clock cycle, once its event is off the queue. -/
theorem clockEdge_effect (s : State) (rest : List Event) : StepEffect s (clockEdge (setAgenda rest s)) := by
  unfold clockEdge
  split
  · exact .hostSide s.cmdErr s.rdata (s.divPhase + 1) rest s.tick s.rst (fun hb => ⟨hb, rfl⟩)
  · exact .hostSide s.cmdErr s.rdata 0 (.tick :: rest) s.tick s.rst (fun hb => ⟨hb, rfl⟩)

/-- The effect of the next event. -/
theorem nextEvent_effect (s : State) : StepEffect s (nextEvent s) := by
  unfold nextEvent
  cases ha : s.agenda with
  | nil =>
    have heffect := tickEvent_effect [] ((tickNext_iff s).2 (.inl ha))
    rwa [setAgenda_eq_self ha] at heffect
  | cons event rest =>
    cases event with
    | tick => exact tickEvent_effect rest ((tickNext_iff s).2 (.inr ⟨rest, ha⟩))
    | clk => exact clockEdge_effect s rest
    | txn w => exact .hostSide s.cmdErr s.rdata s.divPhase rest s.tick s.rst (fun hb => ⟨hb, rfl⟩)
    | reset => exact .reset rest false (by simp [resetNext, ha])
    | rstHold => exact .reset rest true (by simp [resetNext, ha])
    | rstRelease => exact .hostSide s.cmdErr s.rdata s.divPhase rest s.tick false (fun hb => by cases hb)

/-- Every step has one of these effects. -/
theorem step_effect {s t : State} (h : step s = .next t) : StepEffect s t := by
  rcases step_cases s (admitted_of_step h) with ⟨w, rest, ha, hrun, hword⟩ | ⟨c, rest, -, hs, hbyte⟩ | ⟨-, hevent⟩
  · exact exec_effect ha hrun (hword.symm.trans h)
  · obtain rfl := Host.Outcome.next.inj (hbyte.symm.trans h)
    exact .commandSent c rest hs
  · obtain rfl := Host.Outcome.next.inj (hevent.symm.trans h)
    exact nextEvent_effect s

/-- A tick event of a busy block is one tick of its operation. -/
theorem tickEvent_of_busy {s : State} (hbusy : s.busy = true) : tickEvent s = setTick (s.tick + 1) (play s.seq s) := by
  simp [tickEvent, hbusy]

/-- A tick event of a busy block completes the operation, or the operation goes on for one tick. -/
theorem tickEvent_cases {s : State} (hbusy : s.busy = true) :
    (∃ u, During s u 0 ∧ tickEvent s = setTick (s.tick + 1) (complete u)) ∨ During s (tickEvent s) 1 := by
  rw [tickEvent_of_busy hbusy]
  rcases play_during s.seq s with ⟨u, hu, hcomplete⟩ | h
  · exact .inl ⟨u, hu, by rw [hcomplete]⟩
  · exact .inr ⟨rfl, h.cfg, h.levels, h.agenda, h.rst, h.divPhase, h.rdata, h.present, h.errAbsent, h.errCrc, h.cmdErr,
      h.done, h.data, h.parasite, h.temp, h.cur, h.draws⟩

/-! The invariant. -/

/-- The invariant does not look at the queue. -/
theorem setAgenda_inv {s : State} (h : Inv s) (l : List Event) : Inv (setAgenda l s) :=
  inv_congr h rfl rfl rfl rfl rfl rfl rfl rfl (fun hrst => ⟨hrst, rfl, rfl, rfl, rfl⟩)

/-- No tick of a primitive has elapsed at its start. -/
theorem elapsedFits_zero (seq : List Prim) : elapsedFits seq 0 = true := by
  cases seq with
  | nil => rfl
  | cons p rest => cases p <;> rfl

/-- An acceptance with `rst` released gives a state that meets the invariant: the procedure fits from any line. -/
theorem accept_inv {s : State} (op : Op) (hadm : s.cfg.admitted = true) (hrst : s.rst = false) : Inv (accept op s) := by
  obtain ⟨hline, hown, helapsed, hsettled⟩ := procedure_fits op s hadm
  exact {
    idlePosition := fun h => by simp at h
    settled := hsettled
    elapsed := helapsed
    line := hline
    own := hown
    doneIdle := fun h => by simp at h
    absent := fun h => by simp at h
    badCrc := fun h => by simp at h
    heldReset := fun h => by simp [hrst] at h }

/-- Sending the command byte reached keeps the invariant: its write slots leave the line as the discipline has it after a
command byte. -/
theorem sendByte_inv {s : State} {c : WireCmd} {rest : List Prim} (hadm : s.cfg.admitted = true) (h : Inv s)
    (hs : s.seq = .send c :: rest) : Inv (sendByte c.byte (setPosition rest s.elapsed s)) := by
  have hbusy : s.cur ≠ none := fun hidle => by simpa [hs] using (h.idlePosition hidle).1
  have hline : lineDiscipline .rel rest = true := by
    have hbefore := h.line
    rwa [hs] at hbefore
  have hown : rest.all (ownPrimitive s.cur) = true := by
    have hbefore := h.own
    rw [hs, List.all_cons, Bool.and_eq_true] at hbefore
    exact hbefore.2
  exact {
    idlePosition := fun hidle => absurd hidle hbusy
    settled := byteWrite_settled s.cfg hadm c.byte rest
    elapsed := elapsedFits_zero _
    line := (lineDiscipline_slots s.cfg hadm (bitsLsbFirst c.byte) s.drive rest (by simp [bitsLsbFirst])).trans hline
    own := by
      rw [sendByte_seq, List.all_append, Bool.and_eq_true]
      exact ⟨ownPrimitive_slots s.cfg (bitsLsbFirst c.byte) s.cur, hown⟩
    doneIdle := h.doneIdle
    absent := h.absent
    badCrc := h.badCrc
    heldReset := fun hrst => absurd (h.heldReset hrst).1 hbusy }

/-- Every step keeps the invariant. -/
theorem step_inv {s t : State} (h : Inv s) (hstep : step s = .next t) : Inv t := by
  have hadm := admitted_of_step hstep
  cases step_effect hstep with
  | reset l b => exact hardReset_inv _
  | hostSide c r p l n b hrst =>
    exact inv_congr h rfl rfl rfl rfl rfl rfl rfl rfl (fun hb => ⟨(hrst hb).1, (hrst hb).2, rfl, rfl, rfl⟩)
  | accepted w rest op _ _ hrst => exact accept_inv (s := setAgenda rest s) op hadm hrst
  | dataWritten w rest d _ _ hrst | configWritten w rest d _ _ hrst =>
    exact inv_congr h rfl rfl rfl rfl rfl rfl rfl rfl (fun hb => absurd (hrst.symm.trans hb) (by decide))
  | commandSent c rest hs => exact sendByte_inv hadm h hs
  | played l => exact tick_inv _ (setAgenda_inv h l)

/-- Settles O38: each of the effects a step can have keeps the invariant. -/
theorem everyStepKeepsTheInvariant : Obligations.EveryStepKeepsTheInvariant :=
  fun _ _ => step_inv

/-- Settles O37: where the invariant looks, the state right after reset is that of a hardware reset. -/
theorem resetStateMeetsTheInvariant : Obligations.ResetStateMeetsTheInvariant := by
  intro cfg levels agenda
  exact inv_congr (hardReset_inv State.reset) rfl rfl rfl rfl rfl rfl rfl rfl (fun hrst => by cases hrst)

/-- A run of a step and more begins with that step. -/
theorem exists_step_of_steps_succ {n : Nat} {s t : State} (h : steps (n + 1) s = .next t) : ∃ u, step s = .next u := by
  rw [steps_succ] at h
  split at h
  · exact ⟨_, ‹_›⟩
  · cases h
  · cases h

/-- What every step keeps holds at the end of a run if it holds at the start. -/
theorem steps_keep {P : State → Prop} (hkeep : ∀ {s t}, P s → step s = .next t → P t) {n : Nat} {s t : State}
    (hs : P s) (h : steps n s = .next t) : P t := by
  induction n generalizing s with
  | zero => exact Host.Outcome.next.inj h ▸ hs
  | succ n ih =>
    obtain ⟨u, hu⟩ := exists_step_of_steps_succ h
    rw [steps_succ_of_step hu] at h
    exact ih (hkeep hs hu) h

/-- Settles O39: the invariant says of PRESENT the opposite for the two errors, and DONE for each. -/
theorem noRunShowsBothOperationErrors : Obligations.NoRunShowsBothOperationErrors := by
  intro cfg levels agenda n s h
  have hinv : Inv s := steps_keep step_inv (resetStateMeetsTheInvariant cfg levels agenda) h
  constructor
  · rintro ⟨habsent, hcrc⟩
    exact absurd ((hinv.badCrc hcrc).2.symm.trans (hinv.absent habsent).2) (by decide)
  · rintro (habsent | hcrc)
    · exact (hinv.absent habsent).1
    · exact (hinv.badCrc hcrc).1

/-! Runs that never stop, and what no run changes. -/

/-- No step changes the parameters or the line's answers. -/
theorem StepEffect.environment {s t : State} (h : StepEffect s t) : t.cfg = s.cfg ∧ t.levels = s.levels := by
  cases h with
  | played l hbusy =>
    rcases tickEvent_cases (s := setAgenda l s) hbusy with ⟨u, hu, hcomplete⟩ | hgoesOn
    · rw [hcomplete, setTick_cfg, setTick_levels, complete_cfg, complete_levels]
      exact ⟨hu.cfg, hu.levels⟩
    · exact ⟨hgoesOn.cfg, hgoesOn.levels⟩
  | _ => exact ⟨rfl, rfl⟩

/-- With admitted parameters every step has a next state. -/
theorem exists_step {s : State} (hadm : s.cfg.admitted = true) : ∃ t, step s = .next t := by
  rcases step_cases s hadm with ⟨w, rest, -, -, hword⟩ | ⟨c, rest, -, -, hbyte⟩ | ⟨-, hevent⟩
  · obtain ⟨t, ht, -⟩ := exec_cases (decodeHost w) (setAgenda rest s)
    exact ⟨t, hword.trans ht⟩
  · exact ⟨_, hbyte⟩
  · exact ⟨_, hevent⟩

/-- Settles O10: each step has a next state, with the same parameters. -/
theorem legalBlockNeverStops : Obligations.LegalBlockNeverStops := by
  intro s n hadm
  induction n generalizing s with
  | zero => exact ⟨s, rfl⟩
  | succ n ih =>
    obtain ⟨u, hu⟩ := exists_step hadm
    rw [steps_succ_of_step hu]
    exact ih u ((congrArg Config.admitted (step_effect hu).environment.1).trans hadm)

/-- Settles O50: no step changes the parameters or the answers, and the two reads return the bytes of one of them. -/
theorem cdlyNeverChanges : Obligations.CdlyNeverChanges := by
  intro s t u v n d h
  have hkept : t.cfg = s.cfg ∧ t.levels = s.levels :=
    steps_keep (P := fun x => x.cfg = s.cfg ∧ x.levels = s.levels)
      (fun hx hstep => (step_effect hstep).environment.imp (·.trans hx.1) (·.trans hx.2)) ⟨rfl, rfl⟩ h
  refine ⟨hkept.1, hkept.2, fun hdelay hu hv => ?_⟩
  obtain rfl : hostRead .cdlyL t = u := Host.Outcome.next.inj ((exec_read .cdlyL d t).symm.trans hu)
  obtain rfl : hostRead .cdlyH _ = v := Host.Outcome.next.inj ((exec_read .cdlyH d _).symm.trans hv)
  have hconst : t.cfg.convDelayMs = 1000 := hkept.1 ▸ hdelay
  constructor
  · exact (congrArg lowByte hconst).trans (by decide)
  · exact (congrArg highByte hconst).trans (by decide)

/-- 70_reset_and_hazards.md R147: while `rst` is held every register reads as after reset. -/
theorem readReg_of_held {s : State} (h : Inv s) (hrst : s.rst = true) (r : Reg) :
    readReg r s = readReg r { State.reset with cfg := s.cfg } := by
  obtain ⟨-, hstatus, hdata, hparasite, htemp, -⟩ := h.heldReset hrst
  cases r with
  | ctrl | cdlyL | cdlyH => rfl
  | status => exact hstatus.trans resetStateHasTheValuesOfTheTable.1.symm
  | data => exact hdata
  | config => exact congrArg (fun b => (0 : BitVec 7) ++ bit b) hparasite
  | tempL => exact congrArg lowByte htemp
  | tempH => exact congrArg highByte htemp

/-- Settles O53: a write is dropped unfetched; a read runs, and every register has its reset value. -/
theorem heldResetIgnoresWritesAndReadsResetValues : Obligations.HeldResetIgnoresWritesAndReadsResetValues := by
  intro s w rest hinv hadm hrst ha
  refine ⟨fun hwrite => ?_, fun hread => ?_⟩
  · have hignored : ignoredByReset s w = true := by rw [ignoredByReset, hrst, HostWord.isWrite, hwrite]; rfl
    rw [step_event hadm (by simp [fetch, ha, hignored]), nextEvent_txn ha]
    rfl
  · have hrun : ignoredByReset s w = false := by rw [ignoredByReset, hrst, HostWord.isWrite, hread]; rfl
    rw [step_txn hadm ha hrun, decodeHost_read w hread, exec_read, hostRead,
      readReg_of_held (setAgenda_inv hinv rest) hrst]
    rfl

end Sys2Proof.Machine
end

section
/-! What changes each register and the line, read off the effects of a step (10_state.md R23, R27, R30 to R32, R39, R42;
00_scope.md R13; 43_command_sequencer.md R104; 60_exceptions.md R139). -/

namespace Sys2Proof.Machine

/-! What the results of an operation change. -/

theorem finishStartConv_frame (s : State) : (finishStartConv s).data = s.data ∧ (finishStartConv s).temp = s.temp := by
  unfold finishStartConv
  split <;> exact ⟨rfl, rfl⟩

theorem finishScratchpad_data (s : State) : (finishScratchpad s).data = s.data := by
  unfold finishScratchpad
  split <;> rfl

theorem finishReadTemp_data (s : State) : (finishReadTemp s).data = s.data := by
  unfold finishReadTemp
  split
  · rfl
  · exact finishScratchpad_data _

/-- 10_state.md R30: of the operations only the two reads have a result in DATA. -/
theorem operationResults_data (s : State) :
    (operationResults s).data = s.data ∨ s.cur = some .readBit ∨ s.cur = some .readByte := by
  unfold operationResults
  cases s.cur with
  | none => exact .inl rfl
  | some op =>
    cases op with
    | init | reset | writeBit | writeByte => exact .inl rfl
    | readBit => exact .inr (.inl rfl)
    | readByte => exact .inr (.inr rfl)
    | startConv => exact .inl (finishStartConv_frame s).1
    | readTemp => exact .inl (finishReadTemp_data s)

/-- R23: of the operations only four have a result in PRESENT, and INIT's is 0. -/
theorem operationResults_present (s : State) :
    (operationResults s).present = s.present
    ∨ (s.cur = some .init ∧ (operationResults s).present = false) ∨ s.cur = some .reset ∨ s.cur = some .startConv
    ∨ s.cur = some .readTemp := by
  unfold operationResults
  cases s.cur with
  | none => exact .inl rfl
  | some op =>
    cases op with
    | writeBit | writeByte | readBit | readByte => exact .inl rfl
    | init => exact .inr (.inl ⟨rfl, rfl⟩)
    | reset => exact .inr (.inr (.inl rfl))
    | startConv => exact .inr (.inr (.inr (.inl rfl)))
    | readTemp => exact .inr (.inr (.inr (.inr rfl)))

/-- 44_scratchpad_decoder.md R117: READ_TEMP changes TEMP only to the value SP decodes to, and without an error. -/
theorem finishReadTemp_temp (s : State) :
    (finishReadTemp s).temp = s.temp
    ∨ (finishReadTemp s).errAbsent = s.errAbsent ∧ (finishReadTemp s).errCrc = s.errCrc
      ∧ decodeScratchpad s.cfg.crcTable s.sp = some (finishReadTemp s).temp := by
  unfold finishReadTemp finishScratchpad
  split
  · exact .inl rfl
  · split
    · rename_i x hx
      exact .inr ⟨rfl, rfl, hx⟩
    · exact .inl rfl

/-- R32: of the operations only READ_TEMP has a result in TEMP. -/
theorem operationResults_temp (s : State) :
    (operationResults s).temp = s.temp
    ∨ s.cur = some .readTemp ∧ (operationResults s).errAbsent = s.errAbsent ∧ (operationResults s).errCrc = s.errCrc
      ∧ decodeScratchpad s.cfg.crcTable s.sp = some (operationResults s).temp := by
  unfold operationResults
  cases s.cur with
  | none => exact .inl rfl
  | some op =>
    cases op with
    | init | reset | writeBit | readBit | writeByte | readByte => exact .inl rfl
    | startConv => exact .inl (finishStartConv_frame s).2
    | readTemp => exact (finishReadTemp_temp s).imp_right (⟨rfl, ·⟩)

/-! The registers. -/

/-- A block with an operation in progress is not idle. -/
theorem not_busy_of_idle {s : State} (hidle : s.cur = none) : ¬s.busy = true := by
  simp [State.busy, hidle]

/-- Settles O43: what leaves the block busy keeps the results, and an operation that goes on does so too. -/
theorem noResultShowsBeforeCompletion : Obligations.NoResultShowsBeforeCompletion := by
  intro s t hstep hs ht
  cases step_effect hstep with
  | reset => exact absurd ht (not_busy_of_idle (hardReset_cur _))
  | hostSide | commandSent => exact ⟨rfl, rfl, rfl, rfl, rfl, rfl, rfl⟩
  | accepted _ _ _ _ _ _ hidle | dataWritten _ _ _ _ _ _ hidle | configWritten _ _ _ _ _ _ hidle =>
    exact absurd hs (not_busy_of_idle hidle)
  | played l hbusy =>
    rcases tickEvent_cases (s := setAgenda l s) hbusy with ⟨u, -, hcomplete⟩ | hgoesOn
    · rw [hcomplete] at ht
      exact absurd ht (not_busy_of_idle (complete_cur u))
    · exact ⟨hgoesOn.data, hgoesOn.temp, hgoesOn.present, hgoesOn.errAbsent, hgoesOn.errCrc, hgoesOn.done,
        hgoesOn.parasite⟩

/-- Settles O45: a reset, a DATA write, and completions, whose results are in DATA for the two reads only. -/
theorem dataChangesOnlyByItsWriteAReadOrReset : Obligations.DataChangesOnlyByItsWriteAReadOrReset := by
  intro s t hstep hne
  cases step_effect hstep with
  | reset l b hreset => exact .inl ⟨hreset, rfl⟩
  | hostSide | accepted | configWritten | commandSent => exact absurd rfl hne
  | dataWritten w rest d ha hw hrst hidle => exact .inr (.inl ⟨hidle, w, rest, ha, congrArg Except.ok hw⟩)
  | played l hbusy =>
    rcases tickEvent_cases (s := setAgenda l s) hbusy with ⟨u, hu, hcomplete⟩ | hgoesOn
    · rw [hcomplete] at hne ⊢
      rcases operationResults_data u with hkept | hread
      · exact absurd (hkept.trans hu.data) hne
      · exact .inr (.inr ⟨hu.cur ▸ hread, rfl, rfl⟩)
    · exact absurd hgoesOn.data hne

/-- Settles O46: a reset and a CONFIG write are the only effects on PARASITE. -/
theorem configChangesOnlyByItsWriteOrReset : Obligations.ConfigChangesOnlyByItsWriteOrReset := by
  intro s t hstep hne
  cases step_effect hstep with
  | reset l b hreset => exact .inl ⟨hreset, rfl⟩
  | hostSide | accepted | dataWritten | commandSent => exact absurd rfl hne
  | configWritten w rest d ha hw hrst hidle =>
    exact .inr ⟨hidle, w, rest, d, ha, congrArg Except.ok hw, rfl⟩
  | played l hbusy =>
    rcases tickEvent_cases (s := setAgenda l s) hbusy with ⟨u, hu, hcomplete⟩ | hgoesOn
    · rw [hcomplete, setTick_parasite, complete_parasite] at hne
      exact absurd hu.parasite hne
    · exact absurd hgoesOn.parasite hne

/-- Settles O47: a reset, and completions, whose results are in PRESENT for four operations only. -/
theorem presentChangesOnlyAtCompletionOrReset : Obligations.PresentChangesOnlyAtCompletionOrReset := by
  intro s t hstep hne
  cases step_effect hstep with
  | reset l b hreset => exact .inl ⟨hreset, rfl⟩
  | hostSide | accepted | dataWritten | configWritten | commandSent => exact absurd rfl hne
  | played l hbusy =>
    rcases tickEvent_cases (s := setAgenda l s) hbusy with ⟨u, hu, hcomplete⟩ | hgoesOn
    · rw [hcomplete] at hne ⊢
      rcases operationResults_present u with hkept | hresult
      · exact absurd (hkept.trans hu.present) hne
      · exact .inr ⟨rfl, rfl, hu.cur ▸ hresult⟩
    · exact absurd hgoesOn.present hne

/-- Settles O49: of the effects only a completion and a reset end an operation, and only an acceptance starts one. -/
theorem oneOperationAtATime : Obligations.OneOperationAtATime := by
  intro s t hstep
  cases step_effect hstep with
  | reset l b hreset => exact ⟨fun op _ => .inr (.inr ⟨rfl, rfl, hreset⟩), fun _ hstarts => absurd rfl hstarts⟩
  | hostSide | dataWritten | configWritten | commandSent =>
    exact ⟨fun op hop => .inl hop, fun hidle hstarts => absurd hidle hstarts⟩
  | accepted w rest op ha hwrite hrst hidle =>
    exact ⟨fun op' hop => absurd (hidle.symm.trans hop) (by simp), fun _ _ => ⟨w, rest, ha, hwrite⟩⟩
  | played l hbusy =>
    refine ⟨fun op hop => ?_, fun hidle => absurd hbusy (not_busy_of_idle hidle)⟩
    rcases tickEvent_cases (s := setAgenda l s) hbusy with ⟨u, hu, hcomplete⟩ | hgoesOn
    · rw [hcomplete]
      exact .inr (.inl ⟨rfl, rfl⟩)
    · exact .inl (hgoesOn.cur.trans hop)

/-! The line, its samples, and TEMP: what a tick does at a position that fits. -/

/-- A tick of an operation that goes on: it does not start a strong pull-up, and it samples only a line that is released
before and after it (00_scope.md R13, 43_command_sequencer.md R104). -/
structure GoesOn (s t : State) : Prop where
  cur : t.cur = s.cur
  temp : t.temp = s.temp
  high : t.drive = .high → s.drive = .high
  sample : t.smp ≠ s.smp → s.drive = .rel ∧ t.drive = .rel ∧ t.smp = s.line s.tick

/-- 00_scope.md R13: a tick of a `Drive` sets the drive state and takes no sample. -/
theorem driveTick_frame (d : Drive) (n : Nat) (rest : List Prim) (s : State) :
    (driveTick d n rest s).drive = d ∧ (driveTick d n rest s).smp = s.smp ∧ (driveTick d n rest s).cur = s.cur
    ∧ (driveTick d n rest s).temp = s.temp := by
  unfold driveTick
  split
  · exact ⟨rfl, rfl, rfl, rfl⟩
  · obtain ⟨_, _, _, _, e⟩ := settle_frame rest (setDrive d s)
    rw [e]
    exact ⟨rfl, rfl, rfl, rfl⟩

/-- R13: at the tick of a sample the line is released and nothing else is sampled. -/
theorem play_released {seq : List Prim} (s : State) (h : staysReleased seq = true) :
    (play seq s).drive = .rel ∧ (play seq s).smp = s.smp ∧ (play seq s).cur = s.cur ∧ (play seq s).temp = s.temp := by
  induction seq with
  | nil => cases h
  | cons p rest ih =>
    cases p with
    | drive d n =>
      cases n with
      | zero => exact ih h
      | succ n =>
        obtain rfl : d = .rel := by simpa [staysReleased] using h
        exact driveTick_frame .rel (n + 1) rest s
    | _ => cases h

/-- A tick at a settled position that fits: the operation completes, with a strong pull-up only for a START_CONV in
parasite mode, or it goes on. -/
theorem play_of_fits {seq : List Prim} {s : State} (hset : settled seq = true) (hfit : PositionFits s seq) :
    (∃ d, play seq s = complete (setDrive d s)
      ∧ (d = .high → s.drive = .high ∨ s.cur = some .startConv ∧ s.parasite = true))
    ∨ GoesOn s (play seq s) := by
  obtain ⟨hline, hown⟩ := hfit
  cases seq with
  | nil => exact .inl ⟨s.drive, rfl, .inl⟩
  | cons p rest =>
    rw [List.all_cons, Bool.and_eq_true] at hown
    cases p with
    | drive d n =>
      cases n with
      | zero => cases hset
      | succ n =>
        have hlow : d ≠ .high := by simpa [ownPrimitive] using hown.1
        obtain ⟨hd, hsmp, hcur, htemp⟩ := driveTick_frame d (n + 1) rest s
        exact .inr ⟨hcur, htemp, fun hhigh => absurd (hd.symm.trans hhigh) hlow, fun hne => absurd hsmp hne⟩
    | hold d =>
      simp only [lineDiscipline, Bool.and_eq_true, List.isEmpty_iff] at hline
      obtain rfl : rest = [] := hline.1
      obtain rfl : d = .rel := by simpa [ownPrimitive] using hown.1
      exact .inl ⟨.rel, rfl, fun hhigh => by cases hhigh⟩
    | holdIfParasite =>
      simp only [lineDiscipline, Bool.and_eq_true, List.isEmpty_iff] at hline
      obtain rfl : rest = [] := hline.1
      have hstart : s.cur = some .startConv := by simpa [ownPrimitive] using hown.1
      cases hparasite : s.parasite with
      | true => exact .inl ⟨.high, by simp [play, hparasite], fun _ => .inr ⟨hstart, rfl⟩⟩
      | false => exact .inl ⟨s.drive, by rw [play, hparasite]; rfl, .inl⟩
    | sample =>
      simp only [lineDiscipline, Bool.and_eq_true, beq_iff_eq] at hline
      obtain ⟨⟨hrel, hstays⟩, -⟩ := hline
      obtain ⟨hdrive, hsmp, hcur, htemp⟩ := play_released (takeSample s) hstays
      exact .inr ⟨hcur, htemp, fun hhigh => absurd (hdrive.symm.trans hhigh) (by decide), fun _ => ⟨hrel, hdrive, hsmp⟩⟩
    | send c => exact .inr ⟨rfl, rfl, id, fun hne => absurd rfl hne⟩
    | storePres | storeSr | storeSp | failIfAbsent => cases hset

/-- A tick event of a busy block that meets the invariant. -/
theorem tickEvent_of_inv {s : State} (h : Inv s) (hbusy : s.busy = true) :
    (∃ d, tickEvent s = setTick (s.tick + 1) (complete (setDrive d s))
      ∧ (d = .high → s.drive = .high ∨ s.cur = some .startConv ∧ s.parasite = true))
    ∨ GoesOn s (tickEvent s) := by
  rw [tickEvent_of_busy hbusy]
  rcases play_of_fits h.settled ⟨h.line, h.own⟩ with ⟨d, hcomplete, hhigh⟩ | hgoesOn
  · exact .inl ⟨d, by rw [hcomplete], hhigh⟩
  · exact .inr ⟨hgoesOn.cur, hgoesOn.temp, hgoesOn.high, hgoesOn.sample⟩

/-- Settles O40: of the effects only a tick drives the line HIGH, and only as a START_CONV in parasite mode completes. -/
theorem pullUpStartsOnlyWithStartConv : Obligations.PullUpStartsOnlyWithStartConv := by
  intro s t hinv hstep hnot hhigh
  cases step_effect hstep with
  | reset => exact absurd hhigh (by simp)
  | hostSide | accepted | dataWritten | configWritten | commandSent => exact absurd hhigh hnot
  | played l hbusy =>
    rcases tickEvent_of_inv (setAgenda_inv hinv l) hbusy with ⟨d, hcomplete, hpull⟩ | hgoesOn
    · rw [hcomplete] at hhigh ⊢
      obtain ⟨hstart, hparasite⟩ := (hpull (by simpa using hhigh)).resolve_left hnot
      exact ⟨hstart, hparasite, rfl, rfl⟩
    · exact absurd (hgoesOn.high hhigh) hnot

/-- Settles O41: only a reset and a tick of an operation touch the line. -/
theorem pullUpEndsOnlyAtATickOfAnOperationOrAReset : Obligations.PullUpEndsOnlyAtATickOfAnOperationOrAReset := by
  intro s t hstep hhigh hnot
  cases step_effect hstep with
  | reset l b hreset => exact .inl hreset
  | hostSide | accepted | dataWritten | configWritten | commandSent => exact absurd hhigh hnot
  | played l hbusy htick => exact .inr ⟨hbusy, htick⟩

/-- Settles O42: of the effects between busy states only a tick can change the sampled bit, and it samples a released
line. -/
theorem samplesAreTakenOnlyFromAReleasedLine : Obligations.SamplesAreTakenOnlyFromAReleasedLine := by
  intro s t hinv hstep hs ht hne
  cases step_effect hstep with
  | reset => exact absurd ht (not_busy_of_idle (hardReset_cur _))
  | hostSide | accepted | dataWritten | configWritten | commandSent => exact absurd rfl hne
  | played l hbusy htick =>
    rcases tickEvent_of_inv (setAgenda_inv hinv l) hbusy with ⟨d, hcomplete, -⟩ | hgoesOn
    · rw [hcomplete] at ht
      exact absurd ht (not_busy_of_idle (complete_cur (setDrive d (setAgenda l s))))
    · obtain ⟨hbefore, hafter, hlevel⟩ := hgoesOn.sample hne
      exact ⟨hbefore, hafter, hlevel, htick⟩

/-- 60_exceptions.md R131, R132: while an operation is in progress no error of an operation stands. -/
theorem Inv.noErrorWhileBusy {s : State} (h : Inv s) (hbusy : s.busy = true) : s.errAbsent = false ∧ s.errCrc = false := by
  have hdone : ¬s.done = true := fun hdone => not_busy_of_idle (h.doneIdle hdone) hbusy
  exact ⟨Bool.eq_false_iff.2 fun habsent => hdone (h.absent habsent).1,
    Bool.eq_false_iff.2 fun hcrc => hdone (h.badCrc hcrc).1⟩

/-- Settles O44: a reset, and completions, whose results are in TEMP for READ_TEMP only. -/
theorem tempChangesOnlyByASuccessfulReadTemp : Obligations.TempChangesOnlyByASuccessfulReadTemp := by
  intro s t hinv hstep hne
  cases step_effect hstep with
  | reset l b hreset => exact .inl ⟨hreset, rfl⟩
  | hostSide | accepted | dataWritten | configWritten | commandSent => exact absurd rfl hne
  | played l hbusy =>
    rcases tickEvent_of_inv (setAgenda_inv hinv l) hbusy with ⟨d, hcomplete, -⟩ | hgoesOn
    · rw [hcomplete] at hne ⊢
      rcases operationResults_temp (setDrive d (setAgenda l s)) with hkept | ⟨hcur, habsent, hcrc, hdecoded⟩
      · exact absurd hkept hne
      · obtain ⟨hnoAbsent, hnoCrc⟩ := hinv.noErrorWhileBusy hbusy
        exact .inr ⟨hcur, rfl, rfl, habsent.trans hnoAbsent, hcrc.trans hnoCrc, hdecoded⟩
    · exact absurd hgoesOn.temp hne

end Sys2Proof.Machine
end

section
/-! Host transactions: acceptance by operation code, CONFIG, the register reads, the command bytes
(45_host_control.md R120 to R129; 30_encoding.md R70). -/

namespace Sys2Proof.Machine

/-- 45_host_control.md R120: while idle an operation's CTRL write is its acceptance. -/
theorem startOperation_of_idle {s : State} (op : Op) (hidle : s.cur = none) : startOperation op s = accept op s :=
  refusedWhileBusy_of_idle (accept op) ((idle_iff s).2 hidle)

/-- Settles O15: each operation's write is its acceptance. -/
theorem operationsAreAcceptedWhenIdle : Obligations.OperationsAreAcceptedWhenIdle := by
  intro s ign hidle
  have haccept : ∀ op, Host.Outcome.next (φ := Fault) (ρ := Refusal) (startOperation op s) = .next (accept op s) :=
    fun op => congrArg _ (startOperation_of_idle op hidle)
  exact ⟨haccept .init, haccept .reset, haccept .writeBit, haccept .readBit, haccept .writeByte, haccept .readByte,
    haccept .startConv, haccept .readTemp⟩

/-- 30_encoding.md R64: the operations in the order of their codes, 1 to 8. -/
def opsByCode : List Op := [.init, .reset, .writeBit, .readBit, .writeByte, .readByte, .startConv, .readTemp]

/-- R64, 45_host_control.md R120, R121, R123: what a CTRL write does, by its operation code. -/
theorem exec_decodeOp_cases (ign op : BitVec 4) (s : State) :
    (op = 0 ∧ exec (decodeOp ign op) s = .next (refusedWhileBusy id s))
    ∨ (op ≠ 0 ∧ op.toNat ≤ 8
        ∧ ∃ o, opsByCode[op.toNat - 1]? = some o ∧ exec (decodeOp ign op) s = .next (startOperation o s))
    ∨ (8 < op.toNat ∧ exec (decodeOp ign op) s = .next (reservedOperation s)) := by
  obtain ⟨n, hn, rfl⟩ : ∃ n, n < 16 ∧ op = BitVec.ofNat 4 n := ⟨op.toNat, op.isLt, by simp⟩
  match n, hn with
  | 0, _ => exact .inl ⟨rfl, rfl⟩
  | 1, _ | 2, _ | 3, _ | 4, _ | 5, _ | 6, _ | 7, _ | 8, _ => exact .inr (.inl ⟨by decide, by decide, _, rfl, rfl⟩)
  | 9, _ | 10, _ | 11, _ | 12, _ | 13, _ | 14, _ | 15, _ => exact .inr (.inr ⟨by decide, rfl⟩)
  | _ + 16, hge => omega

/-- 45_host_control.md R124: while busy every CTRL write sets CMD_ERR and nothing else. -/
theorem exec_ctrlWrite_of_busy {s : State} (hbusy : s.busy = true) (v : Byte) :
    exec (decodeWrite .ctrl v) s = .next { s with cmdErr := true } := by
  rcases exec_decodeOp_cases (v.extractLsb' 4 4) (v.extractLsb' 0 4) s with ⟨-, h⟩ | ⟨-, -, o, -, h⟩ | ⟨-, h⟩
  · exact h.trans (congrArg _ (refusedWhileBusy_of_busy id hbusy))
  · exact h.trans (congrArg _ (refusedWhileBusy_of_busy (accept o) hbusy))
  · exact h.trans (congrArg _ (refusedWhileBusy_of_busy (raise .commandError) hbusy))

/-- Settles O14: the refusal while busy, and the three kinds of operation codes while idle. -/
theorem ctrlWriteFollowsTheAcceptanceProcedure : Obligations.CtrlWriteFollowsTheAcceptanceProcedure := by
  intro s v i hi
  obtain rfl : decodeWrite .ctrl v = i := Except.ok.inj ((decode_hostWord_write .ctrl v).symm.trans hi)
  refine ⟨fun hbusy => exec_ctrlWrite_of_busy hbusy v, ?_⟩
  rcases exec_decodeOp_cases (v.extractLsb' 4 4) (v.extractLsb' 0 4) s with ⟨hop, h⟩ | ⟨hop, hle, o, ho, h⟩ | ⟨hlt, h⟩
  · refine ⟨fun hidle _ => ?_, fun _ hne => absurd hop hne, fun _ hlt => by simp [hop] at hlt⟩
    exact h.trans (congrArg _ (refusedWhileBusy_of_idle id hidle))
  · refine ⟨fun _ h0 => absurd h0 hop, fun hidle _ _ => ⟨o, ho, ?_⟩, fun _ hlt => absurd hlt (Nat.not_lt.2 hle)⟩
    have haccepted : accept o s =
        { s with
          errAbsent := false, errCrc := false, cmdErr := false, done := false
          cur := some o, seq := procedure o s, elapsed := 0, divPhase := 0 } := rfl
    exact h.trans (congrArg _ ((startOperation_of_idle o ((idle_iff s).1 hidle)).trans haccepted))
  · refine ⟨fun _ h0 => by simp [h0] at hlt, fun _ _ hle => absurd hlt (Nat.not_lt.2 hle), fun hidle _ => ?_⟩
    exact h.trans (congrArg _ (reservedOperation_of_idle hidle))

/-- Settles O20: a CONFIG write is a refusable write whose own effect is to store bit 0. -/
theorem configWriteTakesBitZeroOnlyWhenIdle : Obligations.ConfigWriteTakesBitZeroOnlyWhenIdle := by
  intro s d
  refine ⟨fun hidle => ?_, fun hbusy => ?_⟩
  · exact congrArg Host.Outcome.next (refusedWhileBusy_of_idle (fun t => { t with parasite := d.getLsbD 0 }) hidle)
  · exact congrArg Host.Outcome.next (refusedWhileBusy_of_busy _ hbusy)

/-- 45_host_control.md R128: STATUS bit by bit. -/
theorem State.status_bits (s : State) :
    s.status.getLsbD 0 = s.cur.isSome ∧ s.status.getLsbD 1 = s.present ∧ s.status.getLsbD 2 = s.errAbsent
    ∧ s.status.getLsbD 3 = s.errCrc ∧ s.status.getLsbD 4 = s.cmdErr ∧ s.status.getLsbD 5 = (s.drive == .high)
    ∧ s.status.getLsbD 6 = s.done ∧ s.status.getLsbD 7 = false := by
  refine ⟨?_, ?_, ?_, ?_, ?_, s.status_getLsbD_five, ?_, s.status_getLsbD_seven⟩
  all_goals
    simp only [State.status, BitVec.getLsbD_append, getLsbD_bit]
    simp [State.busy]

/-- R128: CONFIG as read. -/
theorem State.config_eq (s : State) : s.config = if s.parasite then 0x01 else 0x00 := by
  rw [State.config]
  cases s.parasite <;> rfl

/-- 20_memory.md R48: the low byte of a value is its lowest eight bits. -/
theorem lowByte_eq_setWidth (v : Half) : lowByte v = v.setWidth 8 :=
  (BitVec.setWidth_eq_extractLsb' (by decide)).symm

/-- R48: the high byte of a value is what eight shifts leave. -/
theorem highByte_eq_setWidth_shift (v : Half) : highByte v = (v >>> 8).setWidth 8 := by
  apply BitVec.eq_of_toNat_eq
  simp [highByte]

/-- Settles O22: each read is the host read of its register, and leaves that register's value. -/
theorem registerReadsReturnTheirValues : Obligations.RegisterReadsReturnTheirValues := by
  intro s d hdelay
  have hread : ∀ (r : Reg) {v : Byte}, readReg r s = v → exec (decodeRead r d) s = .next { s with rdata := v } :=
    fun r v hv => hv ▸ exec_read r d s
  have hlow : lowByte s.cfg.convDelayMs = 0xE8 := (congrArg lowByte hdelay).trans (by decide)
  have hhigh : highByte s.cfg.convDelayMs = 0x03 := (congrArg highByte hdelay).trans (by decide)
  exact ⟨hread .ctrl rfl, ⟨s.status, hread .status rfl, s.status_bits⟩, hread .data rfl, hread .config s.config_eq,
    hread .tempL (lowByte_eq_setWidth s.temp), hread .tempH (highByte_eq_setWidth_shift s.temp), hread .cdlyL hlow,
    hread .cdlyH hhigh⟩

/-- Settles O25: a command byte is sent as the write slots of its bits, bit 0 first. -/
theorem commandBytesGoOutInTheListedBitOrder : Obligations.CommandBytesGoOutInTheListedBitOrder := by
  intro s
  exact ⟨exec_instr .skipRom s, exec_instr .convertT s, exec_instr .readScratchpad s⟩

/-! A refused CTRL write leaves the operation alone (45_host_control.md R124). -/

/-- What comes is time only. -/
def TimeOnly (s : State) : Prop := ∀ e ∈ s.agenda, e = .tick ∨ e = .clk

/-- What comes is time and host transactions. -/
def NoResetPending (s : State) : Prop := ∀ e ∈ s.agenda, e = .tick ∨ e = .clk ∨ ∃ w, e = .txn w

/-- Running an instruction does not touch the queue. -/
theorem exec_agenda {i : Instr} {s t : State} (h : exec i s = .next t) : t.agenda = s.agenda := by
  obtain ⟨u, hu, hcases⟩ := exec_cases i s
  obtain rfl : u = t := Host.Outcome.next.inj (hu.symm.trans h)
  rcases hcases with rfl | ⟨r, rfl⟩ | rfl | ⟨op, -, rfl⟩ | ⟨d, -, -, rfl⟩ | ⟨d, -, -, rfl⟩ | ⟨c, -, rfl⟩ <;> rfl

/-- While busy a host word changes nothing but CMD_ERR and h_rdata. -/
theorem exec_hostWord_of_busy {s t : State} (hbusy : s.busy = true) {w : HostWord}
    (h : exec (decodeHost w) s = .next t) : ∃ c r, t = aside c r s.divPhase s.agenda s := by
  have hnot : s.cur ≠ none := (busy_iff s).1 hbusy
  obtain ⟨u, hu, hcases⟩ := exec_cases (decodeHost w) s
  obtain rfl : u = t := Host.Outcome.next.inj (hu.symm.trans h)
  rcases hcases with rfl | ⟨r, rfl⟩ | rfl | ⟨op, hidle, -⟩ | ⟨d, -, hidle, -⟩ | ⟨d, -, hidle, -⟩ | ⟨c, hc, -⟩
  · exact ⟨_, _, rfl⟩
  · exact ⟨s.cmdErr, readReg r s, rfl⟩
  · exact ⟨true, s.rdata, rfl⟩
  · exact absurd hidle hnot
  · exact absurd hidle hnot
  · exact absurd hidle hnot
  · exact absurd hc (decodeHost_ne_instr w c)

theorem tickEvent_agenda (s : State) : (tickEvent s).agenda = s.agenda := by
  rw [tickEvent_hostSide]
  rfl

/-- 10_state.md R36: a clock cycle moves the divider, and may make a tick. -/
theorem clockEdge_eq_aside (s : State) :
    ∃ p l, clockEdge s = aside s.cmdErr s.rdata p l s ∧ ∀ e ∈ l, e = .tick ∨ e ∈ s.agenda := by
  unfold clockEdge
  split
  · exact ⟨s.divPhase + 1, s.agenda, rfl, fun e he => .inr he⟩
  · exact ⟨0, .tick :: s.agenda, rfl, fun e he => List.mem_cons.1 he⟩

/-- What is pending after an event was pending before it, or is a tick. -/
theorem nextEvent_agenda (s : State) : ∀ e ∈ (nextEvent s).agenda, e = .tick ∨ e ∈ s.agenda := by
  cases ha : s.agenda with
  | nil =>
    rw [nextEvent_nil ha, tickEvent_agenda, ha]
    exact fun e he => .inr he
  | cons event rest =>
    have htail : ∀ e ∈ rest, e = .tick ∨ e ∈ event :: rest := fun e he => .inr (List.mem_cons_of_mem _ he)
    cases event with
    | tick =>
      rw [nextEvent_tick ha, tickEvent_agenda]
      exact htail
    | clk =>
      obtain ⟨p, l, hclock, hl⟩ := clockEdge_eq_aside (setAgenda rest s)
      rw [nextEvent_clk ha, hclock]
      exact fun e he => (hl e he).elim .inl (htail e)
    | txn w | reset | rstHold | rstRelease =>
      rw [nextEvent, ha]
      exact htail

/-- What is pending after a step was pending before it, or is a tick. -/
theorem step_agenda {s t : State} (h : step s = .next t) : ∀ e ∈ t.agenda, e = .tick ∨ e ∈ s.agenda := by
  rcases step_cases s (admitted_of_step h) with ⟨w, rest, ha, -, hword⟩ | ⟨c, rest, -, -, hbyte⟩ | ⟨-, hevent⟩
  · intro e he
    rw [exec_agenda (hword.symm.trans h)] at he
    exact .inr (ha ▸ List.mem_cons_of_mem _ he)
  · obtain rfl := Host.Outcome.next.inj (hbyte.symm.trans h)
    exact fun e he => .inr he
  · obtain rfl := Host.Outcome.next.inj (hevent.symm.trans h)
    exact nextEvent_agenda s

theorem TimeOnly.step {s t : State} (htime : TimeOnly s) (h : step s = .next t) : TimeOnly t :=
  fun e he => (step_agenda h e he).elim .inl (htime e)

theorem NoResetPending.step {s t : State} (hno : NoResetPending s) (h : Machine.step s = .next t) : NoResetPending t :=
  fun e he => (step_agenda h e he).elim .inl (hno e)

/-- While only time comes, a step keeps CMD_ERR and h_rdata. -/
theorem TimeOnly.kept {s t : State} (htime : TimeOnly s) (h : Machine.step s = .next t) :
    t.cmdErr = s.cmdErr ∧ t.rdata = s.rdata := by
  have htick : ∀ l, (tickEvent (setAgenda l s)).cmdErr = s.cmdErr ∧ (tickEvent (setAgenda l s)).rdata = s.rdata := by
    intro l
    rw [tickEvent_hostSide]
    exact ⟨rfl, rfl⟩
  rcases step_cases s (admitted_of_step h) with ⟨w, rest, ha, -, -⟩ | ⟨c, rest, -, -, hbyte⟩ | ⟨-, hevent⟩
  · simpa using htime (.txn w) (by simp [ha])
  · obtain rfl := Host.Outcome.next.inj (hbyte.symm.trans h)
    exact ⟨rfl, rfl⟩
  · obtain rfl := Host.Outcome.next.inj (hevent.symm.trans h)
    cases ha : s.agenda with
    | nil =>
      have hdefault := htick []
      rwa [setAgenda_eq_self ha, ← nextEvent_nil ha] at hdefault
    | cons event rest =>
      obtain rfl | rfl := htime event (by simp [ha])
      · exact nextEvent_tick ha ▸ htick rest
      · obtain ⟨p, l, hclock, -⟩ := clockEdge_eq_aside (setAgenda rest s)
        rw [nextEvent_clk ha, hclock]
        exact ⟨rfl, rfl⟩

/-- While an operation is in progress and no reset comes, a step is one of the host side alone, or it is a step of the
operation, and then the block with nothing pending makes the same. -/
theorem NoResetPending.alone {s t : State} (hno : NoResetPending s) (hbusy : s.busy = true)
    (h : Machine.step s = .next t) :
    (∀ c r p, aside c r p [] t = aside c r p [] s)
    ∨ ∀ c r p, Machine.step (aside c r p [] s) = .next (aside c r p [] t) := by
  have hadm := admitted_of_step h
  have htick : ∀ l, fetch s = none → tickNext s = true → ∀ c r p,
      Machine.step (aside c r p [] s) = .next (aside c r p [] (tickEvent (setAgenda l s))) := by
    intro l hfetch htick c r p
    have hnoByte : ∀ b rest, s.seq ≠ .send b :: rest := by
      intro b rest hs
      rcases (tickNext_iff s).1 htick with ha | ⟨_, ha⟩ <;> simp [fetch, ha, hs] at hfetch
    rw [step_quiet (aside c r p [] s) hadm rfl hnoByte, ← tickEvent_aside]
    rfl
  rcases step_cases s hadm with ⟨w, rest, -, -, hword⟩ | ⟨b, rest, -, hs, hbyte⟩ | ⟨hfetch, hevent⟩
  · obtain ⟨c, r, rfl⟩ := exec_hostWord_of_busy (s := setAgenda rest s) hbusy (hword.symm.trans h)
    exact .inl fun _ _ _ => rfl
  · obtain rfl := Host.Outcome.next.inj (hbyte.symm.trans h)
    exact .inr fun c r p => step_send (aside c r p [] s) hadm rfl hs
  · obtain rfl := Host.Outcome.next.inj (hevent.symm.trans h)
    cases ha : s.agenda with
    | nil =>
      have hdefault := htick [] hfetch ((tickNext_iff s).2 (.inl ha))
      rw [setAgenda_eq_self ha, ← nextEvent_nil ha] at hdefault
      exact .inr hdefault
    | cons event rest =>
      obtain rfl | rfl | ⟨w, rfl⟩ := hno event (by simp [ha])
      · exact .inr (nextEvent_tick ha ▸ htick rest hfetch ((tickNext_iff s).2 (.inr ⟨rest, ha⟩)))
      · obtain ⟨p, l, hclock, -⟩ := clockEdge_eq_aside (setAgenda rest s)
        rw [nextEvent_clk ha, hclock]
        exact .inl fun _ _ _ => rfl
      · rw [nextEvent_txn ha]
        exact .inl fun _ _ _ => rfl

/-- A run with an operation in progress up to its last step leads where ticks alone lead, but for the host side. -/
theorem NoResetPending.steps_alone (n : Nat) {s t : State} (hno : NoResetPending s)
    (hbusy : ∀ k < n, ∀ u, steps k s = .next u → u.busy = true) (h : steps n s = .next t) (c : Bool) (r : Byte)
    (p : Nat) : ∃ m, steps m (aside c r p [] s) = .next (aside c r p [] t) := by
  induction n generalizing s with
  | zero =>
    obtain rfl := Host.Outcome.next.inj h
    exact ⟨0, rfl⟩
  | succ n ih =>
    obtain ⟨u, hu⟩ := exists_step_of_steps_succ h
    rw [steps_succ_of_step hu] at h
    have hbusy' : ∀ k < n, ∀ x, steps k u = .next x → x.busy = true := fun k hk x hx =>
      hbusy (k + 1) (Nat.succ_lt_succ hk) x (by rw [steps_succ_of_step hu, hx])
    obtain ⟨m, hm⟩ := ih (hno.step hu) hbusy' h
    rcases hno.alone (hbusy 0 (Nat.succ_pos n) s rfl) hu with hsame | hstep
    · exact ⟨m, hsame c r p ▸ hm⟩
    · exact ⟨m + 1, by rw [steps_succ_of_step (hstep c r p), hm]⟩

/-- Settles O18: the refusal; the comparison of the two runs, exact while only time comes, since time keeps what may
differ; and the run in which the host side stands aside. -/
theorem refusedCtrlWriteLeavesTheOperationAlone : Obligations.RefusedCtrlWriteLeavesTheOperationAlone := by
  intro s v i hbusy hi
  obtain rfl : decodeWrite .ctrl v = i := Except.ok.inj ((decode_hostWord_write .ctrl v).symm.trans hi)
  have hsame : SameAside s { s with cmdErr := true } := ⟨true, s.rdata, fun _ => rfl, rfl⟩
  refine ⟨exec_ctrlWrite_of_busy hbusy v, fun n t htime h => ?_, fun n t h => ?_, fun n t hno hbusy h => ?_⟩
  · have hkept : ∀ {x y : State}, TimeOnly x → steps n x = .next y → y.cmdErr = x.cmdErr ∧ y.rdata = x.rdata :=
      fun {x _} hx hrun => (steps_keep (P := fun z => TimeOnly z ∧ z.cmdErr = x.cmdErr ∧ z.rdata = x.rdata)
        (fun hz hstep => ⟨hz.1.step hstep, (hz.1.kept hstep).imp (·.trans hz.2.1) (·.trans hz.2.2)⟩)
        ⟨hx, rfl, rfl⟩ hrun).2
    obtain ⟨y, hy, c, r, -, rfl⟩ := steps_aside n hsame h
    obtain ⟨hc, hr⟩ := hkept (x := { s with cmdErr := true }) htime hy
    have hrdata : r = t.rdata := hr.trans (hkept htime h).2.symm
    obtain rfl : c = true := hc
    rw [hy, hrdata]
    rfl
  · obtain ⟨y, hy, c, r, hc, rfl⟩ := steps_aside n hsame h
    exact ⟨c, r, hc, hy⟩
  · exact NoResetPending.steps_alone n hno hbusy h s.cmdErr s.rdata s.divPhase

end Sys2Proof.Machine
end

section
/-! Whole operations from a Ready state: the accepted procedure runs its stretches and completes at the tick after them
(41_transport.md R91 to R94; 42_reset_presence.md R99; 43_command_sequencer.md R102 to R106; 45_host_control.md R122). -/

namespace Sys2Proof.Machine

/-- Right after its acceptance in a Ready state an operation runs undisturbed. -/
theorem accept_undisturbed {s : State} (hr : Ready s) (op : Op) : Undisturbed (accept op s) :=
  ⟨hr.admitted, hr.quiet, rfl, rfl⟩

/-- While the accepted operation goes on no result shows. -/
theorem During.inProgress {s m : State} {op : Op} {n : Nat} (h : During (accept op s) m n) : InProgress s m n where
  tick := h.tick
  busy := by rw [State.busy, h.cur]; rfl
  done := h.done
  errAbsent := h.errAbsent
  errCrc := h.errCrc
  cmdErr := h.cmdErr
  present := h.present
  data := h.data
  temp := h.temp

/-- What holds when the accepted operation completes at the tick after `n` ticks, whatever the operation. -/
theorem During.completed {s v : State} {op : Op} {n : Nat} (hr : Ready s) (h : During (accept op s) v n) :
    Completed s (setTick (v.tick + 1) (complete v)) (n + 1) where
  tick := congrArg (· + 1) h.tick
  idle := rfl
  done := rfl
  cmdErr := (complete_cmdErr v).trans h.cmdErr
  parasite := (complete_parasite v).trans h.parasite
  cfg := (complete_cfg v).trans h.cfg
  levels := (complete_levels v).trans h.levels
  rdata := (complete_rdata v).trans h.rdata
  divPhase := (complete_divPhase v).trans h.divPhase
  quiet := (complete_agenda v).trans (h.agenda.trans hr.quiet)
  released := (complete_rst v).trans (h.rst.trans hr.released)

/-- The drive state may differ while an operation goes on. -/
theorem During.setDrive {s m : State} {n : Nat} (h : During s m n) (d : Drive) : During s (Machine.setDrive d m) n :=
  ⟨h.1, h.2, h.3, h.4, h.5, h.6, h.7, h.8, h.9, h.10, h.11, h.12, h.13, h.14, h.15, h.16, h.17⟩

/-- An operation whose procedure takes one tick a step: its waveform, and its completion with results `R`. -/
theorem Stretch.whole {s u : State} {op : Op} {i : Instr} {n : Nat} {w : Nat → Drive} {R : State → Prop} (hr : Ready s)
    (hi : exec i s = .next (startOperation op s)) (h : Stretch (accept op s) u n w) (hseq : u.seq = [])
    (helapsed : u.elapsed = 0) (hR : R (setTick (u.tick + 1) (complete u))) :
    ∃ a, exec i s = .next a
      ∧ (∀ t < n, ∃ m, steps (t + 1) a = .next m ∧ InProgress s m (t + 1) ∧ m.drive = w t)
      ∧ ∃ m, steps (n + 1) a = .next m ∧ Completed s m (n + 1) ∧ R m := by
  obtain ⟨hrun, hduring, hwave⟩ := h
  have hlast := step_complete u (hduring.undisturbed (accept_undisturbed hr op) helapsed) hseq
  refine ⟨accept op s, hi.trans (congrArg _ (startOperation_of_idle op hr.idle)), fun t ht => ?_, _, ?_,
    hduring.completed hr, hR⟩
  · obtain ⟨m, hm, hd, hdrive⟩ := hwave t ht
    exact ⟨m, hm, hd.inProgress, hdrive⟩
  · rw [steps_add hrun, steps_succ_of_step hlast, steps_zero]

/-- An operation that sends command bytes: its waveform, and its completion, from `v`, with results `R`. -/
theorem Passes.whole {s u v : State} {op : Op} {i : Instr} {n : Nat} {w : Nat → Drive} {R : State → Prop} (hr : Ready s)
    (hi : exec i s = .next (startOperation op s)) (h : Passes (accept op s) u n w) (hv : During (accept op s) v n)
    (hlast : step u = .next (setTick (v.tick + 1) (complete v))) (hR : R (setTick (v.tick + 1) (complete v))) :
    ∃ a, exec i s = .next a
      ∧ (∀ t < n, ∃ k m, steps k a = .next m ∧ InProgress s m (t + 1) ∧ m.drive = w t)
      ∧ ∃ k m, steps k a = .next m ∧ Completed s m (n + 1) ∧ R m := by
  obtain ⟨⟨k, hrun⟩, -, hwave⟩ := h
  refine ⟨accept op s, hi.trans (congrArg _ (startOperation_of_idle op hr.idle)), fun t ht => ?_, k + 1, _, ?_,
    hv.completed hr, hR⟩
  · obtain ⟨k, m, hm, hd, hdrive⟩ := hwave t ht
    exact ⟨k, m, hm, hd.inProgress, hdrive⟩
  · rw [steps_add hrun, steps_succ_of_step hlast, steps_zero]

/-! The operations of the transport. -/

/-- 41_transport.md R92: READ_BIT's result, 0x01 or 0x00. -/
theorem zextBit_eq (b : Bool) : zextBit b = if b then 0x01 else 0x00 := by
  cases b <;> rfl

/-- R90: a bit of the byte on the line is the level at its slot's sample. -/
theorem getLsbD_byteOnLine (s : State) (t : Nat) {k : Nat} (hk : k < 8) :
    (byteOnLine s t).getLsbD k = s.line (t + k * (s.cfg.tSlot + s.cfg.tRec) + s.cfg.tLowr + s.cfg.tRds) := by
  rw [byteOnLine, getLsbD_byteOfBits _ hk, Nat.add_assoc (t + _)]
  rfl

/-- 00_scope.md R13: the environment does not depend on the block. -/
@[simp] theorem accept_line (op : Op) (s : State) (t : Nat) : (accept op s).line t = s.line t := rfl

@[simp] theorem accept_byteOnLine (op : Op) (s : State) (t : Nat) : byteOnLine (accept op s) t = byteOnLine s t := rfl

/-- Settles O27: the procedure is one write slot with DATA[0]. -/
theorem writeBitSendsDataBitZero : Obligations.WriteBitSendsDataBitZero := by
  intro s ign hr
  have hslot := stretch_slotWrite (accept .writeBit s) (accept_undisturbed hr _) s.dataBit (List.append_nil _).symm
  refine hslot.whole hr rfl rfl rfl ?_
  simp [operationResults]

/-- Settles O28: the procedure is one read slot, and its result is the bit sampled. -/
theorem readBitReturnsTheSampledLevel : Obligations.ReadBitReturnsTheSampledLevel := by
  intro s ign hr
  have hslot := stretch_slotRead (accept .readBit s) (accept_undisturbed hr _) (List.append_nil _).symm
  refine hslot.whole hr rfl rfl rfl ?_
  simp [operationResults, setSample, zextBit_eq, Config.readSampleTime, Nat.add_assoc]

/-- Settles O29: the procedure is the eight write slots of DATA. -/
theorem writeByteSendsDataLsbFirst : Obligations.WriteByteSendsDataLsbFirst := by
  intro s ign hr
  have hbyte := stretch_byteWrite (accept .writeByte s) (accept_undisturbed hr _) s.data (List.append_nil _).symm
  refine hbyte.whole hr rfl rfl rfl ?_
  simp [operationResults]

/-- Settles O30: the procedure is eight read slots, and its result is the byte on the line. -/
theorem readByteAssemblesTheSamplesLsbFirst : Obligations.ReadByteAssemblesTheSamplesLsbFirst := by
  intro s ign hr
  obtain ⟨b, hbyte⟩ := stretch_byteRead (accept .readByte s) (accept_undisturbed hr _) (List.append_nil _).symm
  refine hbyte.whole hr rfl rfl rfl ⟨fun k hk => ?_, ?_⟩
  · rw [← getLsbD_byteOnLine s s.tick hk]
    simp [operationResults]
  · simp [operationResults]

/-! RESET and INIT. -/

/-- Settles O31: the procedure is ResetPresence, and its result is the sample inverted. -/
theorem resetReportsTheSinglePresenceSample : Obligations.ResetReportsTheSinglePresenceSample := by
  intro s ign hr
  have hpresence := stretch_resetPresence (accept .reset s) (accept_undisturbed hr _) (List.append_nil _).symm
  refine hpresence.whole hr rfl rfl rfl ?_
  simp [operationResults, setSample, Config.presenceSampleTime, Nat.add_assoc]

/-- Settles O32: INIT's procedure releases the line and ends at its first tick; while busy it is refused. -/
theorem initReleasesTheLineAtTheNextTick : Obligations.InitReleasesTheLineAtTheNextTick := by
  intro s ign
  refine ⟨fun hr => ?_, fun hbusy => congrArg Host.Outcome.next (refusedWhileBusy_of_busy (accept .init) hbusy)⟩
  have hduring : During (accept .init s) (setDrive .rel (accept .init s)) 0 :=
    ⟨rfl, rfl, rfl, rfl, rfl, rfl, rfl, rfl, rfl, rfl, rfl, rfl, rfl, rfl, rfl, rfl, rfl⟩
  have hlast : step (accept .init s) = .next (setTick (s.tick + 1) (complete (setDrive .rel (accept .init s)))) :=
    step_quiet _ hr.admitted hr.quiet (fun _ _ h => by cases h)
  refine ⟨accept .init s, _, congrArg _ (startOperation_of_idle .init hr.idle), rfl, rfl, ?_, hduring.completed hr, ?_⟩
  · rw [steps_succ_of_step hlast]
    rfl
  · have hspu : (Drive.rel == Drive.high) = false := rfl
    simp [operationResults, State.status, State.spu, State.busy, bit, hspu]

/-! The command sequences. -/

/-- Settles O33: nothing of START_CONV is left after the preface, and it completes with ERR_ABSENT. -/
theorem startConvWithoutDeviceFailsAfterTheReset : Obligations.StartConvWithoutDeviceFailsAfterTheReset := by
  intro s ign hr hline
  have hpreface := stretch_preface_absent (accept .startConv s) (accept_undisturbed hr _) rfl hline
  refine hpreface.whole hr rfl rfl rfl ?_
  simp [operationResults, finishStartConv, setSample]

/-- Settles O35: nothing of READ_TEMP is left after the preface, and it completes with ERR_ABSENT. -/
theorem readTempWithoutDeviceFailsAfterTheReset : Obligations.ReadTempWithoutDeviceFailsAfterTheReset := by
  intro s ign hr hline
  have hpreface := stretch_preface_absent (accept .readTemp s) (accept_undisturbed hr _)
    (List.append_assoc _ _ _) hline
  refine hpreface.whole hr rfl rfl rfl ?_
  simp [operationResults, finishReadTemp, setSample]

@[simp] theorem settle_holdIfParasite (rest : List Prim) (s : State) :
    settle (.holdIfParasite :: rest) s = setPosition (.holdIfParasite :: rest) 0 s := rfl

/-- 43_command_sequencer.md R103: the tick after the two command bytes completes, in parasite mode with the line HIGH. -/
theorem step_holdIfParasite {u : State} {p : Bool} (hu : Undisturbed u) (hs : u.seq = [.holdIfParasite])
    (hrel : u.drive = .rel) (hp : u.parasite = p) :
    step u = .next (setTick (u.tick + 1) (complete (setDrive (if p then .high else .rel) u))) := by
  have hself : setDrive .rel u = u := by
    rw [← hrel]
    rfl
  rw [step_quiet u hu.admitted hu.quiet (by simp [hs]), tickEvent_of_busy hu.busy, hs]
  cases p <;> simp [play, hp, hself]

/-- Settles O34: the preface, the two command bytes, and the strong pull-up in parasite mode. -/
theorem startConvSendsSkipRomAndConvertT : Obligations.StartConvSendsSkipRomAndConvertT := by
  intro s ign hr hline
  have hundisturbed := accept_undisturbed hr .startConv
  have hsends := passes_commands (accept .startConv s) hundisturbed (c := .convertT) (tail := [.holdIfParasite]) rfl hline
  have hduring := hsends.2.1
  have hlast := step_holdIfParasite (p := s.parasite) (hduring.undisturbed hundisturbed rfl) rfl rfl
    hduring.parasite
  refine Passes.whole hr rfl hsends (hduring.setDrive _) hlast ?_
  simp [operationResults, finishStartConv, setSample]

/-- Settles O36: the preface, the two command bytes and nine bytes of read slots, and Decode of the nine bytes. -/
theorem readTempDecodesTheBytesOnTheLine : Obligations.ReadTempDecodesTheBytesOnTheLine := by
  intro s ign hr hline
  have hundisturbed := accept_undisturbed hr .readTemp
  obtain ⟨b, v, hreads⟩ := passes_readTemp (accept .readTemp s) hundisturbed rfl hline
  rw [scratchpadOnLine_congr (x := accept .readTemp s) (s := s) rfl rfl] at hreads
  have hduring := hreads.2.1
  have hlast := step_complete _ (hduring.undisturbed hundisturbed rfl) rfl
  refine Passes.whole hr rfl hreads hduring hlast ?_
  cases hdecode : decodeScratchpad s.cfg.crcTable (scratchpadOnLine s (s.tick + Config.commandTime s.cfg)) with
  | none => simp [operationResults, finishReadTemp, finishScratchpad, setReadings, setSample, hdecode]
  | some temp => simp [operationResults, finishReadTemp, finishScratchpad, setReadings, setSample, hdecode]

end Sys2Proof.Machine
end

section
/-! The masks of the scratchpad decoder as rounding toward minus infinity (44_scratchpad_decoder.md R114, R115, R119). -/

namespace Sys2Proof.Machine

/-- R113: the low bits of the raw register a resolution does not use. -/
def unusedBits : Resolution → Nat
  | .bits9 => 3
  | .bits10 => 2
  | .bits11 => 1
  | .bits12 => 0

/-- R114: a resolution's mask clears the bits it does not use. -/
theorem resolutionMask_eq (r : Resolution) : resolutionMask r = BitVec.allOnes 16 <<< unusedBits r := by
  cases r <;> rfl

/-- Clearing the low `k` bits is shifting them out and back. -/
theorem and_allOnes_shiftLeft (v : Half) (k : Nat) : v &&& (BitVec.allOnes 16 <<< k) = (v >>> k) <<< k := by
  refine BitVec.eq_of_getLsbD_eq fun i hi => ?_
  rw [BitVec.getLsbD_and, BitVec.getLsbD_shiftLeft, BitVec.getLsbD_shiftLeft, BitVec.getLsbD_ushiftRight,
    BitVec.getLsbD_allOnes]
  by_cases hk : i < k
  · simp [hk]
  · simp [hk, hi, show i - k < 16 by omega, show k + (i - k) = i by omega]

/-- R114: masking takes off what the raw value leaves modulo the resolution's step. -/
theorem toNat_and_resolutionMask (v : Half) (r : Resolution) :
    (v &&& resolutionMask r).toNat = v.toNat / 2 ^ unusedBits r * 2 ^ unusedBits r := by
  have hle : v.toNat / 2 ^ unusedBits r * 2 ^ unusedBits r ≤ v.toNat := Nat.div_mul_le_self _ _
  rw [resolutionMask_eq, and_allOnes_shiftLeft, BitVec.toNat_shiftLeft, BitVec.toNat_ushiftRight,
    Nat.shiftRight_eq_div_pow, Nat.shiftLeft_eq]
  exact Nat.mod_eq_of_lt (Nat.lt_of_le_of_lt hle v.isLt)

/-- Settles O58: a multiple of a step that divides the sign's weight, at most the value and less than a step below it. -/
theorem maskingKeepsTheSignAndRoundsDown : Obligations.MaskingKeepsTheSignAndRoundsDown := by
  intro raw r
  have hmask := toNat_and_resolutionMask raw r
  have hlt := raw.isLt
  unfold sint16
  rw [hmask]
  cases r <;> simp only [unusedBits, Nat.reducePow] <;> omega

/-- Settles O60: the listed patterns and masks, one by one. -/
theorem cornerPatternsHaveTheListedTemperatures : Obligations.CornerPatternsHaveTheListedTemperatures := by
  refine ⟨fun r => ?_, by decide⟩
  cases r <;> decide

end Sys2Proof.Machine
end
